-- ==== Sys2Proof/Word.lean ====
section
/-! DEFINITION. The word and byte types of 00_scope.md rule R8.

A word is a 32-bit unsigned integer and a byte an 8-bit unsigned integer. `BitVec`'s own `+`, `^^^`,
`&&&`, `|||` and `~~~` are rule R9's `+`, `^`, `&`, `|` and `~`: every word result is reduced modulo 2^32.
The rotations, the shift and the byte order are in Machine/Bits.lean. -/

namespace Sys2Proof

/-- A word: 32 bits, unsigned (R8). -/
abbrev Word := BitVec 32

/-- A byte: 8 bits, unsigned (R8). -/
abbrev Byte := BitVec 8

end Sys2Proof
end

