-- ==== Sys2Proof/Syntax.lean ====
section
/-! DEFINITION. The commands of SHC (30_encoding.md R105): one constructor for each row of the opcode table,
with its operand fields (R101-R104). The data bytes of ADD and KEY do not travel in the command word (R100):
they come from the latched DIN, so they are no part of the syntax. -/

namespace Sys2Proof

/-- The algorithm that ALG selects (10_state.md R23). The fourth code of the two-bit field is never held, and
a command word that names it is illegal (R103, R111), so it has no constructor. -/
inductive Alg where
  /-- ALG = 0. -/
  | sha1
  /-- ALG = 1. -/
  | sha256
  /-- ALG = 2. -/
  | sha224
deriving DecidableEq, Repr

/-- The mode that HM selects (10_state.md R23). -/
inductive Mode where
  /-- HM = 0: a plain digest. -/
  | plain
  /-- HM = 1: HMAC. -/
  | hmac
deriving DecidableEq, Repr

/-- An SHC command (30_encoding.md R105). -/
inductive Instr where
  /-- OP 0x00, format Z (40_accumulator.md R149). -/
  | nop
  /-- OP 0x01, format I (40_accumulator.md R150). -/
  | init (alg : Alg) (mode : Mode)
  /-- OP 0x02, format Z (40_accumulator.md R152, 43_hmac.md R290). -/
  | reset
  /-- OP 0x03, format D: CNT bytes of the latched DIN (40_accumulator.md R154, 43_hmac.md R292). -/
  | add (cnt : Nat)
  /-- OP 0x04, format Z (40_accumulator.md R156, 43_hmac.md R294). -/
  | finish
  /-- OP 0x05, format Z (43_hmac.md R284). -/
  | keyclr
  /-- OP 0x06, format D: CNT bytes of the latched DIN (43_hmac.md R286). -/
  | key (cnt : Nat)
  /-- OP 0x07, format Z (40_accumulator.md R151). -/
  | clrerr
deriving DecidableEq, Repr

end Sys2Proof
end

