-- ==== Sys2Proof/Machine/Params.lean ====
section
/-! DEFINITION. The fixed parameters of 00_scope.md rule R6. The open one, LAT, is `Config.latency`. -/

namespace Sys2Proof.Machine

/-- BlockSize: 64 bytes for all three algorithms (R6). -/
def blockSize : Nat := 64

/-- LMAX, the largest total length and the largest key length: 2^61 - 1 bytes (R6, R7). -/
def lmax : Nat := 2 ^ 61 - 1

/-- DigestSize DS, in bytes (R6). -/
def digestSize : Alg → Nat
  | .sha1 => 20
  | .sha256 => 32
  | .sha224 => 28

/-- The byte that the inner pad repeats (R6, 43_hmac.md R283). -/
def ipadByte : Byte := 0x36

/-- The byte that the outer pad repeats (R6, 43_hmac.md R283). -/
def opadByte : Byte := 0x5c

/-- The constant of the ID register: the letters "SHC" and version 0x01 (00_scope.md R3, 10_state.md R44). -/
def idValue : Word := 0x53484301

end Sys2Proof.Machine
end

