-- ==== Sys2Proof/Machine/Bits.lean ====
section
/-! DEFINITION. The word operators of 00_scope.md rule R9 that `BitVec` does not name, and the big-endian
conversions of rule R10. -/

namespace Sys2Proof.Machine

/-- Left circular rotation, for 0 < n < 32 (R9). -/
def rotl (n : Nat) (x : Word) : Word := (x <<< n) ||| (x >>> (32 - n))

/-- Right circular rotation, for 0 < n < 32 (R9). -/
def rotr (n : Nat) (x : Word) : Word := (x >>> n) ||| (x <<< (32 - n))

/-- Logical shift right, filling with zeros (R9). -/
def shr (n : Nat) (x : Word) : Word := x >>> n

/-- `BE32`: the first byte is the most significant (R10). -/
def be32 (s0 s1 s2 s3 : Byte) : Word := s0 ++ s1 ++ s2 ++ s3

/-- `bytes32`, the inverse of `BE32` (R10). -/
def bytes32 (w : Word) : List Byte :=
  [w.extractLsb' 24 8, w.extractLsb' 16 8, w.extractLsb' 8 8, w.extractLsb' 0 8]

/-- `bytes64`: the eight bytes of a 64-bit value, most significant first (R10). -/
def bytes64 (v : BitVec 64) : List Byte :=
  [v.extractLsb' 56 8, v.extractLsb' 48 8, v.extractLsb' 40 8, v.extractLsb' 32 8,
   v.extractLsb' 24 8, v.extractLsb' 16 8, v.extractLsb' 8 8, v.extractLsb' 0 8]

/-- The big-endian words of a byte sequence, four bytes each (20_memory.md R76). -/
def blockWords : List Byte → List Word
  | s0 :: s1 :: s2 :: s3 :: rest => be32 s0 s1 s2 s3 :: blockWords rest
  | _ => []

end Sys2Proof.Machine
end

