-- ==== Sys2Proof/Machine/State.lean ====
section
/-! DEFINITION. The state of SHC (10_state.md R21), the host side of its bus, the reasons a step could stop, and
the state after hardware reset (10_state.md R50).

SHC has no memory of its own (20_memory.md R70): its one address space is the register window of R39, whose
registers are this state or are computed from it (Machine/Registers.lean). -/

namespace Sys2Proof.Machine

/-- The lifecycle of a digest context and of the HMAC controller (10_state.md R25, R31). Its two-bit code is in
Machine/Flags.lean. -/
inductive Lifecycle where
  | idle
  | accumulating
  | finalized
deriving DecidableEq, Repr

/-- What ERR holds (60_exceptions.md R330). Codes 4-15 are never written. -/
inductive ErrCode where
  /-- 0: no error recorded. -/
  | none
  /-- 1, EILL: an illegal command word (R331). -/
  | eill
  /-- 2, ESEQ: a legal command that the mode or state does not allow (R332). -/
  | eseq
  /-- 3, ELEN: the command would take a length counter past LMAX (R333). -/
  | elen
deriving DecidableEq, Repr

/-- The HashState: eight words `H[0..7]` (10_state.md R28). -/
structure HashState where
  h0 : Word
  h1 : Word
  h2 : Word
  h3 : Word
  h4 : Word
  h5 : Word
  h6 : Word
  h7 : Word
deriving DecidableEq, Repr

/-- A digest context CTXk (10_state.md R24). -/
structure Ctx where
  /-- ST (R25). -/
  st : Lifecycle
  /-- The PartialBlock, BUF[0..PLEN): R26 lets a model hold BUF as a byte list of length PLEN. So PLEN is this
  list's length. -/
  buf : List Byte
  /-- TLEN: the bytes absorbed since the last ctx_reset (R27). -/
  tlen : Nat
  /-- H (R28). -/
  h : HashState
deriving DecidableEq, Repr

/-- What the host drives on the ports for one bus cycle (20_memory.md R72). -/
structure Port where
  rst : Bool
  addr : BitVec 7
  wr : Bool
  rd : Bool
  wdata : Word
deriving DecidableEq, Repr

/-- One thing the host does (10_state.md R20, 30_encoding.md R120). -/
inductive HostOp where
  /-- It drives the ports, and holds them until the request completes. -/
  | cycle (p : Port)
  /-- It reads STATUS until BUSY reads 0 (R120). -/
  | poll
deriving DecidableEq, Repr

/-- The state. The fields down to `cp` are the spec's (R21, R36, R40); those after it are the model's own. -/
structure State where
  /-- ALG: the selected algorithm (R23). -/
  alg : Alg
  /-- HM: the selected mode (R23). -/
  mode : Mode
  /-- CTX0: the plain digest, or HMAC's inner digest (R29). -/
  ctx0 : Ctx
  /-- CTX1: HMAC's outer digest (R30). -/
  ctx1 : Ctx
  /-- HST: the HMAC lifecycle (R31). -/
  hst : Lifecycle
  /-- KB: the key buffer (R32). -/
  kb : Vector Byte 64
  /-- KLEN: the key bytes loaded since the last KEYCLR or INIT (R32). -/
  klen : Nat
  /-- K0: the normalised key (R34). -/
  k0 : Vector Byte 64
  /-- ERR: the first error since the last CLRERR or hardware reset (R35). -/
  err : ErrCode
  /-- DIN: the data staging register (R36). -/
  din : Word
  /-- BUSY: a command is accepted and not yet complete (R37). -/
  busy : Bool
  /-- The command word latched at acceptance (20_memory.md R74, 10_state.md R40). -/
  cmdWord : Word
  /-- The DIN value latched with it (10_state.md R36, 20_memory.md R74). -/
  cmdData : Word
  /-- cp: the number of command words accepted since reset (R22). It has no width limit. -/
  cp : Nat
  /-- MODEL'S OWN: bus cycles left of the command's BUSY window (LAT, 70_reset_and_hazards.md R385). -/
  latLeft : Nat
  /-- MODEL'S OWN: how many free values have been drawn (Config.lean). -/
  draws : Nat
  /-- MODEL'S OWN: what the host will still do, in issue order (20_memory.md R80). It is the input. -/
  todo : List HostOp
  /-- MODEL'S OWN: the values the host's reads have returned, oldest first. It is the output. -/
  got : List Word
deriving DecidableEq, Repr

/-- Why a step stops with a fault: never. The bus signals no error (20_memory.md R75) and SHC has no traps
(60_exceptions.md R337): a rejected command is a next state with its code in ERR (R336). So the type has no
constructor. -/
inductive Fault where
deriving DecidableEq, Repr

/-- Why a step is refused. -/
inductive Refusal where
  /-- Raised by an arm of `exec` for a command without a meaning (none is left). Safe: the model stops. -/
  | notModelled (mnemonic : String)
deriving DecidableEq, Repr

/-- A HashState of zeros (10_state.md R50). -/
def HashState.zero : HashState := ⟨0, 0, 0, 0, 0, 0, 0, 0⟩

/-- A context as constructed: Idle, PLEN = 0, TLEN = 0, H = 0 (10_state.md R50, 40_accumulator.md R144). -/
def Ctx.idle : Ctx := { st := .idle, buf := [], tlen := 0, h := HashState.zero }

/-- A 64-byte array of zeros (10_state.md R50). -/
def zeroKey : Vector Byte 64 := Vector.replicate 64 0

/-- The state after hardware reset (10_state.md R50, 70_reset_and_hazards.md R370). The latch, the BUSY countdown,
the draw counter and the host side have no row in R50: their values are assumptions 4, 2, 3 and 1. -/
def State.reset : State where
  alg := .sha1
  mode := .plain
  ctx0 := Ctx.idle
  ctx1 := Ctx.idle
  hst := .idle
  kb := zeroKey
  klen := 0
  k0 := zeroKey
  err := .none
  din := 0
  busy := false
  cmdWord := 0
  cmdData := 0
  cp := 0
  latLeft := 0
  draws := 0
  todo := []
  got := []

end Sys2Proof.Machine
end

