-- ==== Sys2Proof/Machine/Sha1.lean ====
section
/-! DEFINITION. The SHA-1 compression engine (41_sha1_engine.md), with the schedule builder and the boolean
functions that both engines share. -/

namespace Sys2Proof.Machine

/-- `Ch`, rounds 0..19 (R206); also SHA-256's (42_sha256_engine.md R244). -/
def ch (x y z : Word) : Word := (x &&& y) ^^^ (~~~x &&& z)

/-- `Parity`, rounds 20..39 and 60..79 (R206). -/
def parity (x y z : Word) : Word := x ^^^ y ^^^ z

/-- `Maj`, rounds 40..59 (R206); also SHA-256's (42_sha256_engine.md R244). -/
def maj (x y z : Word) : Word := (x &&& y) ^^^ (x &&& z) ^^^ (y &&& z)

/-- A schedule grown by `n` words, each computed from the words before it. -/
def growSchedule (nextWord : List Word → Word) : Nat → List Word → List Word
  | 0, w => w
  | n + 1, w => growSchedule nextWord n (w ++ [nextWord w])

/-- `IV(0)`; the three words that SHA-1 does not use are 0 (R201). -/
def iv1 : HashState :=
  ⟨0x67452301, 0xEFCDAB89, 0x98BADCFE, 0x10325476, 0xC3D2E1F0, 0, 0, 0⟩

/-- The round constants K(t) (R202). -/
def k1 (t : Nat) : Word :=
  if t ≤ 19 then 0x5A827999
  else if t ≤ 39 then 0x6ED9EBA1
  else if t ≤ 59 then 0x8F1BBCDC
  else 0xCA62C1D6

/-- The round's boolean function f(t, x, y, z) (R206). -/
def f1 (t : Nat) (x y z : Word) : Word :=
  if t ≤ 19 then ch x y z
  else if t ≤ 39 then parity x y z
  else if t ≤ 59 then maj x y z
  else parity x y z

/-- `W[t]` for t ≥ 16, from the words `W[0..t)` (R205). -/
def nextWord1 (w : List Word) : Word :=
  let t := w.length
  rotl 1 (w.getD (t - 3) 0 ^^^ w.getD (t - 8) 0 ^^^ w.getD (t - 14) 0 ^^^ w.getD (t - 16) 0)

/-- The 80 words of the message schedule (R203-R205). -/
def schedule1 (block : List Byte) : List Word := growSchedule nextWord1 64 (blockWords block)

/-- The working variables a..e (10_state.md R38, R207). -/
structure Work5 where
  a : Word
  b : Word
  c : Word
  d : Word
  e : Word
deriving DecidableEq, Repr

/-- One round: the state rotation of R207. -/
def round1 (t : Nat) (w : Word) (v : Work5) : Work5 :=
  { a := rotl 5 v.a + f1 t v.b v.c v.d + v.e + k1 t + w
    b := v.a
    c := rotl 30 v.b
    d := v.c
    e := v.d }

/-- The rounds from number `t` on, one for each schedule word. -/
def rounds1 : Nat → List Word → Work5 → Work5
  | _, [], v => v
  | t, w :: ws, v => rounds1 (t + 1) ws (round1 t w v)

/-- `compress(0, H, B)`: the rounds, and the add-back modulo 2^32; `H[5..7]` are kept (R208, R209). -/
def compress1 (h : HashState) (block : List Byte) : HashState :=
  let v := rounds1 0 (schedule1 block) ⟨h.h0, h.h1, h.h2, h.h3, h.h4⟩
  { h with
    h0 := h.h0 + v.a
    h1 := h.h1 + v.b
    h2 := h.h2 + v.c
    h3 := h.h3 + v.d
    h4 := h.h4 + v.e }

/-- The 16-word window of R211: `W[t]` is in slot t mod 16, and round t ≥ 16 overwrites `W[t-16]`. -/
def windowStep1 (t : Nat) (slots : List Word) : List Word :=
  slots.set (t % 16)
    (rotl 1 (slots.getD ((t - 3) % 16) 0 ^^^ slots.getD ((t - 8) % 16) 0
      ^^^ slots.getD ((t - 14) % 16) 0 ^^^ slots.getD (t % 16) 0))

/-- The window once it holds `W[t]`: rounds 0..15 read the loaded words, and each later round replaces one. -/
def windowAt (stepAt : Nat → List Word → List Word) (loaded : List Word) : Nat → List Word
  | 0 => loaded
  | t + 1 => if t + 1 < 16 then loaded else stepAt (t + 1) (windowAt stepAt loaded t)

end Sys2Proof.Machine
end

