-- ==== Sys2Proof/Machine/Sha256.lean ====
section
/-! DEFINITION. The SHA-256/SHA-224 compression engine (42_sha256_engine.md). Its `Ch`, its `Maj` and its schedule
builder are the SHA-1 engine's (R244, R246). -/

namespace Sys2Proof.Machine

/-- `IV(1)`, SHA-256 (R241). -/
def iv256 : HashState :=
  ⟨0x6A09E667, 0xBB67AE85, 0x3C6EF372, 0xA54FF53A, 0x510E527F, 0x9B05688C, 0x1F83D9AB, 0x5BE0CD19⟩

/-- `IV(2)`, SHA-224 (R242). -/
def iv224 : HashState :=
  ⟨0xC1059ED8, 0x367CD507, 0x3070DD17, 0xF70E5939, 0xFFC00B31, 0x68581511, 0x64F98FA7, 0xBEFA4FA4⟩

/-- `K256[0..7]` (R243). -/
def k256Row0 : List Word :=
  [0x428A2F98, 0x71374491, 0xB5C0FBCF, 0xE9B5DBA5,
   0x3956C25B, 0x59F111F1, 0x923F82A4, 0xAB1C5ED5]

/-- `K256[8..15]` (R243). -/
def k256Row8 : List Word :=
  [0xD807AA98, 0x12835B01, 0x243185BE, 0x550C7DC3,
   0x72BE5D74, 0x80DEB1FE, 0x9BDC06A7, 0xC19BF174]

/-- `K256[16..23]` (R243). -/
def k256Row16 : List Word :=
  [0xE49B69C1, 0xEFBE4786, 0x0FC19DC6, 0x240CA1CC,
   0x2DE92C6F, 0x4A7484AA, 0x5CB0A9DC, 0x76F988DA]

/-- `K256[24..31]` (R243). -/
def k256Row24 : List Word :=
  [0x983E5152, 0xA831C66D, 0xB00327C8, 0xBF597FC7,
   0xC6E00BF3, 0xD5A79147, 0x06CA6351, 0x14292967]

/-- `K256[32..39]` (R243). -/
def k256Row32 : List Word :=
  [0x27B70A85, 0x2E1B2138, 0x4D2C6DFC, 0x53380D13,
   0x650A7354, 0x766A0ABB, 0x81C2C92E, 0x92722C85]

/-- `K256[40..47]` (R243). -/
def k256Row40 : List Word :=
  [0xA2BFE8A1, 0xA81A664B, 0xC24B8B70, 0xC76C51A3,
   0xD192E819, 0xD6990624, 0xF40E3585, 0x106AA070]

/-- `K256[48..55]` (R243). -/
def k256Row48 : List Word :=
  [0x19A4C116, 0x1E376C08, 0x2748774C, 0x34B0BCB5,
   0x391C0CB3, 0x4ED8AA4A, 0x5B9CCA4F, 0x682E6FF3]

/-- `K256[56..63]` (R243). -/
def k256Row56 : List Word :=
  [0x748F82EE, 0x78A5636F, 0x84C87814, 0x8CC70208,
   0x90BEFFFA, 0xA4506CEB, 0xBEF9A3F7, 0xC67178F2]

/-- The round constants `K256[0..63]` (R243). -/
def k256Table : List Word :=
  k256Row0 ++ k256Row8 ++ k256Row16 ++ k256Row24
    ++ k256Row32 ++ k256Row40 ++ k256Row48 ++ k256Row56

/-- `K256[t]` (R243). -/
def k256 (t : Nat) : Word := k256Table.getD t 0

/-- `Sigma0`, on a (R245). -/
def bigSigma0 (x : Word) : Word := rotr 2 x ^^^ rotr 13 x ^^^ rotr 22 x

/-- `Sigma1`, on e (R245). -/
def bigSigma1 (x : Word) : Word := rotr 6 x ^^^ rotr 11 x ^^^ rotr 25 x

/-- `gamma0`, ending in a logical shift (R245). -/
def gamma0 (x : Word) : Word := rotr 7 x ^^^ rotr 18 x ^^^ shr 3 x

/-- `gamma1`, ending in a logical shift (R245). -/
def gamma1 (x : Word) : Word := rotr 17 x ^^^ rotr 19 x ^^^ shr 10 x

/-- `W[t]` for t ≥ 16, from the words `W[0..t)` (R247). -/
def nextWord256 (w : List Word) : Word :=
  let t := w.length
  gamma1 (w.getD (t - 2) 0) + w.getD (t - 7) 0 + gamma0 (w.getD (t - 15) 0) + w.getD (t - 16) 0

/-- The 64 words of the message schedule (R246, R247). -/
def schedule256 (block : List Byte) : List Word := growSchedule nextWord256 48 (blockWords block)

/-- The working variables a..h (10_state.md R38, R248). -/
structure Work8 where
  a : Word
  b : Word
  c : Word
  d : Word
  e : Word
  f : Word
  g : Word
  h : Word
deriving DecidableEq, Repr

/-- One round: the state rotation of R248. -/
def round256 (t : Nat) (w : Word) (v : Work8) : Work8 :=
  let t1 := v.h + bigSigma1 v.e + ch v.e v.f v.g + k256 t + w
  let t2 := bigSigma0 v.a + maj v.a v.b v.c
  { a := t1 + t2
    b := v.a
    c := v.b
    d := v.c
    e := v.d + t1
    f := v.e
    g := v.f
    h := v.g }

/-- The rounds from number `t` on, one for each schedule word. -/
def rounds256 : Nat → List Word → Work8 → Work8
  | _, [], v => v
  | t, w :: ws, v => rounds256 (t + 1) ws (round256 t w v)

/-- `compress(1, H, B)` and `compress(2, H, B)`: the rounds, and the add-back modulo 2^32 (R249). -/
def compress256 (h : HashState) (block : List Byte) : HashState :=
  let v := rounds256 0 (schedule256 block) ⟨h.h0, h.h1, h.h2, h.h3, h.h4, h.h5, h.h6, h.h7⟩
  { h0 := h.h0 + v.a
    h1 := h.h1 + v.b
    h2 := h.h2 + v.c
    h3 := h.h3 + v.d
    h4 := h.h4 + v.e
    h5 := h.h5 + v.f
    h6 := h.h6 + v.g
    h7 := h.h7 + v.h }

/-- The 16-word window of R247 (as 41_sha1_engine.md R211). -/
def windowStep256 (t : Nat) (slots : List Word) : List Word :=
  slots.set (t % 16)
    (gamma1 (slots.getD ((t - 2) % 16) 0) + slots.getD ((t - 7) % 16) 0
      + gamma0 (slots.getD ((t - 15) % 16) 0) + slots.getD (t % 16) 0)

end Sys2Proof.Machine
end

