-- ==== Sys2Proof/Machine/Engine.lean ====
section
/-! DEFINITION. The engine interface that the accumulator drives (40_accumulator.md R140-R142): `IV`, `compress` and
`extract`, dispatched on ALG. The functions are pure (R141). -/

namespace Sys2Proof.Machine

/-- `IV(alg)` (R142). -/
def iv : Alg → HashState
  | .sha1 => iv1
  | .sha256 => iv256
  | .sha224 => iv224

/-- `compress(alg, H, B)` (R142). SHA-224 has SHA-256's round logic. -/
def compress : Alg → HashState → List Byte → HashState
  | .sha1 => compress1
  | .sha256 => compress256
  | .sha224 => compress256

/-- The eight words of a HashState in order. -/
def HashState.words (h : HashState) : List Word :=
  [h.h0, h.h1, h.h2, h.h3, h.h4, h.h5, h.h6, h.h7]

/-- The words of H that are the digest: the first DS/4 (41_sha1_engine.md R210, 42_sha256_engine.md R250). -/
def digestWords (alg : Alg) (h : HashState) : List Word := h.words.take (digestSize alg / 4)

/-- `extract(alg, H)`: the digest bytes, DS of them (41_sha1_engine.md R210, 42_sha256_engine.md R250). -/
def extract (alg : Alg) (h : HashState) : List Byte := (digestWords alg h).flatMap bytes32

end Sys2Proof.Machine
end

