-- ==== Sys2Proof/Machine/Context.lean ====
section
/-! DEFINITION. The context functions and the padding controller (40_accumulator.md section 2), and the closed forms
they are held against: `Hash` (R161), `normkey` and `HMAC` (43_hmac.md R280, R282). -/

namespace Sys2Proof.Machine

/-- `ctx_clear(C)`: the context as constructed (R144). -/
def ctxClear : Ctx := Ctx.idle

/-- `ctx_reset(C)` (R145). -/
def ctxReset (alg : Alg) (c : Ctx) : Ctx :=
  { c with st := .accumulating, buf := [], tlen := 0, h := iv alg }

/-- `absorb(C, b)`: a buffer that becomes full is compressed at once (R146). -/
def absorb (alg : Alg) (c : Ctx) (b : Byte) : Ctx :=
  let full := c.buf ++ [b]
  if full.length = blockSize then
    { c with buf := [], tlen := c.tlen + 1, h := compress alg c.h full }
  else
    { c with buf := full, tlen := c.tlen + 1 }

/-- A byte sequence is absorbed one byte at a time, in order (R146). -/
def absorbAll (alg : Alg) (c : Ctx) (bytes : List Byte) : Ctx := bytes.foldl (absorb alg) c

/-- k = (55 - n) mod 64, the number of zero bytes of the padding after n bytes (R147, R148). -/
def zeroCount (n : Nat) : Nat := (119 - n % 64) % 64

/-- `bytes ‖ [0x80] ‖ 0^k ‖ bytes64(8 · total)`: what remains to be compressed of a message of `total` bytes whose
last bytes, not yet compressed, are `bytes` (R147, R161). -/
def padded (bytes : List Byte) (total : Nat) : List Byte :=
  bytes ++ [0x80] ++ List.replicate (zeroCount bytes.length) 0 ++ bytes64 (BitVec.ofNat 64 (8 * total))

/-- `n` blocks of 64 bytes, compressed in order (R147, R161). -/
def compressBlocks (alg : Alg) : Nat → HashState → List Byte → HashState
  | 0, h, _ => h
  | n + 1, h, bytes =>
    compressBlocks alg n (compress alg h (bytes.take blockSize)) (bytes.drop blockSize)

/-- `ctx_finalize(C)`, the padding controller (R147). -/
def ctxFinalize (alg : Alg) (c : Ctx) : Ctx :=
  let t := padded c.buf c.tlen
  { c with st := .finalized, buf := [], h := compressBlocks alg (t.length / blockSize) c.h t }

/-- The closed form `Hash(alg, M)` (R161). -/
def hash (alg : Alg) (m : List Byte) : List Byte :=
  let t := padded m m.length
  extract alg (compressBlocks alg (t.length / blockSize) (iv alg) t)

/-- A byte sequence followed by zeros, as a 64-byte array (43_hmac.md R282). -/
def padKey (bytes : List Byte) : Vector Byte 64 :=
  ⟨((bytes ++ List.replicate 64 0).take 64).toArray, by simp⟩

/-- `normkey(alg, key)` (43_hmac.md R282). -/
def normkey (alg : Alg) (key : List Byte) : Vector Byte 64 :=
  if key.length ≤ blockSize then padKey key else padKey (hash alg key)

/-- A key XORed byte by byte with a repeated pad byte (43_hmac.md R283). -/
def xorPad (k : Vector Byte 64) (pad : Byte) : List Byte := k.toList.map (· ^^^ pad)

/-- The closed form `HMAC(alg, key, m)` (43_hmac.md R280). -/
def hmac (alg : Alg) (key m : List Byte) : List Byte :=
  let k := normkey alg key
  hash alg (xorPad k opadByte ++ hash alg (xorPad k ipadByte ++ m))

end Sys2Proof.Machine
end

