-- ==== Sys2Proof/Machine/Ops.lean ====
section
/-! DEFINITION. The named operations over the state that the commands and the bus share. Each is one record update,
so that Laws/State.lean can say once which fields it leaves alone. -/

namespace Sys2Proof.Machine

/-- A command's answer that takes no exception and stops nothing: the next state. -/
abbrev Result := Host.Outcome State Fault Refusal

/-- Taking an exception: `reject(code)` (60_exceptions.md R336). SHC has no trap entry (R337): the first error is
kept in ERR, nothing else changes, and the next command executes normally. -/
def State.reject (s : State) (code : ErrCode) : State :=
  { s with err := if s.err = .none then code else s.err }

/-- The return from an exception: CLRERR is all there is (60_exceptions.md R338). -/
def State.clearErr (s : State) : State := { s with err := .none }

/-- Acceptance of a command word: it is latched with the current DIN, BUSY becomes 1 and cp advances
(20_memory.md R74, 10_state.md R22, R36, R37). `lat` more bus cycles pass before the command completes. -/
def State.accept (s : State) (w : Word) (lat : Nat) : State :=
  { s with cmdWord := w, cmdData := s.din, busy := true, cp := s.cp + 1, latLeft := lat }

/-- Completion of a command: BUSY becomes 0 (20_memory.md R74). -/
def State.release (s : State) : State := { s with busy := false }

/-- A bus cycle of the BUSY window passes (70_reset_and_hazards.md R385). -/
def State.tick (s : State) : State := { s with latLeft := s.latLeft - 1 }

/-- A host write of DIN (10_state.md R36). -/
def State.writeDin (s : State) (v : Word) : State := { s with din := v }

/-- A host read returns `v` (20_memory.md R72). -/
def State.receive (s : State) (v : Word) : State := { s with got := s.got ++ [v] }

/-- One free value has been used. -/
def State.drawn (s : State) : State := { s with draws := s.draws + 1 }

/-- The host goes on to what it does next. -/
def State.advance (s : State) (rest : List HostOp) : State := { s with todo := rest }

/-- Hardware reset: every piece of the spec's state takes its reset value, and a command in progress is abandoned
(70_reset_and_hazards.md R370). The host side and the draw counter are not SHC's state. -/
def State.hardReset (s : State) : State :=
  { State.reset with draws := s.draws, todo := s.todo, got := s.got }

/-- A fresh instance: both contexts cleared, HST Idle, and the key state zero (40_accumulator.md R150,
43_hmac.md R284). -/
def State.fresh (s : State) : State :=
  { s with ctx0 := ctxClear, ctx1 := ctxClear, hst := .idle, kb := zeroKey, klen := 0, k0 := zeroKey }

/-- ALG and HM take the values that INIT selects (40_accumulator.md R150). -/
def State.select (s : State) (alg : Alg) (mode : Mode) : State := { s with alg := alg, mode := mode }

/-- CTX0 is replaced. -/
def State.withCtx0 (s : State) (c : Ctx) : State := { s with ctx0 := c }

end Sys2Proof.Machine
end

