-- ==== Sys2Proof/Machine/Operands.lean ====
section
/-! DEFINITION. The one operand form that is not in the command word: the data bytes of ADD and KEY
(30_encoding.md R104). ALG, HM and CNT are read from the word by the decoder, unsigned and unscaled (R106). -/

namespace Sys2Proof.Machine

/-- `data(d, CNT)`: the first CNT bytes of the DIN value `d`, most significant first (R104). -/
def data (d : Word) (cnt : Nat) : List Byte := (bytes32 d).take cnt

/-- The bytes that the command in execution carries: they come from the DIN value latched at its acceptance, not
from what DIN holds now (10_state.md R36). -/
def operandBytes (s : State) (cnt : Nat) : List Byte := data s.cmdData cnt

end Sys2Proof.Machine
end

