-- ==== Sys2Proof/Machine/Hmac.lean ====
section
/-! DEFINITION. The HMAC controller (43_hmac.md): KEYCLR and KEY, and the HMAC forms of RESET, ADD and FINISH. Each
command makes its state check (ESEQ) before its length check (ELEN) (60_exceptions.md R334). -/

namespace Sys2Proof.Machine

/-- KEYCLR: the key and any HMAC computation are discarded; ESEQ in plain mode (R284). -/
def execKeyclr (s : State) : Result :=
  match s.mode with
  | .plain => .next (s.reject .eseq)
  | .hmac => .next s.fresh

/-- `key_absorb(b)`: the first 64 key bytes wait in KB; the 65th starts the hashing of the key in CTX0 (R285). -/
def keyAbsorb (s : State) (b : Byte) : State :=
  if s.klen < blockSize then
    { s with kb := s.kb.setIfInBounds s.klen b, klen := s.klen + 1 }
  else if s.klen = blockSize then
    { s with
      ctx0 := absorb s.alg (absorbAll s.alg (ctxReset s.alg s.ctx0) s.kb.toList) b
      klen := s.klen + 1 }
  else
    { s with ctx0 := absorb s.alg s.ctx0 b, klen := s.klen + 1 }

/-- KEY's bytes, one at a time and in order (R286). -/
def keyAbsorbAll (s : State) (bytes : List Byte) : State := bytes.foldl keyAbsorb s

/-- KEY n: append key bytes; ESEQ in plain mode or once a key is normalised, ELEN past LMAX (R286). -/
def execKey (cnt : Nat) (s : State) : Result :=
  let bytes := operandBytes s cnt
  match s.mode with
  | .plain => .next (s.reject .eseq)
  | .hmac =>
    if s.hst ≠ .idle then .next (s.reject .eseq)
    else if s.klen + bytes.length > lmax then .next (s.reject .elen)
    else .next (keyAbsorbAll s bytes)

/-- `normalise()`: K0 from the loaded key; KB is left as it is (R288). -/
def normalise (s : State) : State :=
  if s.klen ≤ blockSize then { s with k0 := s.kb }
  else
    let c := ctxFinalize s.alg s.ctx0
    { s with ctx0 := c, k0 := padKey (extract s.alg c.h) }

/-- `rekey()`: a keyed computation starts from K0; the outer context is Idle (R289). -/
def rekey (s : State) : State :=
  { s with
    ctx0 := absorbAll s.alg (ctxReset s.alg s.ctx0) (xorPad s.k0 ipadByte)
    ctx1 := ctxClear
    hst := .accumulating }

/-- HMAC_RESET: normalise once, then (re-)key (R290). -/
def hmacReset (s : State) : Result :=
  .next (rekey (if s.hst = .idle then normalise s else s))

/-- HMAC_ADD: ESEQ before a key is set; from Finalized it re-keys first; the bytes go to the inner digest (R292). -/
def hmacAdd (bytes : List Byte) (s : State) : Result :=
  if s.hst = .idle then .next (s.reject .eseq)
  else if (if s.hst = .accumulating then s.ctx0.tlen else 64) + bytes.length > lmax then
    .next (s.reject .elen)
  else
    let t := if s.hst = .finalized then rekey s else s
    .next (t.withCtx0 (absorbAll t.alg t.ctx0 bytes))

/-- The outer digest of HMAC_FINISH: reset, fed the outer pad and the inner digest, finalized (R294). -/
def outerDigest (alg : Alg) (k0 : Vector Byte 64) (outer : Ctx) (inner : List Byte) : Ctx :=
  ctxFinalize alg (absorbAll alg (absorbAll alg (ctxReset alg outer) (xorPad k0 opadByte)) inner)

/-- HMAC_FINISH: ESEQ before a key is set; nothing to do when Finalized (R294). -/
def hmacFinish (s : State) : Result :=
  match s.hst with
  | .idle => .next (s.reject .eseq)
  | .finalized => .next s
  | .accumulating =>
    let inner := ctxFinalize s.alg s.ctx0
    .next
      { s with
        ctx0 := inner
        ctx1 := outerDigest s.alg s.k0 s.ctx1 (extract s.alg inner.h)
        hst := .finalized }

end Sys2Proof.Machine
end

