-- ==== Sys2Proof/Machine/Accumulator.lean ====
section
/-! DEFINITION. The lifecycle commands RESET, ADD and FINISH (40_accumulator.md section 4): their plain forms, and the
choice between these and the HMAC forms of Machine/Hmac.lean. -/

namespace Sys2Proof.Machine

/-- RESET: plain, ctx_reset(CTX0), which never fails (R152); HMAC, R290. -/
def execReset (s : State) : Result :=
  match s.mode with
  | .plain => .next (s.withCtx0 (ctxReset s.alg s.ctx0))
  | .hmac => hmacReset s

/-- The plain ADD: a context that is not Accumulating is reset first, ELEN past LMAX (R154). -/
def plainAdd (bytes : List Byte) (s : State) : Result :=
  if (if s.ctx0.st = .accumulating then s.ctx0.tlen else 0) + bytes.length > lmax then
    .next (s.reject .elen)
  else
    let c := if s.ctx0.st = .accumulating then s.ctx0 else ctxReset s.alg s.ctx0
    .next (s.withCtx0 (absorbAll s.alg c bytes))

/-- ADD n (R154; HMAC, R292). -/
def execAdd (cnt : Nat) (s : State) : Result :=
  match s.mode with
  | .plain => plainAdd (operandBytes s cnt) s
  | .hmac => hmacAdd (operandBytes s cnt) s

/-- The plain FINISH: nothing to do when Finalized; an Idle context is reset first (R156). -/
def plainFinish (s : State) : Result :=
  match s.ctx0.st with
  | .finalized => .next s
  | .idle => .next (s.withCtx0 (ctxFinalize s.alg (ctxReset s.alg s.ctx0)))
  | .accumulating => .next (s.withCtx0 (ctxFinalize s.alg s.ctx0))

/-- FINISH (R156; HMAC, R294). -/
def execFinish (s : State) : Result :=
  match s.mode with
  | .plain => plainFinish s
  | .hmac => hmacFinish s

end Sys2Proof.Machine
end

