-- ==== Sys2Proof/Machine/Control.lean ====
section
/-! DEFINITION. The control commands NOP, INIT and CLRERR (40_accumulator.md section 3). BUSY and cp are the bus's
to move (20_memory.md R74), not theirs. -/

namespace Sys2Proof.Machine

/-- NOP: no state change (R149). -/
def execNop (s : State) : Result := .next s

/-- INIT alg, hm: a fresh instance of the selected type; ERR and DIN are kept (R150). -/
def execInit (alg : Alg) (mode : Mode) (s : State) : Result := .next (s.select alg mode).fresh

/-- CLRERR: ERR becomes 0 (R151). -/
def execClrerr (s : State) : Result := .next s.clearErr

end Sys2Proof.Machine
end

