-- ==== Sys2Proof/Machine/Dispatch.lean ====
section
/-! DEFINITION. The dispatch of 30_encoding.md R110: one arm for each command. -/

namespace Sys2Proof.Machine

def exec (i : Instr) (s : State) : Host.Outcome State Fault Refusal :=
  match i with
  | .nop => Sys2Proof.Machine.execNop s
  | .init alg mode => Sys2Proof.Machine.execInit alg mode s
  | .reset => Sys2Proof.Machine.execReset s
  | .add cnt => Sys2Proof.Machine.execAdd cnt s
  | .finish => Sys2Proof.Machine.execFinish s
  | .keyclr => Sys2Proof.Machine.execKeyclr s
  | .key cnt => Sys2Proof.Machine.execKey cnt s
  | .clrerr => Sys2Proof.Machine.execClrerr s

end Sys2Proof.Machine
end

