-- ==== Sys2Proof/Config.lean ====
section
/-! DEFINITION. What the spec leaves open: the free values. They have no body, so nothing in Lean can
evaluate one or prove what it is; every theorem about the machine holds whatever they are.

The fixed parameters of 00_scope.md rule R6 (BlockSize, LMAX, DigestSize, the ID value) are in
Machine/Params.lean. -/

namespace Sys2Proof

/-- FREE VALUE (70_reset_and_hazards.md R385, R387, 92 D22, 93 U4, U15; assumption 2). The open parameter LAT: how many
further bus cycles the command word `w`, accepted in the state `s`, stays in its BUSY window. `s` holds the latched
data (DIN), the key, the contexts and the draw counter, so LAT may depend on the command and on all of these, and is
drawn afresh at each acceptance. A natural number, so always finite; nothing else is known of it. -/
opaque Config.latency (s : Machine.State) (w : Word) : Nat

/-- FREE VALUE (70_reset_and_hazards.md R380, 92 D23, 93 U2; assumption 3). What a read of a masked register
returns while BUSY = 1, drawn afresh for each read. -/
opaque Config.busyRead : Nat → Word

end Sys2Proof
end

