-- ==== Sys2Proof/WellFormed.lean ====
section
/-! DEFINITION. Which command terms are commands: those with a legal word (30_encoding.md R103, R104). The type
`Alg` already leaves out ALG = 3, so the byte count is what remains to be checked. -/

namespace Sys2Proof

/-- CNT is the byte count of a format D command: 0..4 are legal, 5..7 are illegal (30_encoding.md R104). -/
def legalCount (cnt : Nat) : Bool := decide (cnt ≤ 4)

/-- A command term is well formed when its operands have an encoding (30_encoding.md R102-R104). -/
def Instr.wellFormed : Instr → Bool
  | .nop => true
  | .init _ _ => true
  | .reset => true
  | .add cnt => legalCount cnt
  | .finish => true
  | .keyclr => true
  | .key cnt => legalCount cnt
  | .clrerr => true

end Sys2Proof
end

