-- ==== Sys2Proof/Decode.lean ====
section
/-! DEFINITION. The decoder and the encoder of command words (30_encoding.md R100-R114).

Every command is exactly one 32-bit word (R100). Decoding is total (R113): a word is one legal command or is
illegal for one of the four reasons of 60_exceptions.md R331, which the decoder answers by name. No mode changes
how a word decodes (R114), so the decoder takes the word alone. -/

namespace Sys2Proof

/-- The four cases of an illegal word (60_exceptions.md R331). Each raises EILL when the word is executed. -/
inductive DecodeError where
  /-- A reserved opcode, 0x08-0xFF. -/
  | reservedOpcode
  /-- A reserved operand bit is set. -/
  | reservedBits
  /-- INIT with ALG = 3. -/
  | reservedAlg
  /-- ADD or KEY with CNT above 4. -/
  | countTooLarge
deriving DecidableEq, Repr

/-- OP = w[31:24] (R101). -/
def opField (w : Word) : BitVec 8 := w.extractLsb' 24 8

/-- OPND = w[23:0] (R101). -/
def opndField (w : Word) : BitVec 24 := w.extractLsb' 0 24

/-- ALG = w[1:0] (R103). -/
def algField (w : Word) : BitVec 2 := w.extractLsb' 0 2

/-- HM = w[4] (R103). -/
def hmField (w : Word) : Bool := w.getLsbD 4

/-- CNT = w[2:0] (R104). -/
def cntField (w : Word) : BitVec 3 := w.extractLsb' 0 3

/-- The code of an algorithm in ALG (10_state.md R23). -/
def Alg.code : Alg → BitVec 2
  | .sha1 => 0
  | .sha256 => 1
  | .sha224 => 2

/-- The algorithm that a code of ALG names; 3 names none (30_encoding.md R103). -/
def Alg.ofCode (c : BitVec 2) : Option Alg :=
  if c = 0 then some .sha1
  else if c = 1 then some .sha256
  else if c = 2 then some .sha224
  else none

/-- The bit of a mode in HM (10_state.md R23). -/
def Mode.bit : Mode → Bool
  | .plain => false
  | .hmac => true

/-- The mode that a bit of HM names (10_state.md R23). -/
def Mode.ofBit (b : Bool) : Mode := if b then .hmac else .plain

/-- Format Z: every operand bit is reserved and must be 0 (R102). -/
def decodeZ (i : Instr) (w : Word) : Except DecodeError Instr :=
  if opndField w = 0 then .ok i else .error .reservedBits

/-- Format I (R102, R103): only bits 4, 1 and 0 of the operand field are in use, and ALG is not 3. -/
def decodeI (w : Word) : Except DecodeError Instr :=
  if opndField w &&& ~~~(0x000013 : BitVec 24) ≠ 0 then .error .reservedBits
  else
    match Alg.ofCode (algField w) with
    | none => .error .reservedAlg
    | some alg => .ok (.init alg (Mode.ofBit (hmField w)))

/-- Format D (R102, R104): only bits 2..0 of the operand field are in use, and CNT is at most 4. -/
def decodeD (mk : Nat → Instr) (w : Word) : Except DecodeError Instr :=
  if opndField w &&& ~~~(0x000007 : BitVec 24) ≠ 0 then .error .reservedBits
  else if cntField w > 4 then .error .countTooLarge
  else .ok (mk (cntField w).toNat)

/-- The decoder: the command that a word is, or why it is illegal (R105, R110, R111). -/
def decode (w : Word) : Except DecodeError Instr :=
  if opField w = 0x00 then decodeZ .nop w
  else if opField w = 0x01 then decodeI w
  else if opField w = 0x02 then decodeZ .reset w
  else if opField w = 0x03 then decodeD .add w
  else if opField w = 0x04 then decodeZ .finish w
  else if opField w = 0x05 then decodeZ .keyclr w
  else if opField w = 0x06 then decodeD .key w
  else if opField w = 0x07 then decodeZ .clrerr w
  else .error .reservedOpcode

/-- The spec's own predicate of R111, written as it stands there, beside the decoder that works format by
format. -/
def illegal (w : Word) : Bool :=
  let op := opField w
  let opnd := opndField w
  decide (op ≥ 0x08)
    || ((op = 0x00 || op = 0x02 || op = 0x04 || op = 0x05 || op = 0x07) && opnd ≠ 0)
    || (op = 0x01 && ((opnd &&& ~~~(0x000013 : BitVec 24)) ≠ 0 || algField w = 3))
    || ((op = 0x03 || op = 0x06) && ((opnd &&& ~~~(0x000007 : BitVec 24)) ≠ 0 || decide (cntField w > 4)))

/-- The opcode of a command (R105). -/
def Instr.opcode : Instr → BitVec 8
  | .nop => 0x00
  | .init _ _ => 0x01
  | .reset => 0x02
  | .add _ => 0x03
  | .finish => 0x04
  | .keyclr => 0x05
  | .key _ => 0x06
  | .clrerr => 0x07

/-- The operand field of a command (R102-R104). -/
def Instr.operand : Instr → BitVec 24
  | .nop => 0
  | .init alg mode => (alg.code).setWidth 24 ||| (if mode.bit then 0x000010 else 0)
  | .reset => 0
  | .add cnt => BitVec.ofNat 24 cnt
  | .finish => 0
  | .keyclr => 0
  | .key cnt => BitVec.ofNat 24 cnt
  | .clrerr => 0

/-- The encoder: the one word of a command, OP above OPND (R100, R101). -/
def encode (i : Instr) : Word := i.opcode ++ i.operand

/-- The row of the opcode table that a word of `nbits` bits is: the decoder's answer on that word. A command is
one 32-bit word (R100), so a wider value is no command. -/
def decodeTableWord (nbits w : Nat) : Option Instr :=
  let v := w % 2 ^ nbits
  if v < 2 ^ 32 then (decode (BitVec.ofNat 32 v)).toOption else none

end Sys2Proof
end

