-- ==== Sys2Proof/Machine/Flags.lean ====
section
/-! DEFINITION. The flags of SHC, which are the fields of STATUS (10_state.md R41, R49). SHC has no condition codes:
each flag is read off the state, and no command reads one. -/

namespace Sys2Proof.Machine

/-- Idle = 0, Accumulating = 1, Finalized = 2 (10_state.md R25, R31). -/
def Lifecycle.code : Lifecycle → BitVec 2
  | .idle => 0
  | .accumulating => 1
  | .finalized => 2

/-- The error codes (60_exceptions.md R330). -/
def ErrCode.code : ErrCode → BitVec 4
  | .none => 0
  | .eill => 1
  | .eseq => 2
  | .elen => 3

/-- The lifecycle that ST and DV show: CTX0.ST in plain mode, HST in HMAC mode (R41). -/
def State.life (s : State) : Lifecycle :=
  match s.mode with
  | .plain => s.ctx0.st
  | .hmac => s.hst

/-- DV, digest valid (R41). -/
def State.dv (s : State) : Bool := decide (s.life = .finalized)

/-- KLONG: HM = 1 and KLEN > 64 (R41). -/
def State.klong (s : State) : Bool := decide (s.mode = .hmac) && decide (64 < s.klen)

/-- PLEN: CTX0.PLEN (R41). -/
def State.plen (s : State) : BitVec 6 := BitVec.ofNat 6 s.ctx0.buf.length

/-- The STATUS word, field by field from bit 31 down to bit 0 (R41). -/
def statusWord (s : State) : Word :=
  (0 : BitVec 10)                 -- [31:22] reserved
    ++ BitVec.ofBool s.klong      -- [21]    KLONG
    ++ BitVec.ofBool s.dv         -- [20]    DV
    ++ s.err.code                 -- [19:16] ERR
    ++ (0 : BitVec 2)             -- [15:14] reserved
    ++ s.plen                     -- [13:8]  PLEN
    ++ (0 : BitVec 2)             -- [7:6]   reserved
    ++ s.alg.code                 -- [5:4]   ALG
    ++ BitVec.ofBool s.mode.bit   -- [3]     HM
    ++ s.life.code                -- [2:1]   ST
    ++ BitVec.ofBool s.busy       -- [0]     BUSY

/-- The bits of STATUS that are fields: [5:0], [13:8] and [21:16]. The others are reserved, and read 0 always
(R41, 93 U12). -/
def statusFields : Word := 0x003F3F3F

end Sys2Proof.Machine
end

