-- ==== Sys2Proof/Machine/Registers.lean ====
section
/-! DEFINITION. The register window: 32 word registers at byte addresses 0x00-0x7F (10_state.md R39), their address
decoding (20_memory.md R73), what each reads (10_state.md R36, R40-R48), and what a read returns in the BUSY
window (70_reset_and_hazards.md R380). -/

namespace Sys2Proof.Machine

/-- The registers of the window (R39). -/
inductive Reg where
  | cmd
  | din
  | status
  | id
  | lenLo
  | lenHi
  /-- 0x18 and 0x1C. -/
  | reserved (i : Fin 2)
  /-- 0x20 + 4i. -/
  | dout (i : Fin 8)
  /-- 0x40 + 4j. -/
  | hex (j : Fin 16)
deriving DecidableEq, Repr

/-- Address decoding uses only addr[6:2] (20_memory.md R73); the map is R39's. -/
def Reg.ofAddr (addr : BitVec 7) : Reg :=
  let i := (addr.extractLsb' 2 5).toNat
  if i = 0 then .cmd
  else if i = 1 then .din
  else if i = 2 then .status
  else if i = 3 then .id
  else if i = 4 then .lenLo
  else if i = 5 then .lenHi
  else if i < 8 then .reserved (Fin.ofNat 2 (i - 6))
  else if i < 16 then .dout (Fin.ofNat 8 (i - 8))
  else .hex (Fin.ofNat 16 (i - 16))

/-- The byte address of a register (R39). -/
def Reg.addr : Reg → BitVec 7
  | .cmd => 0x00
  | .din => 0x04
  | .status => 0x08
  | .id => 0x0C
  | .lenLo => 0x10
  | .lenHi => 0x14
  | .reserved i => BitVec.ofNat 7 (0x18 + 4 * i.val)
  | .dout i => BitVec.ofNat 7 (0x20 + 4 * i.val)
  | .hex j => BitVec.ofNat 7 (0x40 + 4 * j.val)

/-- `Hsel`: the HashState that the readout shows (R45). -/
def State.hsel (s : State) : HashState :=
  match s.mode with
  | .plain => s.ctx0.h
  | .hmac => s.ctx1.h

/-- LEN_LO: CTX0.TLEN[31:0] (R42). -/
def lenLo (s : State) : Word := BitVec.ofNat 32 s.ctx0.tlen

/-- LEN_HI: CTX0.TLEN[60:32] widened with zeros, so bits [31:29] read 0 (R43). -/
def lenHi (s : State) : Word := (BitVec.ofNat 29 (s.ctx0.tlen >>> 32)).setWidth 32

/-- DOUT[i]: the digest word, or 0 where the digest is not valid or has no word i (R45). -/
def dout (s : State) (i : Nat) : Word :=
  if s.dv && decide (i < digestSize s.alg / 4) then s.hsel.words.getD i 0 else 0

/-- `hexc(n)`: the ASCII code of a lowercase hex digit (R46). -/
def hexc (n : BitVec 4) : Byte := if n < 10 then 0x30 + n.setWidth 8 else 0x61 + (n.setWidth 8 - 10)

/-- Four hex characters of a 16-bit half word, the first in bits [31:24] (R46). -/
def hexWord (h : BitVec 16) : Word :=
  hexc (h.extractLsb' 12 4) ++ hexc (h.extractLsb' 8 4) ++ hexc (h.extractLsb' 4 4) ++ hexc (h.extractLsb' 0 4)

/-- HEX[j] (R46). -/
def hex (s : State) (j : Nat) : Word :=
  if s.dv && decide (j < digestSize s.alg / 2) then
    let w := dout s (j / 2)
    hexWord (if j % 2 = 0 then w.extractLsb' 16 16 else w.extractLsb' 0 16)
  else 0

/-- The register as it stands: what a read returns while BUSY = 0 (R39-R48). CMD and the reserved addresses
read 0. -/
def regRead (s : State) : Reg → Word
  | .cmd => 0
  | .din => s.din
  | .status => statusWord s
  | .id => idValue
  | .lenLo => lenLo s
  | .lenHi => lenHi s
  | .reserved _ => 0
  | .dout i => dout s i.val
  | .hex j => hex s j.val

/-- The registers whose reads are unspecified while BUSY = 1 (70_reset_and_hazards.md R380). -/
def Reg.masked : Reg → Bool
  | .cmd => false
  | .din => false
  | .status => true
  | .id => false
  | .lenLo => true
  | .lenHi => true
  | .reserved _ => false
  | .dout _ => true
  | .hex _ => true

/-- A masked read: an arbitrary word; of STATUS the fields alone are arbitrary, BUSY being 1 and the reserved bits
fixed at 0 (R380, R41, 93 U12). -/
def maskedRead (free : Word) : Reg → Word
  | .status => (free &&& statusFields) ||| 1
  | _ => free

/-- What a host read of a register returns (20_memory.md R74, 70_reset_and_hazards.md R380). -/
def busRead (s : State) (r : Reg) : Word :=
  if s.busy && r.masked then maskedRead (Config.busyRead s.draws) r else regRead s r

/-- The draw counter after a read: a masked read uses one free value (R380). -/
def State.afterRead (s : State) (r : Reg) : State := if s.busy && r.masked then s.drawn else s

end Sys2Proof.Machine
end

