-- ==== Sys2Proof/Machine/Bus.lean ====
section
/-! DEFINITION. The two agents' moves (10_state.md R20): the host's bus cycles (20_memory.md R72-R75, R78) and the
controller's execution of the latched command (30_encoding.md R110). -/

namespace Sys2Proof.Machine

/-- `ready`: the request completes in this cycle. Only a CMD write waits, and only while BUSY = 1 (20_memory.md R74).
With rd and wr both 1 the transaction is a read (R72). Two values are the model's choice (DESIGN CHOICE, assumption 8):
R72 gives `ready` for a request alone, and in a cycle without one it is 1 here; and a request under rst = 1 completes. -/
def ready (s : State) (p : Port) : Bool :=
  p.rst || p.rd || !p.wr || decide (Reg.ofAddr p.addr ≠ .cmd) || !s.busy

/-- A completed bus write: CMD hands the word and the current DIN to the controller, DIN is replaced, every other
write is ignored (20_memory.md R74, R78; 10_state.md R40, R47). LAT is drawn at the acceptance, and may depend on the
word and on the state it is accepted in (70_reset_and_hazards.md R385, R387). -/
def busWrite (s : State) (r : Reg) (v : Word) : State :=
  match r with
  | .cmd => (s.accept v (Config.latency s v)).drawn
  | .din => s.writeDin v
  | .status => s
  | .id => s
  | .lenLo => s
  | .lenHi => s
  | .reserved _ => s
  | .dout _ => s
  | .hex _ => s

/-- One completed bus cycle. Reset has precedence: a write under it has no effect and a read returns 0
(70_reset_and_hazards.md R370). A read has no side effect on SHC, and wins over a write (20_memory.md R72, R78). -/
def portCycle (s : State) (p : Port) : State :=
  if p.rst then (if p.rd then s.hardReset.receive 0 else s.hardReset)
  else if p.rd then (s.afterRead (Reg.ofAddr p.addr)).receive (busRead s (Reg.ofAddr p.addr))
  else if p.wr then busWrite s (Reg.ofAddr p.addr) p.wdata
  else s

/-- The host's move in one bus cycle: a request that is not ready is held, `poll` repeats until the STATUS it reads
has BUSY = 0 (30_encoding.md R120), and a host with nothing to do leaves SHC as it is (60_exceptions.md R347). A held
request holds all the ports, rst among them, until it is accepted, so reset cannot rise while a CMD write waits: the
spec does not say what would become of that write (DESIGN CHOICE, assumption 15). -/
def hostCycle (s : State) : State :=
  match s.todo with
  | [] => s
  | .poll :: rest =>
    let t := s.afterRead .status
    if (busRead s .status).getLsbD 0 then t else t.advance rest
  | .cycle p :: rest => if ready s p then portCycle (s.advance rest) p else s

/-- The controller's move: `execute(w, d)` of the latched command, an illegal word raising EILL, and then BUSY = 0
(30_encoding.md R110, R111; 20_memory.md R74). -/
def complete (s : State) : Result :=
  match decode s.cmdWord with
  | .error _ => .next (s.reject .eill).release
  | .ok i =>
    match exec i s with
    | .next t => .next t.release
    | .fault f => .fault f
    | .refused r => .refused r

end Sys2Proof.Machine
end

