-- ==== Sys2Proof/Machine/Step.lean ====
section
/-! DEFINITION. One step: one agent's move (10_state.md R20). A command whose BUSY window is over completes, with all its
effects at once (20_memory.md R80: a command is the unit of atomicity). Otherwise the host has a bus cycle, and a
BUSY window grows shorter by it. -/

namespace Sys2Proof.Machine

/-- One step of SHC and its host (20_memory.md R74). -/
def step (s : State) : Host.Outcome State Fault Refusal :=
  if s.busy then
    if s.latLeft = 0 then complete s else .next (hostCycle s.tick)
  else .next (hostCycle s)

/-- `s` just after a command word was accepted, with no bus cycle of its BUSY window left: the very next step runs
that command (assumption 1). Acceptance is the operation of 20_memory.md R74 itself: the word is latched with the
current DIN, BUSY is 1, cp has advanced. -/
def State.withFetchWord (s : State) (nbits w : Nat) : State :=
  s.accept (BitVec.ofNat 32 (w % 2 ^ nbits)) 0

end Sys2Proof.Machine
end

