-- ==== Sys2Proof/Machine/Program.lean ====
section
/-! DEFINITION. The host program notation of 30_encoding.md R120 and the pseudo-instructions of R121: what the host puts
on the bus. -/

namespace Sys2Proof.Machine

/-- A line of SHC assembly: one host action (R120). -/
inductive Asm where
  | nop
  | init (alg : Alg) (mode : Mode)
  | reset
  | add (n : Nat)
  | finish
  | keyclr
  | key (n : Nat)
  | clrerr
  /-- `.word v`: any 32-bit word to CMD, illegal ones too. -/
  | word (v : Word)
  | din (v : Word)
  | rd (r : Reg)
  | poll
deriving DecidableEq, Repr

/-- `MemWrite(addr, 4, v)` (20_memory.md R72). -/
def memWrite (addr : BitVec 7) (v : Word) : HostOp :=
  .cycle { rst := false, addr := addr, wr := true, rd := false, wdata := v }

/-- `MemRead(addr, 4)` (20_memory.md R72). -/
def memRead (addr : BitVec 7) : HostOp :=
  .cycle { rst := false, addr := addr, wr := false, rd := true, wdata := 0 }

/-- A bus cycle with `rst = 1` and no request (70_reset_and_hazards.md R370). -/
def resetCycle : HostOp := .cycle { rst := true, addr := 0, wr := false, rd := false, wdata := 0 }

/-- The INIT word of `init <alg>, <mode>` (R120, R122). -/
def initWord (alg : Alg) (mode : Mode) : Word :=
  match mode, alg with
  | .plain, .sha1 => 0x01000000
  | .plain, .sha256 => 0x01000001
  | .plain, .sha224 => 0x01000002
  | .hmac, .sha1 => 0x01000010
  | .hmac, .sha256 => 0x01000011
  | .hmac, .sha224 => 0x01000012

/-- What a line puts on the bus (R120). R120 has `add <n>` and `key <n>` for n in 0..4 alone; for a larger n the
line is no SHC assembly, and the word given here is the model's choice (assumption 11). -/
def Asm.op : Asm → HostOp
  | .nop => memWrite 0x00 0x00000000
  | .init alg mode => memWrite 0x00 (initWord alg mode)
  | .reset => memWrite 0x00 0x02000000
  | .add n => memWrite 0x00 (0x03000000 ||| BitVec.ofNat 32 n)
  | .finish => memWrite 0x00 0x04000000
  | .keyclr => memWrite 0x00 0x05000000
  | .key n => memWrite 0x00 (0x06000000 ||| BitVec.ofNat 32 n)
  | .clrerr => memWrite 0x00 0x07000000
  | .word v => memWrite 0x00 v
  | .din v => memWrite 0x04 v
  | .rd r => memRead r.addr
  | .poll => .poll

/-- What a host program puts on the bus, in program order. -/
def assemble (p : List Asm) : List HostOp := p.map Asm.op

/-- `addw <v>, <n>` (R121). -/
def addw (v : Word) (n : Nat) : List Asm := [.din v, .add n]

/-- `keyw <v>, <n>` (R121). -/
def keyw (v : Word) (n : Nat) : List Asm := [.din v, .key n]

/-- One line pair for each 4-byte group, in order; the last group may be shorter and is filled with zeros (R121). -/
def byteGroups (line : Word → Nat → List Asm) : List Byte → List Asm
  | s0 :: s1 :: s2 :: s3 :: rest => line (be32 s0 s1 s2 s3) 4 ++ byteGroups line rest
  | [s0, s1, s2] => line (be32 s0 s1 s2 0) 3
  | [s0, s1] => line (be32 s0 s1 0 0) 2
  | [s0] => line (be32 s0 0 0 0) 1
  | [] => []

/-- `addbytes "<s>"` (R121). -/
def addbytes (s : List Byte) : List Asm := byteGroups addw s

/-- `keybytes "<s>"` (R121). -/
def keybytes (s : List Byte) : List Asm := byteGroups keyw s

/-- `setkey "<k>"` (R121). -/
def setkey (k : List Byte) : List Asm := [.keyclr] ++ keybytes k ++ [.reset]

/-- `digest` (R121): `finish`, `poll`, and DOUT0..DOUT(DS/4 - 1). -/
def digest (alg : Alg) : List Asm :=
  [.finish, .poll] ++ ((List.finRange 8).take (digestSize alg / 4)).map (fun i => .rd (.dout i))

/-- `hexdigest` (R121): `finish`, `poll`, and HEX0..HEX(DS/2 - 1). -/
def hexdigest (alg : Alg) : List Asm :=
  [.finish, .poll] ++ ((List.finRange 16).take (digestSize alg / 2)).map (fun j => .rd (.hex j))

end Sys2Proof.Machine
end

