-- ==== Sys2Proof/Safety.lean ====
section
/-! DEFINITION. What claims about SHC are stated in: executions, the tables of errors that the spec gives apart from the
command rules, sequences of data commands, and the abstract machine (a `Job`) whose message and key are byte
sequences, with the relation that says which state represents it. -/

namespace Sys2Proof.Machine

/-! ## Executions -/

/-- `s` comes to `t` in `k` steps, none of which stops. -/
def runsTo (k : Nat) (s t : State) : Prop := Host.Core.run Sys2Proof.core k s = .next t

/-- `s` comes to `t` in some number of steps. -/
def reaches (s t : State) : Prop := ∃ k, runsTo k s t

/-- The next step is the completion of the latched command: its BUSY window is over (20_memory.md R74). -/
def commandDue (s : State) : Prop := s.busy = true ∧ s.latLeft = 0

/-- The next step is a bus cycle of the host. -/
def hostTurn (s : State) : Prop := s.busy = false ∨ s.latLeft ≠ 0

/-- What is left of the BUSY window after a bus cycle. -/
def windowLeft (s : State) : Nat := if s.busy then s.latLeft - 1 else s.latLeft

/-- What STATUS reads while BUSY = 1, with `free` the draw: BUSY is 1, every other field is the draw's, and the reserved
bits read 0 (10_state.md R41, 93 U12). -/
def statusWhileBusy (v free : Word) : Prop :=
  v.getLsbD 0 = true
    ∧ (∀ b, 0 < b ∧ b < 6 ∨ 8 ≤ b ∧ b < 14 ∨ 16 ≤ b ∧ b < 22 → v.getLsbD b = free.getLsbD b)
    ∧ v.extractLsb' 6 2 = 0 ∧ v.extractLsb' 14 2 = 0 ∧ v.extractLsb' 22 10 = 0

/-- Every claim about a run asks at least this: no step of it is a fault or a refusal. -/
def neverStops (s : State) : Prop := ∀ k, ∃ t, runsTo k s t

/-! ## The error tables of 60_exceptions.md -/

/-- The table of ESEQ (R332). -/
def seqError (i : Instr) (s : State) : Bool :=
  match i with
  | .nop => false
  | .init _ _ => false
  | .reset => false
  | .add _ => decide (s.mode = .hmac ∧ s.hst = .idle)
  | .finish => decide (s.mode = .hmac ∧ s.hst = .idle)
  | .keyclr => decide (s.mode = .plain)
  | .key _ => decide (s.mode = .plain ∨ s.hst ≠ .idle)
  | .clrerr => false

/-- The length that an ADD adds to (R333). -/
def addBase (s : State) : Nat :=
  match s.mode with
  | .plain => if s.ctx0.st = .accumulating then s.ctx0.tlen else 0
  | .hmac => if s.hst = .accumulating then s.ctx0.tlen else 64

/-- The table of ELEN (R333). -/
def lenError (i : Instr) (s : State) : Bool :=
  match i with
  | .nop => false
  | .init _ _ => false
  | .reset => false
  | .add cnt => decide (addBase s + cnt > lmax)
  | .finish => false
  | .keyclr => false
  | .key cnt => decide (s.klen + cnt > lmax)
  | .clrerr => false

/-- The code that a command word raises: EILL, then ESEQ, then ELEN, the first check that fails (R334). -/
def errorOf (w : Word) (s : State) : ErrCode :=
  match decode w with
  | .error _ => .eill
  | .ok i => if seqError i s then .eseq else if lenError i s then .elen else .none

/-! ## Sequences of data commands -/

/-- The commands `mk n` run one after another, each with its own latched DIN `d` (10_state.md R36). -/
def feed (mk : Nat → Instr) : List (Word × Nat) → State → Result
  | [], s => .next s
  | (d, n) :: rest, s =>
    match exec (mk n) { s with cmdData := d } with
    | .next t => feed mk rest t
    | .fault f => .fault f
    | .refused r => .refused r

/-- The bytes that such a sequence carries, in acceptance order (20_memory.md R86, 43_hmac.md R281). -/
def carried (pieces : List (Word × Nat)) : List Byte := pieces.flatMap fun p => data p.1 p.2

/-! ## The abstract machine -/

/-- A context that ctx_reset has started; it does not depend on what the context was (40_accumulator.md R145). -/
def started (alg : Alg) : Ctx := ctxReset alg Ctx.idle

/-- A lifecycle with the message that belongs to it. -/
inductive Phase where
  | idle
  | accumulating (m : List Byte)
  | finalized (m : List Byte)
deriving DecidableEq, Repr

/-- The lifecycle without the message. -/
def Phase.life : Phase → Lifecycle
  | .idle => .idle
  | .accumulating _ => .accumulating
  | .finalized _ => .finalized

/-- The message so far. -/
def Phase.message : Phase → List Byte
  | .idle => []
  | .accumulating m => m
  | .finalized m => m

/-- An instance as the source describes it: the algorithm and mode it was constructed with, the key it was given,
its message and lifecycle, and the first error. It has no buffer, no counter and no hash state. -/
structure Job where
  alg : Alg
  mode : Mode
  key : List Byte
  phase : Phase
  err : ErrCode
deriving DecidableEq, Repr

/-- The first error is kept (60_exceptions.md R336). -/
def Job.reject (j : Job) (code : ErrCode) : Job :=
  { j with err := if j.err = .none then code else j.err }

/-- The pad bytes that count in CTX0.TLEN beside the message (43_hmac.md R292). -/
def Job.padLength (j : Job) : Nat :=
  match j.mode with
  | .plain => 0
  | .hmac => 64

/-- `add(bytes)`: in a message under way the bytes are appended, otherwise a new message starts with them
(40_accumulator.md R154, R159; 43_hmac.md R292, R298). -/
def Job.append (j : Job) (bytes : List Byte) : Job :=
  let m := match j.phase with
    | .accumulating m => m ++ bytes
    | .idle => bytes
    | .finalized _ => bytes
  if j.padLength + m.length > lmax then j.reject .elen else { j with phase := .accumulating m }

/-- What a command does to the instance, with `d` the latched DIN (40_accumulator.md R149-R156, 43_hmac.md
R284-R294). -/
def Job.command (i : Instr) (d : Word) (j : Job) : Job :=
  match i with
  | .nop => j
  | .init alg mode => { alg := alg, mode := mode, key := [], phase := .idle, err := j.err }
  | .reset => { j with phase := .accumulating [] }
  | .add cnt =>
    match j.mode, j.phase with
    | .hmac, .idle => j.reject .eseq
    | _, _ => j.append (data d cnt)
  | .finish =>
    match j.mode, j.phase with
    | .hmac, .idle => j.reject .eseq
    | _, _ => { j with phase := .finalized j.phase.message }
  | .keyclr =>
    match j.mode with
    | .plain => j.reject .eseq
    | .hmac => { j with key := [], phase := .idle }
  | .key cnt =>
    match j.mode, j.phase with
    | .hmac, .idle =>
      if j.key.length + (data d cnt).length > lmax then j.reject .elen
      else { j with key := j.key ++ data d cnt }
    | _, _ => j.reject .eseq
  | .clrerr => { j with err := .none }

/-- The digest of a message: `Hash` in plain mode (40_accumulator.md R161), `HMAC` in HMAC mode (43_hmac.md R280). -/
def Job.digestOf (j : Job) (m : List Byte) : List Byte :=
  match j.mode with
  | .plain => hash j.alg m
  | .hmac => hmac j.alg j.key m

/-- The byte stream that CTX0 absorbs for a message: the inner pad comes first in HMAC mode (43_hmac.md R289). -/
def Job.stream (j : Job) (m : List Byte) : List Byte :=
  match j.mode with
  | .plain => m
  | .hmac => xorPad (normkey j.alg j.key) ipadByte ++ m

/-- CTX0 of the instance. In HMAC mode before a message it hashes a key of more than 64 bytes (43_hmac.md R285). -/
def Job.inner (j : Job) : Ctx :=
  match j.phase with
  | .idle => if 64 < j.key.length then absorbAll j.alg (started j.alg) j.key else Ctx.idle
  | .accumulating m => absorbAll j.alg (started j.alg) (j.stream m)
  | .finalized m => ctxFinalize j.alg (absorbAll j.alg (started j.alg) (j.stream m))

/-- CTX1 of the instance: Idle, but for the outer digest of a finalized HMAC (10_state.md R30, 43_hmac.md R294). -/
def Job.outer (j : Job) : Ctx :=
  match j.mode, j.phase with
  | .hmac, .finalized m =>
    outerDigest j.alg (normkey j.alg j.key) Ctx.idle (hash j.alg (j.stream m))
  | _, _ => Ctx.idle

/-- K0 of the instance: the normalised key once a message has begun (43_hmac.md R297). -/
def Job.normalKey (j : Job) : Vector Byte 64 :=
  match j.mode, j.phase with
  | .plain, _ => zeroKey
  | .hmac, .idle => zeroKey
  | .hmac, .accumulating _ => normkey j.alg j.key
  | .hmac, .finalized _ => normkey j.alg j.key

/-- HST of the instance (10_state.md R31). -/
def Job.hst (j : Job) : Lifecycle :=
  match j.mode with
  | .plain => .idle
  | .hmac => j.phase.life

/-- The state holds the instance `j`. -/
structure Represents (s : State) (j : Job) : Prop where
  alg : s.alg = j.alg
  mode : s.mode = j.mode
  ctx0 : s.ctx0 = j.inner
  ctx1 : s.ctx1 = j.outer
  hst : s.hst = j.hst
  kb : s.kb = padKey j.key
  klen : s.klen = j.key.length
  k0 : s.k0 = j.normalKey
  err : s.err = j.err
  /-- Plain mode has no key (10_state.md R51). -/
  plainKey : j.mode = .plain → j.key = []
  /-- KLEN is within LMAX (10_state.md R33). -/
  keyBound : j.key.length ≤ lmax
  /-- CTX0.TLEN is within LMAX (10_state.md R33). -/
  lengthBound : j.phase ≠ .idle → j.padLength + j.phase.message.length ≤ lmax

/-- The invariant: the state holds some instance. -/
def Sound (s : State) : Prop := ∃ j, Represents s j

/-! ## The invariants of 10_state.md R51, as they stand there -/

/-- What R51 says of one context. -/
def Ctx.regular (c : Ctx) : Prop :=
  c.buf.length < 64 ∧ c.tlen ≤ lmax
    ∧ (c.st = .idle → c.buf.length = 0)
    ∧ (c.st = .finalized → c.buf.length = 0)
    ∧ (c.st = .accumulating → c.buf.length = c.tlen % 64)

/-- What R51 says of the state; `key` is the loaded key of 43_hmac.md R281. -/
def regularWith (s : State) (key : List Byte) : Prop :=
  s.ctx0.regular ∧ s.ctx1.regular ∧ s.klen = key.length ∧ s.klen ≤ lmax
    ∧ (s.mode = .plain →
        s.ctx1.st = .idle ∧ s.hst = .idle ∧ s.klen = 0 ∧ s.kb = zeroKey ∧ s.k0 = zeroKey)
    ∧ (s.mode = .hmac → s.hst ≠ .idle → s.k0 = normkey s.alg key)

end Sys2Proof.Machine
end

