-- ==== Sys2Proof/Certificates/Slice0/Obligations.lean ====
section
/-! DEFINITION. The statements for the provers, one for each entry of OBLIGATIONS.json. Each docstring names the rule of
spec/ that it formalises. Free values (`Config.latency`, `Config.busyRead`) are left as they are: every
statement holds whatever they are. The fields `latLeft`, `draws`, `todo` and `got` are the model's own
(notes/assumptions/1, 2 and 3): what a statement says of them is the model's choice, not a rule's. -/

open Sys2Proof Sys2Proof.Machine

/-! ## Command words -/

/-- 30_encoding.md R122: the words of the table decode to the commands beside them, and the illegal ones are
rejected, each for its own reason of 60_exceptions.md R331. -/
def Obligations.SpecWordsDecodeAsListed : Prop :=
  decode 0x00000000 = .ok .nop
  ∧ decode 0x01000000 = .ok (.init .sha1 .plain)
  ∧ decode 0x01000001 = .ok (.init .sha256 .plain)
  ∧ decode 0x01000002 = .ok (.init .sha224 .plain)
  ∧ decode 0x01000010 = .ok (.init .sha1 .hmac)
  ∧ decode 0x01000011 = .ok (.init .sha256 .hmac)
  ∧ decode 0x01000012 = .ok (.init .sha224 .hmac)
  ∧ decode 0x02000000 = .ok .reset
  ∧ decode 0x03000000 = .ok (.add 0)
  ∧ decode 0x03000001 = .ok (.add 1)
  ∧ decode 0x03000002 = .ok (.add 2)
  ∧ decode 0x03000003 = .ok (.add 3)
  ∧ decode 0x03000004 = .ok (.add 4)
  ∧ decode 0x04000000 = .ok .finish
  ∧ decode 0x05000000 = .ok .keyclr
  ∧ decode 0x06000000 = .ok (.key 0)
  ∧ decode 0x06000001 = .ok (.key 1)
  ∧ decode 0x06000002 = .ok (.key 2)
  ∧ decode 0x06000003 = .ok (.key 3)
  ∧ decode 0x06000004 = .ok (.key 4)
  ∧ decode 0x07000000 = .ok .clrerr
  ∧ decode 0x01000003 = .error .reservedAlg
  ∧ decode 0x03000005 = .error .countTooLarge
  ∧ decode 0x04000001 = .error .reservedBits
  ∧ decode 0x08000000 = .error .reservedOpcode
  ∧ decode 0xFFFFFFFF = .error .reservedOpcode

/-- Decode and encode agree: every well-formed command has a word, and the decoder reads that command from it with
every operand as it was (30_encoding.md R100-R106). -/
def Obligations.DecodeOfEncodeIsTheCommand : Prop :=
  ∀ i : Instr, i.wellFormed = true → decode (encode i) = .ok i

/-- 30_encoding.md R113: every word is illegal or is exactly one legal command with its operand values; a command
has one word; and there are 21 legal words, 5 of format Z, 6 of INIT and 10 of ADD and KEY. -/
def Obligations.DecodingIsTotalAndExact : Prop :=
  (∀ w, (illegal w = true ∧ ∃ e, decode w = .error e)
      ∨ (illegal w = false ∧ ∃ i, decode w = .ok i ∧ i.wellFormed = true ∧ encode i = w))
  ∧ (∀ w w' i, decode w = .ok i → decode w' = .ok i → w = w')
  ∧ ∃ z f d : List Word,
      z.length = 5 ∧ f.length = 6 ∧ d.length = 10 ∧ (z ++ f ++ d).Nodup
      ∧ (∀ w ∈ z, opField w = 0x00 ∨ opField w = 0x02 ∨ opField w = 0x04 ∨ opField w = 0x05 ∨ opField w = 0x07)
      ∧ (∀ w ∈ f, opField w = 0x01)
      ∧ (∀ w ∈ d, opField w = 0x03 ∨ opField w = 0x06)
      ∧ ∀ w, w ∈ z ++ f ++ d ↔ illegal w = false

/-- 30_encoding.md R106: ALG, HM and CNT are read directly, as unsigned values of 2, 1 and 3 bits; no other command
has an operand. -/
def Obligations.OperandsAreTheRawFields : Prop :=
  ∀ w i, decode w = .ok i →
    match i with
    | .init alg mode => (alg.code).toNat = w.toNat % 4 ∧ mode.bit = w.getLsbD 4
    | .add cnt => cnt = w.toNat % 8
    | .key cnt => cnt = w.toNat % 8
    | .nop => w = 0x00000000
    | .reset => w = 0x02000000
    | .finish => w = 0x04000000
    | .keyclr => w = 0x05000000
    | .clrerr => w = 0x07000000

/-- 30_encoding.md R104: in a format D word with no reserved bit set, CNT = w[2:0] of 0..4 is legal and 5..7 is
illegal; the command carries the first CNT bytes of the DIN value latched at its acceptance, the most significant
first; and CNT = 0 carries none. -/
def Obligations.DataBytesComeFromLatchedDin : Prop :=
  (∀ w : Word, (opField w = 0x03 ∨ opField w = 0x06) → w.extractLsb' 3 21 = 0 →
      (w.toNat % 8 ≤ 4 ↔ illegal w = false))
  ∧ (∀ (s : State) (n : Nat), n ≤ 4 →
      (operandBytes s n).length = n
      ∧ ∀ i, i < n → (operandBytes s n)[i]? = some (s.cmdData.extractLsb' (24 - 8 * i) 8))
  ∧ ∀ s : State, operandBytes s 0 = []

/-! ## Steps, the bus and reset -/

/-- 30_encoding.md R110, 20_memory.md R74: when the BUSY window of the latched word is over and the word decodes to a
well-formed command, the step is `exec` of that command, which answers a next state, followed by BUSY = 0. -/
def Obligations.StepRunsTheDecodedCommand : Prop :=
  ∀ s i, commandDue s → decode s.cmdWord = .ok i → i.wellFormed = true →
    ∃ t, exec i s = .next t ∧ step s = .next { t with busy := false }

/-- 30_encoding.md R111, 60_exceptions.md R331: an illegal word raises EILL in every state and mode, and nothing else
happens. -/
def Obligations.IllegalWordRaisesEill : Prop :=
  ∀ s, commandDue s → illegal s.cmdWord = true →
    step s = .next { s with err := if s.err = .none then .eill else s.err, busy := false }

/-- 20_memory.md R74: back-pressure and acceptance. A CMD write waits while BUSY = 1 and is accepted in the first
cycle with BUSY = 0: the word and DIN are latched, BUSY becomes 1, cp advances, and LAT is some number. A write of
any other address and every read completes at once, whatever BUSY is. (The countdown `latLeft` and the host side are
the model's choice: notes/assumptions/1 and 2.) -/
def Obligations.OnlyCommandWritesWait : Prop :=
  ∀ s p rest, hostTurn s → s.todo = .cycle p :: rest → p.rst = false →
    (p.rd = false → p.wr = true → Reg.ofAddr p.addr = .cmd → s.busy = true →
        step s = .next { s with latLeft := s.latLeft - 1 })
    ∧ (p.rd = false → p.wr = true → Reg.ofAddr p.addr = .cmd → s.busy = false →
        ∃ lat, step s = .next
          { s with
            cmdWord := p.wdata, cmdData := s.din, busy := true, cp := s.cp + 1, latLeft := lat,
            draws := s.draws + 1, todo := rest })
    ∧ (p.rd = false → p.wr = true → Reg.ofAddr p.addr = .din →
        step s = .next { s with din := p.wdata, latLeft := windowLeft s, todo := rest })
    ∧ (p.rd = false → p.wr = true → Reg.ofAddr p.addr ≠ .cmd → Reg.ofAddr p.addr ≠ .din →
        step s = .next { s with latLeft := windowLeft s, todo := rest })
    ∧ (p.rd = true → ∃ v n,
        step s = .next { s with latLeft := windowLeft s, draws := n, todo := rest, got := s.got ++ [v] })

/-- 70_reset_and_hazards.md R380 (with 20_memory.md R78: reads have no side effects): while BUSY = 1 a read of STATUS,
LEN, DOUT or HEX returns a fresh draw, but for STATUS's BUSY bit, which reads 1, and its reserved bits, which read 0 (93
U12); DIN, ID, CMD and the reserved addresses stay exact; and with BUSY = 0 every read is exact. (That the draws are
numbered by a counter is the model's choice, notes/assumptions/3, as are the window's count and the host side,
notes/assumptions/2 and 1.) -/
def Obligations.ReadsInAndOutOfTheBusyWindow : Prop :=
  ∀ s p rest, hostTurn s → s.todo = .cycle p :: rest → p.rst = false → p.rd = true →
    ∃ v n, step s = .next { s with latLeft := windowLeft s, draws := n, todo := rest, got := s.got ++ [v] }
      ∧ (s.busy = false → v = regRead s (Reg.ofAddr p.addr) ∧ n = s.draws)
      ∧ (s.busy = true →
          (Reg.ofAddr p.addr = .status →
              n = s.draws + 1 ∧ statusWhileBusy v (Config.busyRead s.draws))
          ∧ (Reg.ofAddr p.addr = .lenLo ∨ Reg.ofAddr p.addr = .lenHi
                ∨ (∃ i, Reg.ofAddr p.addr = .dout i) ∨ (∃ j, Reg.ofAddr p.addr = .hex j) →
              n = s.draws + 1 ∧ v = Config.busyRead s.draws)
          ∧ (Reg.ofAddr p.addr = .din → n = s.draws ∧ v = s.din)
          ∧ (Reg.ofAddr p.addr = .id → n = s.draws ∧ v = 0x53484301)
          ∧ (Reg.ofAddr p.addr = .cmd ∨ (∃ i, Reg.ofAddr p.addr = .reserved i) →
              n = s.draws ∧ v = 0))

/-- 70_reset_and_hazards.md R370, 60_exceptions.md R341: a cycle with rst = 1 gives every piece of SHC's state its reset
value, in every state and whatever command is in progress; a write in it has no effect and a read returns 0; and the
first CMD write after it is accepted at once. (The model's choices: where a command is due, its completion is a step of
its own before the reset, and a request under rst = 1 counts as completed, notes/assumptions/8; no reset rises while a
CMD write waits, 15; the draw counter and the host side are kept, 3 and 1; the latch and the window's count become 0, 4
and 2.) -/
def Obligations.HardwareResetSetsEverything : Prop :=
  ∀ s p rest, s.todo = .cycle p :: rest → p.rst = true →
    ∃ t, runsTo (if s.busy = true ∧ s.latLeft = 0 then 2 else 1) s t
      ∧ t = { State.reset with
              draws := s.draws, todo := rest, got := if p.rd then s.got ++ [0] else s.got }
      ∧ ∀ w rest', rest = memWrite 0x00 w :: rest' →
          ∃ u, step t = .next u ∧ u.busy = true ∧ u.cmdWord = w ∧ u.cp = 1 ∧ u.todo = rest'

/-- 10_state.md R50: the reset value of every piece of state, and what each register then reads. -/
def Obligations.ResetStateAndReads : Prop :=
  State.reset.alg = .sha1 ∧ State.reset.mode = .plain
  ∧ State.reset.ctx0 = { st := .idle, buf := [], tlen := 0, h := ⟨0, 0, 0, 0, 0, 0, 0, 0⟩ }
  ∧ State.reset.ctx1 = { st := .idle, buf := [], tlen := 0, h := ⟨0, 0, 0, 0, 0, 0, 0, 0⟩ }
  ∧ State.reset.hst = .idle
  ∧ State.reset.kb.toList = List.replicate 64 0 ∧ State.reset.klen = 0
  ∧ State.reset.k0.toList = List.replicate 64 0
  ∧ State.reset.err = .none ∧ State.reset.din = 0 ∧ State.reset.busy = false ∧ State.reset.cp = 0
  ∧ busRead State.reset .id = 0x53484301
  ∧ ∀ r, r ≠ .id → busRead State.reset r = 0

/-- 70_reset_and_hazards.md R385: LAT is always finite, so every accepted command completes: from a state in which a
command is in progress, a state with BUSY = 0 is reached. (The bound, the cycles left of the window and one more step,
is the model's: notes/assumptions/2.) -/
def Obligations.EveryAcceptedCommandCompletes : Prop :=
  ∀ s, s.busy = true → ∃ k t, k ≤ s.latLeft + 1 ∧ runsTo k s t ∧ t.busy = false

/-- No step stops: the bus never signals an error (20_memory.md R75) and SHC has no traps (60_exceptions.md R337), so
from every state every number of steps can be taken. -/
def Obligations.NoRunEverStops : Prop := ∀ s, neverStops s

/-- 10_state.md R22: cp advances by exactly one at each accepted CMD write, whether the command then succeeds or is
rejected; nothing else moves it but hardware reset; no read depends on it; and no command changes what the host does
next. -/
def Obligations.CpCountsAcceptedWords : Prop :=
  (∀ s t, step s = .next t →
      t.cp = s.cp
      ∨ (t.cp = s.cp + 1 ∧ s.busy = false ∧ t.busy = true)
      ∨ (t.cp = 0 ∧ ∃ p rest, s.todo = .cycle p :: rest ∧ p.rst = true))
  ∧ (∀ s t, step s = .next t → s.busy = false → t.busy = true → t.cp = s.cp + 1)
  ∧ (∀ (s : State) (n : Nat) (r : Reg), busRead { s with cp := n } r = busRead s r)
  ∧ ∀ s t, commandDue s → step s = .next t → t.todo = s.todo ∧ t.cp = s.cp

/-- 10_state.md R36: only a host write and hardware reset change DIN, a host write of it never waits and a read of it is
exact at any time, and a command takes its bytes from the value latched at its acceptance: what DIN holds when it
executes changes nothing. -/
def Obligations.DinIsTheHostsAlone : Prop :=
  (∀ s t, step s = .next t → t.din ≠ s.din →
      ∃ p rest, s.todo = .cycle p :: rest
        ∧ ((p.rst = true ∧ t.din = 0)
          ∨ (p.rd = false ∧ p.wr = true ∧ Reg.ofAddr p.addr = .din ∧ t.din = p.wdata)))
  ∧ (∀ s v rest, hostTurn s → s.todo = memWrite 0x04 v :: rest →
      ∃ t, step s = .next t ∧ t.din = v ∧ t.todo = rest)
  ∧ (∀ s, busRead s .din = s.din)
  ∧ (∀ (s : State) (w : Word) (lat : Nat), (s.accept w lat).cmdData = s.din)
  ∧ ∀ i s v, ∃ t, exec i s = .next t ∧ exec i { s with din := v } = .next { t with din := v }
      ∧ t.din = s.din

/-- 30_encoding.md R121: what the pseudo-instructions expand to. `addbytes` and `keybytes` cut their bytes into groups of
four, the last of one to four, each in a DIN word that is filled with zeros; `setkey`, `digest` and `hexdigest` are the
sequences of the table. -/
def Obligations.PseudoInstructionsExpand : Prop :=
  (∀ (v : Word) (n : Nat), addw v n = [.din v, .add n] ∧ keyw v n = [.din v, .key n])
  ∧ (∀ b : List Byte, ∃ p : List (Word × Nat),
      addbytes b = p.flatMap (fun x => addw x.1 x.2) ∧ keybytes b = p.flatMap (fun x => keyw x.1 x.2)
      ∧ p.length = (b.length + 3) / 4
      ∧ ∀ k x, p[k]? = some x →
          x.2 = min 4 (b.length - 4 * k) ∧ 0 < x.2
          ∧ bytes32 x.1 = (b.drop (4 * k)).take x.2 ++ List.replicate (4 - x.2) 0)
  ∧ (∀ k : List Byte, setkey k = .keyclr :: (keybytes k ++ [.reset]))
  ∧ ∀ alg : Alg,
      digest alg = [.finish, .poll] ++ ((List.finRange 8).filter fun i => i.val < digestSize alg / 4).map (.rd ∘ .dout)
      ∧ hexdigest alg
          = [.finish, .poll] ++ ((List.finRange 16).filter fun j => j.val < digestSize alg / 2).map (.rd ∘ .hex)

/-! ## Registers -/

/-- 20_memory.md R73, 10_state.md R39: only addr[6:2] is decoded, so a misaligned address reaches the aligned word;
every register of the map is at its address, each address in the window being one register's; and a write of a register
other than CMD and DIN is ignored. -/
def Obligations.AddressDecoding : Prop :=
  (∀ a : BitVec 7, Reg.ofAddr a = Reg.ofAddr (a &&& 0x7C))
  ∧ (∀ r : Reg, Reg.ofAddr r.addr = r)
  ∧ (∀ a : BitVec 7, (Reg.ofAddr a).addr = a &&& 0x7C)
  ∧ (Reg.ofAddr 0x00 = .cmd ∧ Reg.ofAddr 0x04 = .din ∧ Reg.ofAddr 0x08 = .status ∧ Reg.ofAddr 0x0C = .id
      ∧ Reg.ofAddr 0x10 = .lenLo ∧ Reg.ofAddr 0x14 = .lenHi
      ∧ Reg.ofAddr 0x18 = .reserved 0 ∧ Reg.ofAddr 0x1C = .reserved 1)
  ∧ (∀ i : Fin 8, Reg.ofAddr (0x20 + 4 * BitVec.ofNat 7 i.val) = .dout i)
  ∧ (∀ j : Fin 16, Reg.ofAddr (0x40 + 4 * BitVec.ofNat 7 j.val) = .hex j)
  ∧ ∀ (s : State) (r : Reg) (v : Word), r ≠ .cmd → r ≠ .din → busWrite s r v = s

/-- 10_state.md R41: every field of STATUS, which a read shows while BUSY = 0; while BUSY = 1 a read shows BUSY and an
unspecified value in every other field, the reserved bits reading 0 then too (93 U12). (That the value is numbered by a
counter is the model's choice: notes/assumptions/3.) -/
def Obligations.StatusFields : Prop :=
  ∀ s : State,
    (s.busy = false → busRead s .status = statusWord s ∧ s.afterRead .status = s)
    ∧ (s.busy = true → statusWhileBusy (busRead s .status) (Config.busyRead s.draws))
    ∧ (statusWord s).getLsbD 0 = s.busy
    ∧ (statusWord s).extractLsb' 1 2
        = (match s.mode with | .plain => s.ctx0.st.code | .hmac => s.hst.code)
    ∧ (statusWord s).getLsbD 3 = s.mode.bit
    ∧ (statusWord s).extractLsb' 4 2 = s.alg.code
    ∧ (statusWord s).extractLsb' 6 2 = 0
    ∧ (s.ctx0.buf.length < 64 → ((statusWord s).extractLsb' 8 6).toNat = s.ctx0.buf.length)
    ∧ (statusWord s).extractLsb' 14 2 = 0
    ∧ (statusWord s).extractLsb' 16 4 = s.err.code
    ∧ (statusWord s).getLsbD 20
        = (match s.mode with
           | .plain => decide (s.ctx0.st = .finalized)
           | .hmac => decide (s.hst = .finalized))
    ∧ ((statusWord s).getLsbD 21 = true ↔ s.mode = .hmac ∧ s.klen > 64)
    ∧ (statusWord s).extractLsb' 22 10 = 0

/-- 10_state.md R42 (and the first sentence of R43): LEN_LO and LEN_HI hold the 61 bits of CTX0.TLEN, and bits [31:29]
of LEN_HI read 0. -/
def Obligations.LengthRegisters : Prop :=
  ∀ s : State, s.ctx0.tlen ≤ lmax →
    (regRead s .lenLo).toNat = s.ctx0.tlen % 2 ^ 32
    ∧ (regRead s .lenHi).toNat = s.ctx0.tlen / 2 ^ 32
    ∧ (regRead s .lenHi).extractLsb' 29 3 = 0

/-- 10_state.md R45: with DV = 1 the first DS/4 DOUT words, each given as `bytes32`, spell `extract(ALG, Hsel)`, which
has DS bytes; the other DOUT words, and all of them with DV = 0, read 0. -/
def Obligations.DoutSpellsTheDigest : Prop :=
  ∀ s : State,
    (s.dv = true →
      (((List.finRange 8).take (digestSize s.alg / 4)).map fun i => regRead s (.dout i)).flatMap bytes32
          = extract s.alg (match s.mode with | .plain => s.ctx0.h | .hmac => s.ctx1.h)
      ∧ (extract s.alg s.hsel).length = digestSize s.alg
      ∧ ∀ i : Fin 8, digestSize s.alg / 4 ≤ i.val → regRead s (.dout i) = 0)
    ∧ (s.dv = false → ∀ i, regRead s (.dout i) = 0)

/-- 10_state.md R46: with DV = 1 the first DS/2 HEX words, each given as `bytes32`, spell the digest in lowercase hex,
2·DS characters, two a byte and the most significant nibble first; the other HEX words, and all of them with DV = 0,
read 0. -/
def Obligations.HexSpellsTheDigest : Prop :=
  (∀ n : BitVec 4, (hexc n).toNat = if n.toNat < 10 then 0x30 + n.toNat else 0x61 + (n.toNat - 10))
  ∧ ∀ s : State,
    (s.dv = true →
      (((List.finRange 16).take (digestSize s.alg / 2)).map fun j => regRead s (.hex j)).flatMap bytes32
          = (extract s.alg s.hsel).flatMap (fun b => [hexc (b.extractLsb' 4 4), hexc (b.extractLsb' 0 4)])
      ∧ (((List.finRange 16).take (digestSize s.alg / 2)).flatMap fun j => bytes32 (regRead s (.hex j))).length
          = 2 * digestSize s.alg
      ∧ ∀ j : Fin 16, digestSize s.alg / 2 ≤ j.val → regRead s (.hex j) = 0)
    ∧ (s.dv = false → ∀ j, regRead s (.hex j) = 0)

/-- 10_state.md R34, 20_memory.md R70: the internal storage is not readable. Two states that agree on the fields that
STATUS and LEN show, on DIN and BUSY, and on the digest words once DV = 1, read alike at every address: KB, K0, the
buffered bytes, an unfinished HashState, the latch and cp show nowhere. (That the unspecified reads of the BUSY window
depend on the draw counter alone is the model's choice: notes/assumptions/3. Nothing is said of timing.) -/
def Obligations.InternalStorageIsNotReadable : Prop :=
  ∀ s t : State,
    s.alg = t.alg → s.mode = t.mode → s.life = t.life → s.err = t.err → s.din = t.din → s.busy = t.busy →
    s.draws = t.draws → s.klong = t.klong → s.ctx0.buf.length = t.ctx0.buf.length →
    s.ctx0.tlen = t.ctx0.tlen → (s.dv = true → digestWords s.alg s.hsel = digestWords t.alg t.hsel) →
    ∀ r, busRead s r = busRead t r

/-! ## The compression engines -/

/-- 41_sha1_engine.md R203-R205: the 80 schedule words of a block, the first 16 big-endian from the block and the rest
by the recurrence. -/
def Obligations.Sha1MessageSchedule : Prop :=
  ∀ block : List Byte, block.length = 64 →
    (schedule1 block).length = 80
    ∧ (∀ t, t < 16 → (schedule1 block)[t]?
        = some (be32 (block.getD (4 * t) 0) (block.getD (4 * t + 1) 0)
            (block.getD (4 * t + 2) 0) (block.getD (4 * t + 3) 0)))
    ∧ (∀ t, 16 ≤ t → t < 80 →
        (schedule1 block).getD t 0
          = rotl 1 ((schedule1 block).getD (t - 3) 0 ^^^ (schedule1 block).getD (t - 8) 0
              ^^^ (schedule1 block).getD (t - 14) 0 ^^^ (schedule1 block).getD (t - 16) 0))

/-- 42_sha256_engine.md R246, and the recurrence of R247: the 64 schedule words of a block. -/
def Obligations.Sha256MessageSchedule : Prop :=
  ∀ block : List Byte, block.length = 64 →
    (schedule256 block).length = 64
    ∧ (∀ t, t < 16 → (schedule256 block)[t]?
        = some (be32 (block.getD (4 * t) 0) (block.getD (4 * t + 1) 0)
            (block.getD (4 * t + 2) 0) (block.getD (4 * t + 3) 0)))
    ∧ (∀ t, 16 ≤ t → t < 64 →
        (schedule256 block).getD t 0
          = gamma1 ((schedule256 block).getD (t - 2) 0) + (schedule256 block).getD (t - 7) 0
              + gamma0 ((schedule256 block).getD (t - 15) 0) + (schedule256 block).getD (t - 16) 0)

/-- 41_sha1_engine.md R211: a scheduler that keeps only a 16-word window, `W[t]` in slot t mod 16, gives the same
`W[t]` at every round. -/
def Obligations.Sha1SixteenWordWindow : Prop :=
  ∀ block : List Byte, block.length = 64 → ∀ t, t < 80 →
    (windowAt windowStep1 (blockWords block) t).length = 16
    ∧ (windowAt windowStep1 (blockWords block) t)[t % 16]? = (schedule1 block)[t]?

/-- 42_sha256_engine.md R247, last sentence: the same for the SHA-256 schedule. -/
def Obligations.Sha256SixteenWordWindow : Prop :=
  ∀ block : List Byte, block.length = 64 → ∀ t, t < 64 →
    (windowAt windowStep256 (blockWords block) t).length = 16
    ∧ (windowAt windowStep256 (blockWords block) t)[t % 16]? = (schedule256 block)[t]?

/-- 41_sha1_engine.md R212 and 42_sha256_engine.md R251: the check values of `Hash`. -/
def Obligations.HashCheckValues : Prop :=
  hash .sha1 [] = ([0xda39a3ee, 0x5e6b4b0d, 0x3255bfef, 0x95601890, 0xafd80709] : List Word).flatMap bytes32
  ∧ hash .sha1 [0x61, 0x62, 0x63]
      = ([0xa9993e36, 0x4706816a, 0xba3e2571, 0x7850c26c, 0x9cd0d89d] : List Word).flatMap bytes32
  ∧ hash .sha256 []
      = ([0xe3b0c442, 0x98fc1c14, 0x9afbf4c8, 0x996fb924,
          0x27ae41e4, 0x649b934c, 0xa495991b, 0x7852b855] : List Word).flatMap bytes32
  ∧ hash .sha256 [0x61, 0x62, 0x63]
      = ([0xba7816bf, 0x8f01cfea, 0x414140de, 0x5dae2223,
          0xb00361a3, 0x96177a9c, 0xb410ff61, 0xf20015ad] : List Word).flatMap bytes32
  ∧ hash .sha224 []
      = ([0xd14a028c, 0x2a3a2bc9, 0x476102bb, 0x288234c4,
          0x15a2b01f, 0x828ea62a, 0xc5b3e42f] : List Word).flatMap bytes32

/-! ## The accumulator and the padding controller -/

/-- 40_accumulator.md R148: the padding of a context with PLEN buffered bytes is one block when PLEN ≤ 55, with the
length field in its bytes 56..63, and two when 56 ≤ PLEN ≤ 63, with 0x80 at index PLEN of the first and the second
`0^56 ‖ length field`; the number of zero bytes is 55 - PLEN or 119 - PLEN; a message whose length is a multiple of 64
pads to one block `[0x80] ‖ 0^55 ‖ length field`; and ctx_finalize compresses those blocks and no other. -/
def Obligations.PaddingShape : Prop :=
  ∀ (buf : List Byte) (total : Nat), buf.length < 64 → total ≤ lmax →
    (buf.length ≤ 55 →
        (padded buf total).length = 64 ∧ zeroCount buf.length = 55 - buf.length
        ∧ (padded buf total).drop 56 = bytes64 (BitVec.ofNat 64 (8 * total)))
    ∧ (56 ≤ buf.length →
        (padded buf total).length = 128 ∧ zeroCount buf.length = 119 - buf.length
        ∧ (padded buf total)[buf.length]? = some 0x80
        ∧ (padded buf total).drop 64 = List.replicate 56 0 ++ bytes64 (BitVec.ofNat 64 (8 * total)))
    ∧ (buf = [] → padded buf total = [0x80] ++ List.replicate 55 0 ++ bytes64 (BitVec.ofNat 64 (8 * total)))
    ∧ (BitVec.ofNat 64 (8 * total)).toNat = 8 * total
    ∧ ∀ (alg : Alg) (c : Ctx), c.buf = buf → c.tlen = total →
        (ctxFinalize alg c).h = compressBlocks alg (if buf.length ≤ 55 then 1 else 2) c.h (padded buf total)

/-- 40_accumulator.md R161: `pad(M)` is a whole number of blocks, and a context that is reset, absorbs M byte by byte and
is finalized has `Hash(ALG, M)` as its `extract`, with TLEN = |M|. -/
def Obligations.StreamingEqualsClosedForm : Prop :=
  ∀ (alg : Alg) (c : Ctx) (m : List Byte), m.length ≤ lmax →
    (padded m m.length).length % 64 = 0
    ∧ extract alg (ctxFinalize alg (absorbAll alg (ctxReset alg c) m)).h = hash alg m
    ∧ (ctxFinalize alg (absorbAll alg (ctxReset alg c) m)).tlen = m.length
    ∧ (ctxFinalize alg (absorbAll alg (ctxReset alg c) m)).st = .finalized

/-- 40_accumulator.md R154: the plain ADD answers a next state. Out of Accumulating it starts a fresh context with the
bytes; in Accumulating it fills the buffer, and a buffer that becomes full is compressed once and the rest buffered;
past LMAX it raises ELEN. Nothing but CTX0 (or, on ELEN, ERR) changes. -/
def Obligations.PlainAddResult : Prop :=
  ∀ (s : State) (n : Nat), n ≤ 4 → s.mode = .plain →
    (s.ctx0.st ≠ .accumulating →
      exec (.add n) s = .next
        { s with ctx0 := { st := .accumulating, buf := operandBytes s n, tlen := n, h := iv s.alg } })
    ∧ (s.ctx0.st = .accumulating → s.ctx0.buf.length < 64 → s.ctx0.tlen + n ≤ lmax →
        (s.ctx0.buf.length + n < 64 →
          exec (.add n) s = .next
            { s with
              ctx0 := { s.ctx0 with buf := s.ctx0.buf ++ operandBytes s n, tlen := s.ctx0.tlen + n } })
        ∧ (64 ≤ s.ctx0.buf.length + n →
          exec (.add n) s = .next
            { s with
              ctx0 := { s.ctx0 with
                buf := (s.ctx0.buf ++ operandBytes s n).drop 64
                tlen := s.ctx0.tlen + n
                h := compress s.alg s.ctx0.h ((s.ctx0.buf ++ operandBytes s n).take 64) } }))
    ∧ (s.ctx0.st = .accumulating → s.ctx0.tlen + n > lmax →
        exec (.add n) s = .next { s with err := if s.err = .none then .elen else s.err })

/-- 40_accumulator.md R155: the CTX0 that a sequence of plain ADDs leaves, and so the digest after FINISH, depends only on
the bytes they carry, not on how these were split; and ADD with CNT = 0 in Accumulating changes nothing. (From Idle or
Finalized a sequence with no ADD at all resets nothing, so there both sequences have one.) -/
def Obligations.AddChunkingInvariance : Prop :=
  ∀ (s t u : State) (p q : List (Word × Nat)),
    s.mode = .plain → (s.ctx0.st = .accumulating ∨ (p ≠ [] ∧ q ≠ [])) →
    (∀ x ∈ p ++ q, x.2 ≤ 4) → carried p = carried q →
    (if s.ctx0.st = .accumulating then s.ctx0.tlen else 0) + (carried p).length ≤ lmax →
    feed .add p s = .next t → feed .add q s = .next u →
    t.ctx0 = u.ctx0 ∧ t.err = s.err ∧ u.err = s.err
      ∧ (∃ t' u', exec .finish t = .next t' ∧ exec .finish u = .next u' ∧ t'.ctx0 = u'.ctx0
          ∧ (∀ i, regRead t' (.dout i) = regRead u' (.dout i)) ∧ ∀ j, regRead t' (.hex j) = regRead u' (.hex j))
      ∧ exec (.add 0) t = .next t

/-- 40_accumulator.md R156: the plain FINISH answers a next state. In Finalized it changes nothing, in Idle it gives the
digest of the empty sequence, and in Accumulating the digest of the message that CTX0 has absorbed, with LEN
unchanged; then ST is Finalized, DV = 1 and PLEN = 0. Nothing but CTX0 changes. -/
def Obligations.PlainFinishResult : Prop :=
  ∀ s : State, s.mode = .plain →
    (s.ctx0.st = .finalized → exec .finish s = .next s)
    ∧ (s.ctx0.st = .idle → ∃ c, exec .finish s = .next { s with ctx0 := c }
        ∧ c.st = .finalized ∧ c.buf = [] ∧ c.tlen = 0 ∧ extract s.alg c.h = hash s.alg [])
    ∧ (∀ m : List Byte, s.ctx0 = absorbAll s.alg (started s.alg) m → m.length ≤ lmax →
        ∃ c, exec .finish s = .next { s with ctx0 := c }
          ∧ c.st = .finalized ∧ c.buf = [] ∧ c.tlen = m.length ∧ extract s.alg c.h = hash s.alg m)

/-- 40_accumulator.md R145 and R152: the plain RESET always succeeds: CTX0 becomes Accumulating with an empty buffer,
length 0 and the algorithm's IV; nothing else changes; and LEN, DOUT and HEX then read 0. -/
def Obligations.PlainResetResult : Prop :=
  ∀ s : State, s.mode = .plain →
    ∃ t, exec .reset s = .next t
      ∧ t = { s with ctx0 := { st := .accumulating, buf := [], tlen := 0, h := iv s.alg } }
      ∧ regRead t .lenLo = 0 ∧ regRead t .lenHi = 0
      ∧ (∀ i, regRead t (.dout i) = 0) ∧ ∀ j, regRead t (.hex j) = 0

/-- 40_accumulator.md R160: the table of the plain lifecycle. -/
def Obligations.PlainLifecycleTable : Prop :=
  ∀ (s : State) (i : Instr), s.mode = .plain → i.wellFormed = true →
    ∃ t, exec i s = .next t ∧
      match i with
      | .reset => t.ctx0 = started s.alg ∧ t.ctx0.st = .accumulating
      | .add cnt =>
        t.ctx0.st = .accumulating
        ∧ (s.ctx0.st ≠ .accumulating →
            t.ctx0 = absorbAll s.alg (started s.alg) (operandBytes s cnt) ∧ t.err = s.err)
        ∧ (t.err ≠ s.err → s.ctx0.tlen + cnt > lmax ∧ t.err = .elen ∧ t.ctx0 = s.ctx0)
      | .finish =>
        t.ctx0.st = .finalized
        ∧ (s.ctx0.st = .idle → t.ctx0 = ctxFinalize s.alg (started s.alg))
        ∧ (s.ctx0.st = .accumulating → t.ctx0 = ctxFinalize s.alg s.ctx0)
        ∧ (s.ctx0.st = .finalized → t = s)
      | .init _ _ => t.ctx0.st = .idle
      | .nop => t.ctx0.st = s.ctx0.st
      | .clrerr => t.ctx0.st = s.ctx0.st
      | .keyclr => t = { s with err := if s.err = .none then .eseq else s.err }
      | .key _ => t = { s with err := if s.err = .none then .eseq else s.err }

/-- 40_accumulator.md R158: once DV = 1, DOUT and HEX read the same until an ADD, RESET, INIT or KEYCLR: every other
command leaves them, and so does a host read. -/
def Obligations.DigestStaysUntilItsContextChanges : Prop :=
  (∀ (s t : State) (i : Instr), s.dv = true → exec i s = .next t →
      (match i with
        | .add _ => False | .reset => False | .init _ _ => False | .keyclr => False
        | .nop => True | .finish => True | .key _ => True | .clrerr => True) →
      t.dv = true ∧ (∀ i, regRead t (.dout i) = regRead s (.dout i))
        ∧ ∀ j, regRead t (.hex j) = regRead s (.hex j))
  ∧ ∀ (s t : State) (p : Port) (rest : List HostOp), hostTurn s → s.todo = .cycle p :: rest →
      p.rst = false → p.rd = true → step s = .next t →
      (∀ i, regRead t (.dout i) = regRead s (.dout i)) ∧ ∀ j, regRead t (.hex j) = regRead s (.hex j)

/-- 40_accumulator.md R157, on the bus: from any state with no command in progress, a host program that constructs a plain
digest of `alg` (or resets one, or finds one that is not Accumulating), adds M in pieces of any sizes and reads it by
`digest` and `hexdigest` runs to its end; what it read spells `Hash(alg, M)` as bytes and then as lowercase hex; and
STATUS then shows DV = 1. (With no reset and no ADD at all, a digest finished earlier is still there, so that start asks
for a piece or for Idle. The host's actions as `todo` and what its reads return as `got` are the model's choice:
notes/assumptions/1.) -/
def Obligations.DigestProgramReadsTheHash : Prop :=
  ∀ (s : State) (alg : Alg) (start : List Asm) (p : List (Word × Nat)) (rest : List HostOp),
    s.busy = false → (∀ x ∈ p, x.2 ≤ 4) → (carried p).length ≤ lmax →
    (start = [.init alg .plain]
      ∨ (start = [.reset] ∧ s.mode = .plain ∧ s.alg = alg)
      ∨ (start = [] ∧ s.mode = .plain ∧ s.alg = alg
          ∧ (s.ctx0.st = .idle ∨ (s.ctx0.st = .finalized ∧ p ≠ [])))) →
    s.todo = assemble (start ++ p.flatMap (fun x => addw x.1 x.2) ++ digest alg ++ hexdigest alg) ++ rest →
    ∃ t ws hs, reaches s t ∧ t.busy = false ∧ t.todo = rest ∧ t.got = s.got ++ ws ++ hs
      ∧ ws.flatMap bytes32 = hash alg (carried p)
      ∧ hs.flatMap bytes32
          = (hash alg (carried p)).flatMap (fun b => [hexc (b.extractLsb' 4 4), hexc (b.extractLsb' 0 4)])
      ∧ (regRead t .status).getLsbD 20 = true ∧ t.err = s.err

/-- 40_accumulator.md R159: in plain mode, ADDs of M' on a Finalized CTX0 and a FINISH give `Hash(ALG, M')`, as a
brand-new instance would. -/
def Obligations.PlainReuseStartsAfresh : Prop :=
  ∀ (s : State) (p : List (Word × Nat)), s.mode = .plain → s.ctx0.st = .finalized → p ≠ [] →
    (∀ x ∈ p, x.2 ≤ 4) → (carried p).length ≤ lmax →
    ∃ t u, feed .add p s = .next t ∧ exec .finish t = .next u
      ∧ u.dv = true ∧ extract u.alg u.ctx0.h = hash s.alg (carried p) ∧ u.err = s.err

/-! ## The control commands -/

/-- 40_accumulator.md R149: NOP answers the state it was given, and the step that runs it moves nothing but BUSY, so
that every register reads as before once BUSY = 0; a NOP word with an operand bit set is EILL. -/
def Obligations.NopChangesNothing : Prop :=
  (∀ s, exec .nop s = .next s)
  ∧ (∀ s, commandDue s → s.cmdWord = 0x00000000 → step s = .next { s with busy := false })
  ∧ ∀ s, commandDue s → opField s.cmdWord = 0x00 → opndField s.cmdWord ≠ 0 →
      step s = .next { s with err := if s.err = .none then .eill else s.err, busy := false }

/-- 40_accumulator.md R150, 70_reset_and_hazards.md R372: the INIT word is `0x01000000 | hm<<4 | alg`; INIT answers a next
state with the selected ALG and HM, both contexts, HST and the key state as after hardware reset, and everything else
kept; LEN, DOUT and HEX read 0, and STATUS shows ST, DV, PLEN and KLONG 0; `init sha1, plain` with ERR, DIN, BUSY and cp
cleared as well (and the model's own fields) is hardware reset; and ALG = 3 or a reserved operand bit is EILL. -/
def Obligations.InitGivesAFreshInstance : Prop :=
  (∀ (s : State) (alg : Alg) (mode : Mode), ∃ t, exec (.init alg mode) s = .next t
    ∧ t = { s with
            alg := alg, mode := mode, ctx0 := State.reset.ctx0, ctx1 := State.reset.ctx1,
            hst := State.reset.hst, kb := State.reset.kb, klen := 0, k0 := State.reset.k0 }
    ∧ regRead t .lenLo = 0 ∧ regRead t .lenHi = 0
    ∧ (∀ i, regRead t (.dout i) = 0) ∧ (∀ j, regRead t (.hex j) = 0)
    ∧ (regRead t .status).extractLsb' 1 2 = 0 ∧ (regRead t .status).getLsbD 20 = false
    ∧ (regRead t .status).extractLsb' 8 6 = 0 ∧ (regRead t .status).getLsbD 21 = false
    ∧ encode (.init alg mode) = 0x01000000 ||| (if mode.bit then 1 <<< 4 else 0) ||| alg.code.setWidth 32
    ∧ (alg = .sha1 → mode = .plain →
        { t with
          err := .none, din := 0, busy := false, cp := 0, cmdWord := 0, cmdData := 0, latLeft := 0, draws := 0,
          todo := [], got := [] } = State.reset))
  ∧ ∀ s, commandDue s → opField s.cmdWord = 0x01 →
      (opndField s.cmdWord &&& ~~~0x000013 ≠ 0 ∨ algField s.cmdWord = 3) →
      step s = .next { s with err := if s.err = .none then .eill else s.err, busy := false }

/-- 40_accumulator.md R151: CLRERR, the word 0x07000000, answers a next state with ERR = 0 and nothing else changed, in
every state and mode; with a reserved bit set it is EILL, and ERR keeps an earlier error or becomes 1. -/
def Obligations.ClrerrClearsErrAlone : Prop :=
  encode .clrerr = 0x07000000
  ∧ (∀ s, ∃ t, exec .clrerr s = .next t ∧ t = { s with err := .none }
      ∧ (regRead t .status).extractLsb' 16 4 = 0)
  ∧ ∀ s, commandDue s → opField s.cmdWord = 0x07 → opndField s.cmdWord ≠ 0 →
      ∃ t, step s = .next t ∧ t.err ≠ .none ∧ (s.err ≠ .none → t.err = s.err)
        ∧ (s.err = .none → t.err = .eill)

/-! ## The HMAC controller -/

/-- 43_hmac.md R284: in HMAC mode KEYCLR, the word 0x05000000 and legal in every HST, answers a next state with both
contexts cleared, HST Idle and the key state zero, the rest kept: STATUS shows ST, DV, PLEN and KLONG 0, and LEN, DOUT
and HEX read 0. In plain mode it raises ESEQ, and with a reserved bit set it is EILL. And it is the only way, other than
INIT, to load a new key: every other command keeps the loaded key bytes, and once HST has left Idle it keeps the whole
key state, so that none can be added. -/
def Obligations.KeyclrDiscardsTheKey : Prop :=
  encode .keyclr = 0x05000000
  ∧ ∀ s : State,
    (s.mode = .hmac → ∃ t, exec .keyclr s = .next t
      ∧ t = { s with
              ctx0 := State.reset.ctx0, ctx1 := State.reset.ctx1, hst := .idle,
              kb := State.reset.kb, klen := 0, k0 := State.reset.k0 }
      ∧ regRead t .lenLo = 0 ∧ regRead t .lenHi = 0
      ∧ (∀ i, regRead t (.dout i) = 0) ∧ (∀ j, regRead t (.hex j) = 0)
      ∧ (regRead t .status).extractLsb' 1 2 = 0 ∧ (regRead t .status).getLsbD 20 = false
      ∧ (regRead t .status).extractLsb' 8 6 = 0 ∧ (regRead t .status).getLsbD 21 = false)
    ∧ (s.mode = .plain →
        exec .keyclr s = .next { s with err := if s.err = .none then .eseq else s.err })
    ∧ (commandDue s → opField s.cmdWord = 0x05 → opndField s.cmdWord ≠ 0 →
        step s = .next { s with err := if s.err = .none then .eill else s.err, busy := false })
    ∧ (∀ (i : Instr) (t : State), i ≠ .keyclr → (∀ alg mode, i ≠ .init alg mode) → exec i s = .next t →
        s.klen ≤ t.klen ∧ (∀ k : Nat, k < s.klen → t.kb[k]? = s.kb[k]?)
          ∧ (s.mode = .hmac → s.hst ≠ .idle → t.kb = s.kb ∧ t.klen = s.klen ∧ t.k0 = s.k0))

/-- 43_hmac.md R285 and R286: in HMAC mode before a message, a KEY whose bytes fit answers a next state. When KB holds
the first bytes of `key` followed by zeros, KLEN is its length and, past 64 bytes, CTX0 has absorbed exactly `key`,
the same holds of `key` with the new bytes; until the 65th byte CTX0 is left alone; and nothing else changes. -/
def Obligations.KeyAppendsItsBytes : Prop :=
  ∀ (s : State) (key : List Byte) (n : Nat), n ≤ 4 → s.mode = .hmac → s.hst = .idle →
    s.kb = padKey key → s.klen = key.length →
    (64 < key.length → s.ctx0 = absorbAll s.alg (started s.alg) key) → key.length + n ≤ lmax →
    ∃ kb c, exec (.key n) s = .next { s with kb := kb, klen := s.klen + n, ctx0 := c }
      ∧ kb = padKey (key ++ operandBytes s n)
      ∧ (key.length + n ≤ 64 → c = s.ctx0)
      ∧ (64 < key.length + n → c = absorbAll s.alg (started s.alg) (key ++ operandBytes s n)
          ∧ c.st = .accumulating ∧ c.tlen = key.length + n)

/-- 43_hmac.md R282 and R288-R290: RESET in HMAC mode answers a next state. From Idle K0 becomes `normkey(ALG, key)` of
the loaded key, from Accumulating and Finalized it is kept; KB, KLEN and ERR are left; CTX0 is fresh and has absorbed
the inner pad of K0, so TLEN = 64 and PLEN = 0; CTX1 is Idle; HST is Accumulating. -/
def Obligations.HmacResetNormalisesAndKeys : Prop :=
  ∀ (s : State) (key : List Byte), s.mode = .hmac → s.kb = padKey key → s.klen = key.length →
    key.length ≤ lmax →
    (s.hst = .idle → 64 < key.length → s.ctx0 = absorbAll s.alg (started s.alg) key) →
    ∃ t, exec .reset s = .next t
      ∧ (s.hst = .idle → t.k0 = normkey s.alg key) ∧ (s.hst ≠ .idle → t.k0 = s.k0)
      ∧ t.ctx0 = absorbAll s.alg (started s.alg) (t.k0.toList.map (· ^^^ 0x36))
      ∧ t.ctx0.tlen = 64 ∧ t.ctx0.buf = [] ∧ t.ctx0.st = .accumulating
      ∧ t = { s with ctx0 := t.ctx0, ctx1 := Ctx.idle, hst := .accumulating, k0 := t.k0 }

/-- 43_hmac.md R292: the HMAC ADD answers a next state. Before a key is set it raises ESEQ; in Accumulating its bytes go
to CTX0; in Finalized it re-keys first, for CNT = 0 too; past LMAX it raises ELEN. -/
def Obligations.HmacAddResult : Prop :=
  ∀ (s : State) (n : Nat), n ≤ 4 → s.mode = .hmac →
    (s.hst = .idle → exec (.add n) s = .next { s with err := if s.err = .none then .eseq else s.err })
    ∧ (s.hst = .accumulating → s.ctx0.tlen + n ≤ lmax →
        exec (.add n) s = .next { s with ctx0 := absorbAll s.alg s.ctx0 (operandBytes s n) })
    ∧ (s.hst = .accumulating → s.ctx0.tlen + n > lmax →
        exec (.add n) s = .next { s with err := if s.err = .none then .elen else s.err })
    ∧ (s.hst = .finalized →
        exec (.add n) s = .next
          { s with
            ctx0 := absorbAll s.alg (started s.alg)
              (s.k0.toList.map (· ^^^ 0x36) ++ operandBytes s n)
            ctx1 := Ctx.idle
            hst := .accumulating })

/-- 43_hmac.md R294: the HMAC FINISH answers a next state. Before a key is set it raises ESEQ; on a Finalized HMAC it
changes nothing; in Accumulating, with CTX0 holding the inner pad of K0 and the message m, DOUT becomes the outer
digest, LEN still reads 64 + |m|, PLEN reads 0, CTX1.TLEN is 64 + DS, and nothing but the contexts and HST changes. -/
def Obligations.HmacFinishResult : Prop :=
  ∀ s : State, s.mode = .hmac →
    (s.hst = .idle → exec .finish s = .next { s with err := if s.err = .none then .eseq else s.err })
    ∧ (s.hst = .finalized → exec .finish s = .next s)
    ∧ (∀ m : List Byte, s.hst = .accumulating → 64 + m.length ≤ lmax →
        s.ctx0 = absorbAll s.alg (started s.alg) (s.k0.toList.map (· ^^^ 0x36) ++ m) →
        ∃ a b, exec .finish s = .next { s with ctx0 := a, ctx1 := b, hst := .finalized }
          ∧ extract s.alg b.h
              = hash s.alg (s.k0.toList.map (· ^^^ 0x5c)
                  ++ hash s.alg (s.k0.toList.map (· ^^^ 0x36) ++ m))
          ∧ a.st = .finalized ∧ a.buf = [] ∧ a.tlen = 64 + m.length
          ∧ b.st = .finalized ∧ b.buf = [] ∧ b.tlen = 64 + digestSize s.alg)

/-- 43_hmac.md R299: the table of the HMAC lifecycle. -/
def Obligations.HmacLifecycleTable : Prop :=
  ∀ (s : State) (i : Instr), s.mode = .hmac → i.wellFormed = true →
    ∃ t, exec i s = .next t ∧
      match i, s.hst with
      | .keyclr, _ => t.hst = .idle ∧ t.klen = 0 ∧ t.kb = State.reset.kb ∧ t.k0 = State.reset.k0
      | .key n, .idle =>
        t.hst = .idle
        ∧ (s.klen + n ≤ lmax → t.klen = s.klen + n ∧ t.err = s.err)
        ∧ (s.klen + n > lmax → t = { s with err := if s.err = .none then .elen else s.err })
      | .key _, .accumulating => t = { s with err := if s.err = .none then .eseq else s.err }
      | .key _, .finalized => t = { s with err := if s.err = .none then .eseq else s.err }
      | .reset, .idle => t = rekey (normalise s) ∧ t.hst = .accumulating
      | .reset, .accumulating => t = rekey s ∧ t.hst = .accumulating
      | .reset, .finalized => t = rekey s ∧ t.hst = .accumulating
      | .add _, .idle => t = { s with err := if s.err = .none then .eseq else s.err }
      | .add n, .accumulating =>
        t.hst = .accumulating
        ∧ (s.ctx0.tlen + n ≤ lmax → t.ctx0 = absorbAll s.alg s.ctx0 (operandBytes s n) ∧ t.err = s.err)
        ∧ (s.ctx0.tlen + n > lmax → t = { s with err := if s.err = .none then .elen else s.err })
      | .add n, .finalized =>
        t.hst = .accumulating ∧ t.ctx0 = absorbAll s.alg (rekey s).ctx0 (operandBytes s n) ∧ t.err = s.err
      | .finish, .idle => t = { s with err := if s.err = .none then .eseq else s.err }
      | .finish, .accumulating => t.hst = .finalized ∧ t.err = s.err
      | .finish, .finalized => t = s
      | .init _ mode, _ => t.hst = .idle ∧ t.mode = mode
      | .nop, _ => t.hst = s.hst
      | .clrerr, _ => t.hst = s.hst

/-- 43_hmac.md R295 and R296, on the bus: from any state with no command in progress, a host program that constructs an
HMAC of `alg` (or clears the key of one), loads the key in pieces of any sizes, resets, adds m in pieces of any sizes and
reads it by `digest` and `hexdigest` runs to its end; what it read spells `HMAC(alg, key, m)` as bytes and then as
lowercase hex, however key and m were split; and STATUS then shows DV = 1. (The host's actions as `todo` and what
its reads return as `got` are the model's choice: notes/assumptions/1.) -/
def Obligations.HmacProgramReadsTheMac : Prop :=
  ∀ (s : State) (alg : Alg) (start : List Asm) (p q : List (Word × Nat)) (rest : List HostOp),
    s.busy = false → (∀ x ∈ p ++ q, x.2 ≤ 4) → (carried p).length ≤ lmax → 64 + (carried q).length ≤ lmax →
    (start = [.init alg .hmac] ∨ (start = [.keyclr] ∧ s.mode = .hmac ∧ s.alg = alg)) →
    s.todo
      = assemble
          (start ++ p.flatMap (fun x => keyw x.1 x.2) ++ [.reset] ++ q.flatMap (fun x => addw x.1 x.2)
            ++ digest alg ++ hexdigest alg)
        ++ rest →
    ∃ t ws hs, reaches s t ∧ t.busy = false ∧ t.todo = rest ∧ t.got = s.got ++ ws ++ hs
      ∧ ws.flatMap bytes32 = hmac alg (carried p) (carried q)
      ∧ hs.flatMap bytes32
          = (hmac alg (carried p) (carried q)).flatMap
              (fun b => [hexc (b.extractLsb' 4 4), hexc (b.extractLsb' 0 4)])
      ∧ (regRead t .status).getLsbD 20 = true ∧ t.err = s.err

/-- 43_hmac.md R298: after a FINISH, ADDs of m' and a FINISH give `HMAC(ALG, key, m')` with the same key. -/
def Obligations.HmacReuseKeepsTheKey : Prop :=
  ∀ (s : State) (j : Job) (m : List Byte) (p : List (Word × Nat)),
    Represents s j → j.mode = .hmac → j.phase = .finalized m → p ≠ [] →
    (∀ x ∈ p, x.2 ≤ 4) → 64 + (carried p).length ≤ lmax →
    ∃ t u, feed .add p s = .next t ∧ exec .finish t = .next u
      ∧ u.dv = true ∧ extract u.alg u.ctx1.h = hmac j.alg j.key (carried p) ∧ u.err = s.err

/-! ## Errors -/

/-- 60_exceptions.md R332: a legal command, run with ERR = 0, leaves ESEQ exactly in the cases of the table. -/
def Obligations.EseqExactlyInItsCases : Prop :=
  ∀ (s : State) (i : Instr), s.err = .none → i.wellFormed = true →
    ∃ t, exec i s = .next t ∧
      (t.err = .eseq ↔
        match i with
        | .keyclr => s.mode = .plain
        | .key _ => s.mode = .plain ∨ (s.mode = .hmac ∧ s.hst ≠ .idle)
        | .add _ => s.mode = .hmac ∧ s.hst = .idle
        | .finish => s.mode = .hmac ∧ s.hst = .idle
        | .nop => False | .init _ _ => False | .reset => False | .clrerr => False)

/-- 60_exceptions.md R333: a legal command that the mode and state allow, run with ERR = 0, leaves ELEN exactly when it
would take TLEN or KLEN past 2^61 - 1. -/
def Obligations.ElenExactlyPastLmax : Prop :=
  ∀ (s : State) (i : Instr), s.err = .none → i.wellFormed = true → seqError i s = false →
    ∃ t, exec i s = .next t ∧
      (t.err = .elen ↔
        match i with
        | .add cnt =>
          (match s.mode with
            | .plain => (if s.ctx0.st = .accumulating then s.ctx0.tlen else 0) + cnt > 2 ^ 61 - 1
            | .hmac => (if s.hst = .accumulating then s.ctx0.tlen else 64) + cnt > 2 ^ 61 - 1)
        | .key cnt => s.klen + cnt > 2 ^ 61 - 1
        | .nop => False | .init _ _ => False | .reset => False
        | .finish => False | .keyclr => False | .clrerr => False)

/-- 60_exceptions.md R334: one code for each rejected command word: EILL, then ESEQ, then ELEN, the first check that
fails; a word that fails none leaves ERR, but for CLRERR. -/
def Obligations.OneErrorInCheckOrder : Prop :=
  ∀ s, commandDue s → ∃ t, step s = .next t ∧
    (errorOf s.cmdWord s ≠ .none → t.err = if s.err = .none then errorOf s.cmdWord s else s.err)
    ∧ (errorOf s.cmdWord s = .none → s.cmdWord ≠ 0x07000000 → t.err = s.err)
    ∧ (s.cmdWord = 0x07000000 → t.err = .none)

/-- 60_exceptions.md R336 and R337: a rejected command word changes nothing but ERR (and BUSY pulses), and ERR only when
it was 0; rejections are precise. -/
def Obligations.RejectionIsPrecise : Prop :=
  ∀ s, commandDue s → errorOf s.cmdWord s ≠ .none →
    step s = .next
      { s with err := if s.err = .none then errorOf s.cmdWord s else s.err, busy := false }

/-- 60_exceptions.md R338: CLRERR and hardware reset set ERR to 0, INIT does not, and while ERR is not 0 no other step
changes it. -/
def Obligations.ErrIsStickyUntilCleared : Prop :=
  (∀ s t, step s = .next t → s.err ≠ .none → t.err ≠ s.err →
      t.err = .none
      ∧ ((commandDue s ∧ s.cmdWord = 0x07000000)
        ∨ (hostTurn s ∧ ∃ p rest, s.todo = .cycle p :: rest ∧ p.rst = true)))
  ∧ (∀ s, commandDue s → s.cmdWord = 0x07000000 → ∃ t, step s = .next t ∧ t.err = .none)
  ∧ (∀ s p rest, hostTurn s → s.todo = .cycle p :: rest → p.rst = true →
      ∃ t, step s = .next t ∧ t.err = .none)
  ∧ ∀ s alg mode, ∃ t, exec (.init alg mode) s = .next t ∧ t.err = s.err

/-! ## Frames and whole-machine rules -/

/-- The frame of the commands (10_state.md R21-R37, R49): no command changes DIN, BUSY or cp; only INIT writes ALG and HM;
only KEY, KEYCLR and INIT write KB and KLEN; K0 is written only by KEYCLR, INIT and the RESET that normalises; in plain
mode only INIT writes CTX1, HST, KB, KLEN and K0; NOP and CLRERR write no context; and ERR is written only by CLRERR and
by the first rejection. (That no command changes the latch, the window's count, the draw counter and the host side is
the model's choice, no rule's: notes/assumptions/4, 2, 3 and 1.) -/
def Obligations.CommandFrame : Prop :=
  ∀ (s t : State) (i : Instr), exec i s = .next t →
    (t.din = s.din ∧ t.busy = s.busy ∧ t.cp = s.cp ∧ t.cmdWord = s.cmdWord ∧ t.cmdData = s.cmdData
        ∧ t.latLeft = s.latLeft ∧ t.draws = s.draws ∧ t.todo = s.todo ∧ t.got = s.got)
    ∧ ((∀ alg mode, i ≠ .init alg mode) → t.alg = s.alg ∧ t.mode = s.mode)
    ∧ ((∀ alg mode, i ≠ .init alg mode) → i ≠ .keyclr → (∀ n, i ≠ .key n) → t.kb = s.kb ∧ t.klen = s.klen)
    ∧ ((∀ alg mode, i ≠ .init alg mode) → i ≠ .keyclr →
        ¬ (i = .reset ∧ s.mode = .hmac ∧ s.hst = .idle) → t.k0 = s.k0)
    ∧ ((∀ alg mode, i ≠ .init alg mode) → s.mode = .plain →
        t.ctx1 = s.ctx1 ∧ t.hst = s.hst ∧ t.kb = s.kb ∧ t.klen = s.klen ∧ t.k0 = s.k0)
    ∧ ((∀ alg mode, i ≠ .init alg mode) → i ≠ .keyclr → (∀ n, i ≠ .add n) → i ≠ .reset → i ≠ .finish →
        t.ctx1 = s.ctx1 ∧ t.hst = s.hst ∧ ((∀ n, i ≠ .key n) → t.ctx0 = s.ctx0))
    ∧ (i ≠ .clrerr → s.err ≠ .none → t.err = s.err)

/-- 10_state.md R49 and R35, hardware reset apart: KLONG changes only by KEY, KEYCLR and INIT; ALG and HM only by INIT; ST
and DV only by commands of the lifecycle; PLEN only by those and by KEY, which absorb bytes, reset, clear or finalize
CTX0; ERR only by CLRERR, which clears it, and by a rejection, which writes its code where there was none; and BUSY only
at an acceptance and a completion. -/
def Obligations.FlagsChangeOnlyByNamedCommands : Prop :=
  ∀ s t, step s = .next t → (∀ p rest, s.todo = .cycle p :: rest → p.rst = false) →
    (t.klong ≠ s.klong →
        commandDue s
          ∧ (opField s.cmdWord = 0x06 ∨ opField s.cmdWord = 0x05 ∨ opField s.cmdWord = 0x01))
    ∧ (t.alg ≠ s.alg ∨ t.mode ≠ s.mode → commandDue s ∧ opField s.cmdWord = 0x01)
    ∧ (t.life ≠ s.life ∨ t.dv ≠ s.dv → commandDue s ∧
        (opField s.cmdWord = 0x01 ∨ opField s.cmdWord = 0x02 ∨ opField s.cmdWord = 0x03
          ∨ opField s.cmdWord = 0x04 ∨ opField s.cmdWord = 0x05))
    ∧ (t.plen ≠ s.plen → commandDue s ∧
        (opField s.cmdWord = 0x01 ∨ opField s.cmdWord = 0x02 ∨ opField s.cmdWord = 0x03
          ∨ opField s.cmdWord = 0x04 ∨ opField s.cmdWord = 0x05 ∨ opField s.cmdWord = 0x06))
    ∧ (t.err ≠ s.err → commandDue s ∧
        ((s.cmdWord = 0x07000000 ∧ t.err = .none)
          ∨ (s.err = .none ∧ errorOf s.cmdWord s ≠ .none ∧ t.err = errorOf s.cmdWord s)))
    ∧ (t.busy ≠ s.busy → commandDue s ∨ (s.busy = false ∧ t.cp = s.cp + 1))

/-! ## The invariant and the refinement -/

/-- The state after hardware reset holds an instance: a plain SHA-1 digest, Idle, with no key (10_state.md R50,
70_reset_and_hazards.md R373). -/
def Obligations.ResetIsSound : Prop :=
  Represents State.reset { alg := .sha1, mode := .plain, key := [], phase := .idle, err := .none }

/-- Every step keeps the invariant: from a state that holds some instance, a step leads to a state that holds some
instance. -/
def Obligations.EveryStepKeepsSound : Prop :=
  ∀ s t, Sound s → step s = .next t → Sound t

/-- The commands refine the source's interface: a command, run on a state that holds the instance j, leaves a state that
holds what the command makes of j, for every command and every latched DIN (40_accumulator.md R149-R161, 43_hmac.md
R280-R299). -/
def Obligations.CommandsRefineTheInstance : Prop :=
  ∀ (s : State) (j : Job) (i : Instr), Represents s j →
    ∃ t, exec i s = .next t ∧ Represents t (j.command i s.cmdData)

/-- What the registers show of an instance, with BUSY = 0: the digest in DOUT once the message is finalized, CTX0's length
in LEN and its remainder in PLEN, and the lifecycle in ST (10_state.md R41-R46). -/
def Obligations.ReadoutShowsTheInstance : Prop :=
  ∀ (s : State) (j : Job), Represents s j →
    (∀ m, j.phase = .finalized m →
      s.dv = true
      ∧ (((List.finRange 8).take (digestSize j.alg / 4)).map fun i => regRead s (.dout i)).flatMap bytes32
          = j.digestOf m)
    ∧ ((∀ m, j.phase ≠ .finalized m) → s.dv = false)
    ∧ s.life = j.phase.life
    ∧ (j.phase ≠ .idle → s.ctx0.tlen = j.padLength + j.phase.message.length)
    ∧ (∀ m, j.phase = .accumulating m → s.plen.toNat = m.length % 64)
    ∧ (s.klong = true ↔ j.mode = .hmac ∧ 64 < j.key.length)

/-- 10_state.md R51: the invariants that hold between any two commands hold of every sound state, with a key whose
first bytes KB holds. -/
def Obligations.SoundStatesAreRegular : Prop :=
  ∀ s, Sound s → ∃ key, s.kb = padKey key ∧ regularWith s key
end

