-- ==== Sys2Proof/Laws/Bits.lean ====
section
/-! SUPPORT. `BE32` and `bytes32` are inverse to one another (00_scope.md R10), and the words of a byte sequence. -/

namespace Sys2Proof.Machine

theorem bytes32_be32 (s0 s1 s2 s3 : Byte) : bytes32 (be32 s0 s1 s2 s3) = [s0, s1, s2, s3] := by
  have h (a b : Byte) : a = b ↔ a.toNat = b.toNat := BitVec.toNat_inj.symm
  simp only [bytes32, be32, List.cons.injEq, and_true]
  refine ⟨?_, ?_, ?_, ?_⟩ <;>
    · ext i hi
      simp only [BitVec.getElem_extractLsb', BitVec.getLsbD_append]
      grind

/-- The words of a byte sequence, four bytes each. -/
theorem blockWords_length (b : List Byte) : (blockWords b).length = b.length / 4 := by
  fun_induction blockWords b with
  | case1 s0 s1 s2 s3 rest ih => simp [ih]; omega
  | case2 b h =>
    match b, h with
    | [], _ => rfl
    | [_], _ => simp
    | [_, _], _ => simp
    | [_, _, _], _ => simp
    | s0 :: s1 :: s2 :: s3 :: rest, h => exact absurd rfl (h s0 s1 s2 s3 rest)

/-- Word t is `BE32` of bytes 4t to 4t + 3 (41_sha1_engine.md R204). -/
theorem blockWords_getElem? (b : List Byte) (t : Nat) (h : 4 * t + 4 ≤ b.length) :
    (blockWords b)[t]?
      = some (be32 (b.getD (4 * t) 0) (b.getD (4 * t + 1) 0) (b.getD (4 * t + 2) 0) (b.getD (4 * t + 3) 0)) := by
  induction t generalizing b with
  | zero =>
    match b, h with
    | s0 :: s1 :: s2 :: s3 :: rest, _ => simp [blockWords]
  | succ t ih =>
    match b, h with
    | s0 :: s1 :: s2 :: s3 :: rest, h =>
      rw [blockWords, List.getElem?_cons_succ, ih _ (by simp at h; omega), show 4 * (t + 1) = 4 * t + 4 by ring]
      rfl

theorem blockWords_append (s0 s1 s2 s3 : Byte) (rest : List Byte) :
    blockWords (s0 :: s1 :: s2 :: s3 :: rest) = be32 s0 s1 s2 s3 :: blockWords rest := rfl

end Sys2Proof.Machine
end

