-- ==== Sys2Proof/Laws/Context.lean ====
section
/-! SUPPORT. What the context functions do, said once: the bytes and words of the readout, the padding's length, and
`absorbAll` by blocks. -/

namespace Sys2Proof.Machine

/-! ## Bytes and words -/

@[simp] theorem bytes32_length (w : Word) : (bytes32 w).length = 4 := rfl

@[simp] theorem bytes64_length (v : BitVec 64) : (bytes64 v).length = 8 := rfl

theorem flatMap_bytes32_length (ws : List Word) : (ws.flatMap bytes32).length = 4 * ws.length := by
  induction ws with
  | nil => rfl
  | cons w ws ih => simp [List.flatMap_cons, ih]; omega

@[simp] theorem HashState.words_length (h : HashState) : h.words.length = 8 := rfl

theorem digestSize_le (alg : Alg) : digestSize alg ≤ 32 := by cases alg <;> decide

/-- An extracted digest has DS bytes (00_scope.md R6). -/
@[simp] theorem extract_length (alg : Alg) (h : HashState) : (extract alg h).length = digestSize alg := by
  rw [extract, flatMap_bytes32_length, digestWords, List.length_take, HashState.words_length]
  cases alg <;> rfl

@[simp] theorem hash_length (alg : Alg) (m : List Byte) : (hash alg m).length = digestSize alg := by
  simp [hash]

/-! ## 64-byte arrays -/

@[simp] theorem xorPad_length (k : Vector Byte 64) (b : Byte) : (xorPad k b).length = 64 := by simp [xorPad]

@[simp] theorem padKey_toList (bytes : List Byte) :
    (padKey bytes).toList = (bytes ++ List.replicate 64 0).take 64 := by
  simp [padKey, Vector.toList]

theorem padKey_nil : padKey [] = zeroKey := by decide

/-- Only the first 64 bytes of a sequence stand in its array. -/
theorem padKey_append_of_full (key bytes : List Byte) (h : 64 ≤ key.length) :
    padKey (key ++ bytes) = padKey key := by
  apply Vector.toList_inj.mp
  simp only [padKey_toList, List.append_assoc]
  rw [List.take_append_of_le_length h, List.take_append_of_le_length h]

theorem padKey_toList_of_full (key : List Byte) (h : key.length = 64) : (padKey key).toList = key := by
  rw [padKey_toList, List.take_append_of_le_length (by omega), List.take_of_length_le (by omega)]

/-- The next byte is written behind the first ones. -/
theorem padKey_set (key : List Byte) (b : Byte) (h : key.length < 64) :
    (padKey key).setIfInBounds key.length b = padKey (key ++ [b]) := by
  apply Vector.toList_inj.mp
  apply List.ext_getElem?
  intro i
  rw [Vector.toList_setIfInBounds, List.getElem?_set, padKey_toList, padKey_toList]
  simp only [List.getElem?_take, List.getElem?_append, List.length_append, List.length_cons,
    List.length_nil, List.getElem?_replicate, List.length_take, List.length_replicate]
  grind

/-! ## Contexts -/

/-- ctx_reset does not depend on what the context was (40_accumulator.md R145). -/
theorem ctxReset_any (alg : Alg) (c d : Ctx) : ctxReset alg c = ctxReset alg d := rfl

@[simp] theorem ctxReset_st (alg : Alg) (c : Ctx) : (ctxReset alg c).st = .accumulating := rfl
@[simp] theorem ctxReset_buf (alg : Alg) (c : Ctx) : (ctxReset alg c).buf = [] := rfl
@[simp] theorem ctxReset_tlen (alg : Alg) (c : Ctx) : (ctxReset alg c).tlen = 0 := rfl
@[simp] theorem ctxReset_h (alg : Alg) (c : Ctx) : (ctxReset alg c).h = iv alg := rfl

@[simp] theorem ctxFinalize_st (alg : Alg) (c : Ctx) : (ctxFinalize alg c).st = .finalized := rfl
@[simp] theorem ctxFinalize_buf (alg : Alg) (c : Ctx) : (ctxFinalize alg c).buf = [] := rfl
@[simp] theorem ctxFinalize_tlen (alg : Alg) (c : Ctx) : (ctxFinalize alg c).tlen = c.tlen := rfl

@[simp] theorem absorb_st (alg : Alg) (c : Ctx) (b : Byte) : (absorb alg c b).st = c.st := by
  simp only [absorb]; split <;> rfl

@[simp] theorem absorb_tlen (alg : Alg) (c : Ctx) (b : Byte) : (absorb alg c b).tlen = c.tlen + 1 := by
  simp only [absorb]; split <;> rfl

@[simp] theorem absorbAll_nil (alg : Alg) (c : Ctx) : absorbAll alg c [] = c := rfl

@[simp] theorem absorbAll_cons (alg : Alg) (c : Ctx) (b : Byte) (bs : List Byte) :
    absorbAll alg c (b :: bs) = absorbAll alg (absorb alg c b) bs := rfl

/-- A sequence may be absorbed in pieces (40_accumulator.md R155). -/
theorem absorbAll_append (alg : Alg) (c : Ctx) (xs ys : List Byte) :
    absorbAll alg c (xs ++ ys) = absorbAll alg (absorbAll alg c xs) ys := by
  simp [absorbAll]

@[simp] theorem absorbAll_st (alg : Alg) (c : Ctx) (bs : List Byte) : (absorbAll alg c bs).st = c.st := by
  induction bs generalizing c with
  | nil => rfl
  | cons b bs ih => simp [ih]

@[simp] theorem absorbAll_tlen (alg : Alg) (c : Ctx) (bs : List Byte) :
    (absorbAll alg c bs).tlen = c.tlen + bs.length := by
  induction bs generalizing c with
  | nil => rfl
  | cons b bs ih => simp [ih]; omega

/-- Bytes that do not fill the buffer are appended to it. -/
theorem absorbAll_short (alg : Alg) (c : Ctx) (bs : List Byte) (h : c.buf.length + bs.length < 64) :
    absorbAll alg c bs = { c with buf := c.buf ++ bs, tlen := c.tlen + bs.length } := by
  induction bs generalizing c with
  | nil => simp
  | cons b bs ih =>
    have hb : absorb alg c b = { c with buf := c.buf ++ [b], tlen := c.tlen + 1 } := by
      simp only [absorb, blockSize, List.length_append, List.length_cons, List.length_nil]
      rw [if_neg (by simp at h; omega)]
    rw [absorbAll_cons, hb, ih _ (by simp at h ⊢; omega)]
    simp only [Ctx.mk.injEq, List.append_assoc, List.cons_append, List.nil_append, List.length_cons,
      true_and, and_true]
    omega

/-- Bytes that fill the buffer exactly are compressed with what it held. -/
theorem absorbAll_fills (alg : Alg) (c : Ctx) (bs : List Byte) (h : c.buf.length + bs.length = 64)
    (hb : bs ≠ []) :
    absorbAll alg c bs
      = { c with buf := [], tlen := c.tlen + bs.length, h := compress alg c.h (c.buf ++ bs) } := by
  obtain ⟨init, last, rfl⟩ : ∃ init last, bs = init ++ [last] :=
    ⟨bs.dropLast, bs.getLast hb, (List.dropLast_append_getLast hb).symm⟩
  simp only [List.length_append, List.length_cons, List.length_nil] at h
  rw [absorbAll_append, absorbAll_short alg c init (by omega)]
  simp only [absorbAll_cons, absorbAll_nil, absorb, blockSize, List.length_append, List.length_cons,
    List.length_nil]
  rw [if_pos (by omega)]
  simp [Nat.add_assoc]

/-! ## Blocks -/

theorem compressBlocks_add (alg : Alg) (a b : Nat) (h : HashState) (bytes : List Byte) :
    compressBlocks alg (a + b) h bytes
      = compressBlocks alg b (compressBlocks alg a h bytes) (bytes.drop (64 * a)) := by
  induction a generalizing h bytes with
  | zero => simp [compressBlocks]
  | succ a ih =>
    rw [show a + 1 + b = (a + b) + 1 by omega]
    simp only [compressBlocks, ih, List.drop_drop, blockSize]
    rw [show 64 + 64 * a = 64 * (a + 1) by omega]

theorem compressBlocks_append (alg : Alg) (a : Nat) (h : HashState) (xs ys : List Byte)
    (hx : 64 * a ≤ xs.length) : compressBlocks alg a h (xs ++ ys) = compressBlocks alg a h xs := by
  induction a generalizing h xs with
  | zero => rfl
  | succ a ih =>
    simp only [compressBlocks, blockSize]
    rw [List.take_append_of_le_length (by omega), List.drop_append_of_le_length (by omega),
      ih _ _ (by simp; omega)]

/-- From an empty buffer: the whole blocks are compressed in order, the rest is buffered. -/
theorem absorbAll_blocks (alg : Alg) (c : Ctx) (m : List Byte) (hc : c.buf = []) :
    absorbAll alg c m
      = { c with
          buf := m.drop (64 * (m.length / 64))
          tlen := c.tlen + m.length
          h := compressBlocks alg (m.length / 64) c.h m } := by
  induction hn : m.length / 64 generalizing c m with
  | zero =>
    rw [absorbAll_short alg c m (by simp [hc]; omega)]
    simp [hc, compressBlocks]
  | succ n ih =>
    have hlen : 64 * (n + 1) ≤ m.length := by omega
    conv => lhs; rw [← List.take_append_drop 64 m]
    rw [absorbAll_append, absorbAll_fills alg c (m.take 64) (by simp [hc]; omega)
      (by intro h; have := congrArg List.length h; rw [List.length_take, List.length_nil] at this; omega)]
    rw [ih _ (m.drop 64) rfl (by rw [List.length_drop]; omega)]
    simp only [hc, List.nil_append, List.length_take, List.length_drop, List.drop_drop, compressBlocks,
      blockSize, Ctx.mk.injEq, true_and]
    refine ⟨?_, ?_, trivial⟩
    · congr 1; omega
    · omega

theorem absorbAll_buf_length (alg : Alg) (c : Ctx) (m : List Byte) (hc : c.buf = []) :
    (absorbAll alg c m).buf.length = m.length % 64 := by
  rw [absorbAll_blocks alg c m hc]; simp; omega

/-! ## Padding -/

theorem zeroCount_lt (n : Nat) : zeroCount n < 64 := Nat.mod_lt _ (by decide)

/-- The padded length is a whole number of blocks (40_accumulator.md R161). -/
theorem padded_length (bytes : List Byte) (total : Nat) :
    (padded bytes total).length = bytes.length + 9 + zeroCount bytes.length := by
  simp [padded]; omega

theorem padded_length_dvd (bytes : List Byte) (total : Nat) : 64 ∣ (padded bytes total).length := by
  rw [padded_length, zeroCount]; omega

end Sys2Proof.Machine
end

