-- ==== Sys2Proof/Laws/State.lean ====
section
/-! SUPPORT. One lemma for each field under each named update of Machine/Ops.lean, so that no later proof unfolds a record
update; and the same for the HMAC controller's state functions. -/

namespace Sys2Proof.Machine

variable (s : State)

/-! ### State.reject -/

@[simp] theorem State.reject_alg (c : ErrCode) : (s.reject c).alg = s.alg := rfl
@[simp] theorem State.reject_mode (c : ErrCode) : (s.reject c).mode = s.mode := rfl
@[simp] theorem State.reject_ctx0 (c : ErrCode) : (s.reject c).ctx0 = s.ctx0 := rfl
@[simp] theorem State.reject_ctx1 (c : ErrCode) : (s.reject c).ctx1 = s.ctx1 := rfl
@[simp] theorem State.reject_hst (c : ErrCode) : (s.reject c).hst = s.hst := rfl
@[simp] theorem State.reject_kb (c : ErrCode) : (s.reject c).kb = s.kb := rfl
@[simp] theorem State.reject_klen (c : ErrCode) : (s.reject c).klen = s.klen := rfl
@[simp] theorem State.reject_k0 (c : ErrCode) : (s.reject c).k0 = s.k0 := rfl
@[simp] theorem State.reject_err (c : ErrCode) : (s.reject c).err = if s.err = .none then c else s.err := rfl
@[simp] theorem State.reject_din (c : ErrCode) : (s.reject c).din = s.din := rfl
@[simp] theorem State.reject_busy (c : ErrCode) : (s.reject c).busy = s.busy := rfl
@[simp] theorem State.reject_cmdWord (c : ErrCode) : (s.reject c).cmdWord = s.cmdWord := rfl
@[simp] theorem State.reject_cmdData (c : ErrCode) : (s.reject c).cmdData = s.cmdData := rfl
@[simp] theorem State.reject_cp (c : ErrCode) : (s.reject c).cp = s.cp := rfl
@[simp] theorem State.reject_latLeft (c : ErrCode) : (s.reject c).latLeft = s.latLeft := rfl
@[simp] theorem State.reject_draws (c : ErrCode) : (s.reject c).draws = s.draws := rfl
@[simp] theorem State.reject_todo (c : ErrCode) : (s.reject c).todo = s.todo := rfl
@[simp] theorem State.reject_got (c : ErrCode) : (s.reject c).got = s.got := rfl

/-! ### State.clearErr -/

@[simp] theorem State.clearErr_alg : s.clearErr.alg = s.alg := rfl
@[simp] theorem State.clearErr_mode : s.clearErr.mode = s.mode := rfl
@[simp] theorem State.clearErr_ctx0 : s.clearErr.ctx0 = s.ctx0 := rfl
@[simp] theorem State.clearErr_ctx1 : s.clearErr.ctx1 = s.ctx1 := rfl
@[simp] theorem State.clearErr_hst : s.clearErr.hst = s.hst := rfl
@[simp] theorem State.clearErr_kb : s.clearErr.kb = s.kb := rfl
@[simp] theorem State.clearErr_klen : s.clearErr.klen = s.klen := rfl
@[simp] theorem State.clearErr_k0 : s.clearErr.k0 = s.k0 := rfl
@[simp] theorem State.clearErr_err : s.clearErr.err = .none := rfl
@[simp] theorem State.clearErr_din : s.clearErr.din = s.din := rfl
@[simp] theorem State.clearErr_busy : s.clearErr.busy = s.busy := rfl
@[simp] theorem State.clearErr_cmdWord : s.clearErr.cmdWord = s.cmdWord := rfl
@[simp] theorem State.clearErr_cmdData : s.clearErr.cmdData = s.cmdData := rfl
@[simp] theorem State.clearErr_cp : s.clearErr.cp = s.cp := rfl
@[simp] theorem State.clearErr_latLeft : s.clearErr.latLeft = s.latLeft := rfl
@[simp] theorem State.clearErr_draws : s.clearErr.draws = s.draws := rfl
@[simp] theorem State.clearErr_todo : s.clearErr.todo = s.todo := rfl
@[simp] theorem State.clearErr_got : s.clearErr.got = s.got := rfl

/-! ### State.accept -/

@[simp] theorem State.accept_alg (w : Word) (lat : Nat) : (s.accept w lat).alg = s.alg := rfl
@[simp] theorem State.accept_mode (w : Word) (lat : Nat) : (s.accept w lat).mode = s.mode := rfl
@[simp] theorem State.accept_ctx0 (w : Word) (lat : Nat) : (s.accept w lat).ctx0 = s.ctx0 := rfl
@[simp] theorem State.accept_ctx1 (w : Word) (lat : Nat) : (s.accept w lat).ctx1 = s.ctx1 := rfl
@[simp] theorem State.accept_hst (w : Word) (lat : Nat) : (s.accept w lat).hst = s.hst := rfl
@[simp] theorem State.accept_kb (w : Word) (lat : Nat) : (s.accept w lat).kb = s.kb := rfl
@[simp] theorem State.accept_klen (w : Word) (lat : Nat) : (s.accept w lat).klen = s.klen := rfl
@[simp] theorem State.accept_k0 (w : Word) (lat : Nat) : (s.accept w lat).k0 = s.k0 := rfl
@[simp] theorem State.accept_err (w : Word) (lat : Nat) : (s.accept w lat).err = s.err := rfl
@[simp] theorem State.accept_din (w : Word) (lat : Nat) : (s.accept w lat).din = s.din := rfl
@[simp] theorem State.accept_busy (w : Word) (lat : Nat) : (s.accept w lat).busy = true := rfl
@[simp] theorem State.accept_cmdWord (w : Word) (lat : Nat) : (s.accept w lat).cmdWord = w := rfl
@[simp] theorem State.accept_cmdData (w : Word) (lat : Nat) : (s.accept w lat).cmdData = s.din := rfl
@[simp] theorem State.accept_cp (w : Word) (lat : Nat) : (s.accept w lat).cp = s.cp + 1 := rfl
@[simp] theorem State.accept_latLeft (w : Word) (lat : Nat) : (s.accept w lat).latLeft = lat := rfl
@[simp] theorem State.accept_draws (w : Word) (lat : Nat) : (s.accept w lat).draws = s.draws := rfl
@[simp] theorem State.accept_todo (w : Word) (lat : Nat) : (s.accept w lat).todo = s.todo := rfl
@[simp] theorem State.accept_got (w : Word) (lat : Nat) : (s.accept w lat).got = s.got := rfl

/-! ### State.release -/

@[simp] theorem State.release_alg : s.release.alg = s.alg := rfl
@[simp] theorem State.release_mode : s.release.mode = s.mode := rfl
@[simp] theorem State.release_ctx0 : s.release.ctx0 = s.ctx0 := rfl
@[simp] theorem State.release_ctx1 : s.release.ctx1 = s.ctx1 := rfl
@[simp] theorem State.release_hst : s.release.hst = s.hst := rfl
@[simp] theorem State.release_kb : s.release.kb = s.kb := rfl
@[simp] theorem State.release_klen : s.release.klen = s.klen := rfl
@[simp] theorem State.release_k0 : s.release.k0 = s.k0 := rfl
@[simp] theorem State.release_err : s.release.err = s.err := rfl
@[simp] theorem State.release_din : s.release.din = s.din := rfl
@[simp] theorem State.release_busy : s.release.busy = false := rfl
@[simp] theorem State.release_cmdWord : s.release.cmdWord = s.cmdWord := rfl
@[simp] theorem State.release_cmdData : s.release.cmdData = s.cmdData := rfl
@[simp] theorem State.release_cp : s.release.cp = s.cp := rfl
@[simp] theorem State.release_latLeft : s.release.latLeft = s.latLeft := rfl
@[simp] theorem State.release_draws : s.release.draws = s.draws := rfl
@[simp] theorem State.release_todo : s.release.todo = s.todo := rfl
@[simp] theorem State.release_got : s.release.got = s.got := rfl

/-! ### State.tick -/

@[simp] theorem State.tick_alg : s.tick.alg = s.alg := rfl
@[simp] theorem State.tick_mode : s.tick.mode = s.mode := rfl
@[simp] theorem State.tick_ctx0 : s.tick.ctx0 = s.ctx0 := rfl
@[simp] theorem State.tick_ctx1 : s.tick.ctx1 = s.ctx1 := rfl
@[simp] theorem State.tick_hst : s.tick.hst = s.hst := rfl
@[simp] theorem State.tick_kb : s.tick.kb = s.kb := rfl
@[simp] theorem State.tick_klen : s.tick.klen = s.klen := rfl
@[simp] theorem State.tick_k0 : s.tick.k0 = s.k0 := rfl
@[simp] theorem State.tick_err : s.tick.err = s.err := rfl
@[simp] theorem State.tick_din : s.tick.din = s.din := rfl
@[simp] theorem State.tick_busy : s.tick.busy = s.busy := rfl
@[simp] theorem State.tick_cmdWord : s.tick.cmdWord = s.cmdWord := rfl
@[simp] theorem State.tick_cmdData : s.tick.cmdData = s.cmdData := rfl
@[simp] theorem State.tick_cp : s.tick.cp = s.cp := rfl
@[simp] theorem State.tick_latLeft : s.tick.latLeft = s.latLeft - 1 := rfl
@[simp] theorem State.tick_draws : s.tick.draws = s.draws := rfl
@[simp] theorem State.tick_todo : s.tick.todo = s.todo := rfl
@[simp] theorem State.tick_got : s.tick.got = s.got := rfl

/-! ### State.writeDin -/

@[simp] theorem State.writeDin_alg (v : Word) : (s.writeDin v).alg = s.alg := rfl
@[simp] theorem State.writeDin_mode (v : Word) : (s.writeDin v).mode = s.mode := rfl
@[simp] theorem State.writeDin_ctx0 (v : Word) : (s.writeDin v).ctx0 = s.ctx0 := rfl
@[simp] theorem State.writeDin_ctx1 (v : Word) : (s.writeDin v).ctx1 = s.ctx1 := rfl
@[simp] theorem State.writeDin_hst (v : Word) : (s.writeDin v).hst = s.hst := rfl
@[simp] theorem State.writeDin_kb (v : Word) : (s.writeDin v).kb = s.kb := rfl
@[simp] theorem State.writeDin_klen (v : Word) : (s.writeDin v).klen = s.klen := rfl
@[simp] theorem State.writeDin_k0 (v : Word) : (s.writeDin v).k0 = s.k0 := rfl
@[simp] theorem State.writeDin_err (v : Word) : (s.writeDin v).err = s.err := rfl
@[simp] theorem State.writeDin_din (v : Word) : (s.writeDin v).din = v := rfl
@[simp] theorem State.writeDin_busy (v : Word) : (s.writeDin v).busy = s.busy := rfl
@[simp] theorem State.writeDin_cmdWord (v : Word) : (s.writeDin v).cmdWord = s.cmdWord := rfl
@[simp] theorem State.writeDin_cmdData (v : Word) : (s.writeDin v).cmdData = s.cmdData := rfl
@[simp] theorem State.writeDin_cp (v : Word) : (s.writeDin v).cp = s.cp := rfl
@[simp] theorem State.writeDin_latLeft (v : Word) : (s.writeDin v).latLeft = s.latLeft := rfl
@[simp] theorem State.writeDin_draws (v : Word) : (s.writeDin v).draws = s.draws := rfl
@[simp] theorem State.writeDin_todo (v : Word) : (s.writeDin v).todo = s.todo := rfl
@[simp] theorem State.writeDin_got (v : Word) : (s.writeDin v).got = s.got := rfl

/-! ### State.receive -/

@[simp] theorem State.receive_alg (v : Word) : (s.receive v).alg = s.alg := rfl
@[simp] theorem State.receive_mode (v : Word) : (s.receive v).mode = s.mode := rfl
@[simp] theorem State.receive_ctx0 (v : Word) : (s.receive v).ctx0 = s.ctx0 := rfl
@[simp] theorem State.receive_ctx1 (v : Word) : (s.receive v).ctx1 = s.ctx1 := rfl
@[simp] theorem State.receive_hst (v : Word) : (s.receive v).hst = s.hst := rfl
@[simp] theorem State.receive_kb (v : Word) : (s.receive v).kb = s.kb := rfl
@[simp] theorem State.receive_klen (v : Word) : (s.receive v).klen = s.klen := rfl
@[simp] theorem State.receive_k0 (v : Word) : (s.receive v).k0 = s.k0 := rfl
@[simp] theorem State.receive_err (v : Word) : (s.receive v).err = s.err := rfl
@[simp] theorem State.receive_din (v : Word) : (s.receive v).din = s.din := rfl
@[simp] theorem State.receive_busy (v : Word) : (s.receive v).busy = s.busy := rfl
@[simp] theorem State.receive_cmdWord (v : Word) : (s.receive v).cmdWord = s.cmdWord := rfl
@[simp] theorem State.receive_cmdData (v : Word) : (s.receive v).cmdData = s.cmdData := rfl
@[simp] theorem State.receive_cp (v : Word) : (s.receive v).cp = s.cp := rfl
@[simp] theorem State.receive_latLeft (v : Word) : (s.receive v).latLeft = s.latLeft := rfl
@[simp] theorem State.receive_draws (v : Word) : (s.receive v).draws = s.draws := rfl
@[simp] theorem State.receive_todo (v : Word) : (s.receive v).todo = s.todo := rfl
@[simp] theorem State.receive_got (v : Word) : (s.receive v).got = s.got ++ [v] := rfl

/-! ### State.drawn -/

@[simp] theorem State.drawn_alg : s.drawn.alg = s.alg := rfl
@[simp] theorem State.drawn_mode : s.drawn.mode = s.mode := rfl
@[simp] theorem State.drawn_ctx0 : s.drawn.ctx0 = s.ctx0 := rfl
@[simp] theorem State.drawn_ctx1 : s.drawn.ctx1 = s.ctx1 := rfl
@[simp] theorem State.drawn_hst : s.drawn.hst = s.hst := rfl
@[simp] theorem State.drawn_kb : s.drawn.kb = s.kb := rfl
@[simp] theorem State.drawn_klen : s.drawn.klen = s.klen := rfl
@[simp] theorem State.drawn_k0 : s.drawn.k0 = s.k0 := rfl
@[simp] theorem State.drawn_err : s.drawn.err = s.err := rfl
@[simp] theorem State.drawn_din : s.drawn.din = s.din := rfl
@[simp] theorem State.drawn_busy : s.drawn.busy = s.busy := rfl
@[simp] theorem State.drawn_cmdWord : s.drawn.cmdWord = s.cmdWord := rfl
@[simp] theorem State.drawn_cmdData : s.drawn.cmdData = s.cmdData := rfl
@[simp] theorem State.drawn_cp : s.drawn.cp = s.cp := rfl
@[simp] theorem State.drawn_latLeft : s.drawn.latLeft = s.latLeft := rfl
@[simp] theorem State.drawn_draws : s.drawn.draws = s.draws + 1 := rfl
@[simp] theorem State.drawn_todo : s.drawn.todo = s.todo := rfl
@[simp] theorem State.drawn_got : s.drawn.got = s.got := rfl

/-! ### State.advance -/

@[simp] theorem State.advance_alg (l : List HostOp) : (s.advance l).alg = s.alg := rfl
@[simp] theorem State.advance_mode (l : List HostOp) : (s.advance l).mode = s.mode := rfl
@[simp] theorem State.advance_ctx0 (l : List HostOp) : (s.advance l).ctx0 = s.ctx0 := rfl
@[simp] theorem State.advance_ctx1 (l : List HostOp) : (s.advance l).ctx1 = s.ctx1 := rfl
@[simp] theorem State.advance_hst (l : List HostOp) : (s.advance l).hst = s.hst := rfl
@[simp] theorem State.advance_kb (l : List HostOp) : (s.advance l).kb = s.kb := rfl
@[simp] theorem State.advance_klen (l : List HostOp) : (s.advance l).klen = s.klen := rfl
@[simp] theorem State.advance_k0 (l : List HostOp) : (s.advance l).k0 = s.k0 := rfl
@[simp] theorem State.advance_err (l : List HostOp) : (s.advance l).err = s.err := rfl
@[simp] theorem State.advance_din (l : List HostOp) : (s.advance l).din = s.din := rfl
@[simp] theorem State.advance_busy (l : List HostOp) : (s.advance l).busy = s.busy := rfl
@[simp] theorem State.advance_cmdWord (l : List HostOp) : (s.advance l).cmdWord = s.cmdWord := rfl
@[simp] theorem State.advance_cmdData (l : List HostOp) : (s.advance l).cmdData = s.cmdData := rfl
@[simp] theorem State.advance_cp (l : List HostOp) : (s.advance l).cp = s.cp := rfl
@[simp] theorem State.advance_latLeft (l : List HostOp) : (s.advance l).latLeft = s.latLeft := rfl
@[simp] theorem State.advance_draws (l : List HostOp) : (s.advance l).draws = s.draws := rfl
@[simp] theorem State.advance_todo (l : List HostOp) : (s.advance l).todo = l := rfl
@[simp] theorem State.advance_got (l : List HostOp) : (s.advance l).got = s.got := rfl

/-! ### State.fresh -/

@[simp] theorem State.fresh_alg : s.fresh.alg = s.alg := rfl
@[simp] theorem State.fresh_mode : s.fresh.mode = s.mode := rfl
@[simp] theorem State.fresh_ctx0 : s.fresh.ctx0 = ctxClear := rfl
@[simp] theorem State.fresh_ctx1 : s.fresh.ctx1 = ctxClear := rfl
@[simp] theorem State.fresh_hst : s.fresh.hst = .idle := rfl
@[simp] theorem State.fresh_kb : s.fresh.kb = zeroKey := rfl
@[simp] theorem State.fresh_klen : s.fresh.klen = 0 := rfl
@[simp] theorem State.fresh_k0 : s.fresh.k0 = zeroKey := rfl
@[simp] theorem State.fresh_err : s.fresh.err = s.err := rfl
@[simp] theorem State.fresh_din : s.fresh.din = s.din := rfl
@[simp] theorem State.fresh_busy : s.fresh.busy = s.busy := rfl
@[simp] theorem State.fresh_cmdWord : s.fresh.cmdWord = s.cmdWord := rfl
@[simp] theorem State.fresh_cmdData : s.fresh.cmdData = s.cmdData := rfl
@[simp] theorem State.fresh_cp : s.fresh.cp = s.cp := rfl
@[simp] theorem State.fresh_latLeft : s.fresh.latLeft = s.latLeft := rfl
@[simp] theorem State.fresh_draws : s.fresh.draws = s.draws := rfl
@[simp] theorem State.fresh_todo : s.fresh.todo = s.todo := rfl
@[simp] theorem State.fresh_got : s.fresh.got = s.got := rfl

/-! ### State.select -/

@[simp] theorem State.select_alg (a : Alg) (m : Mode) : (s.select a m).alg = a := rfl
@[simp] theorem State.select_mode (a : Alg) (m : Mode) : (s.select a m).mode = m := rfl
@[simp] theorem State.select_ctx0 (a : Alg) (m : Mode) : (s.select a m).ctx0 = s.ctx0 := rfl
@[simp] theorem State.select_ctx1 (a : Alg) (m : Mode) : (s.select a m).ctx1 = s.ctx1 := rfl
@[simp] theorem State.select_hst (a : Alg) (m : Mode) : (s.select a m).hst = s.hst := rfl
@[simp] theorem State.select_kb (a : Alg) (m : Mode) : (s.select a m).kb = s.kb := rfl
@[simp] theorem State.select_klen (a : Alg) (m : Mode) : (s.select a m).klen = s.klen := rfl
@[simp] theorem State.select_k0 (a : Alg) (m : Mode) : (s.select a m).k0 = s.k0 := rfl
@[simp] theorem State.select_err (a : Alg) (m : Mode) : (s.select a m).err = s.err := rfl
@[simp] theorem State.select_din (a : Alg) (m : Mode) : (s.select a m).din = s.din := rfl
@[simp] theorem State.select_busy (a : Alg) (m : Mode) : (s.select a m).busy = s.busy := rfl
@[simp] theorem State.select_cmdWord (a : Alg) (m : Mode) : (s.select a m).cmdWord = s.cmdWord := rfl
@[simp] theorem State.select_cmdData (a : Alg) (m : Mode) : (s.select a m).cmdData = s.cmdData := rfl
@[simp] theorem State.select_cp (a : Alg) (m : Mode) : (s.select a m).cp = s.cp := rfl
@[simp] theorem State.select_latLeft (a : Alg) (m : Mode) : (s.select a m).latLeft = s.latLeft := rfl
@[simp] theorem State.select_draws (a : Alg) (m : Mode) : (s.select a m).draws = s.draws := rfl
@[simp] theorem State.select_todo (a : Alg) (m : Mode) : (s.select a m).todo = s.todo := rfl
@[simp] theorem State.select_got (a : Alg) (m : Mode) : (s.select a m).got = s.got := rfl

/-! ### State.withCtx0 -/

@[simp] theorem State.withCtx0_alg (c : Ctx) : (s.withCtx0 c).alg = s.alg := rfl
@[simp] theorem State.withCtx0_mode (c : Ctx) : (s.withCtx0 c).mode = s.mode := rfl
@[simp] theorem State.withCtx0_ctx0 (c : Ctx) : (s.withCtx0 c).ctx0 = c := rfl
@[simp] theorem State.withCtx0_ctx1 (c : Ctx) : (s.withCtx0 c).ctx1 = s.ctx1 := rfl
@[simp] theorem State.withCtx0_hst (c : Ctx) : (s.withCtx0 c).hst = s.hst := rfl
@[simp] theorem State.withCtx0_kb (c : Ctx) : (s.withCtx0 c).kb = s.kb := rfl
@[simp] theorem State.withCtx0_klen (c : Ctx) : (s.withCtx0 c).klen = s.klen := rfl
@[simp] theorem State.withCtx0_k0 (c : Ctx) : (s.withCtx0 c).k0 = s.k0 := rfl
@[simp] theorem State.withCtx0_err (c : Ctx) : (s.withCtx0 c).err = s.err := rfl
@[simp] theorem State.withCtx0_din (c : Ctx) : (s.withCtx0 c).din = s.din := rfl
@[simp] theorem State.withCtx0_busy (c : Ctx) : (s.withCtx0 c).busy = s.busy := rfl
@[simp] theorem State.withCtx0_cmdWord (c : Ctx) : (s.withCtx0 c).cmdWord = s.cmdWord := rfl
@[simp] theorem State.withCtx0_cmdData (c : Ctx) : (s.withCtx0 c).cmdData = s.cmdData := rfl
@[simp] theorem State.withCtx0_cp (c : Ctx) : (s.withCtx0 c).cp = s.cp := rfl
@[simp] theorem State.withCtx0_latLeft (c : Ctx) : (s.withCtx0 c).latLeft = s.latLeft := rfl
@[simp] theorem State.withCtx0_draws (c : Ctx) : (s.withCtx0 c).draws = s.draws := rfl
@[simp] theorem State.withCtx0_todo (c : Ctx) : (s.withCtx0 c).todo = s.todo := rfl
@[simp] theorem State.withCtx0_got (c : Ctx) : (s.withCtx0 c).got = s.got := rfl

/-! ### State.hardReset -/

@[simp] theorem State.hardReset_alg : s.hardReset.alg = State.reset.alg := rfl
@[simp] theorem State.hardReset_mode : s.hardReset.mode = State.reset.mode := rfl
@[simp] theorem State.hardReset_ctx0 : s.hardReset.ctx0 = State.reset.ctx0 := rfl
@[simp] theorem State.hardReset_ctx1 : s.hardReset.ctx1 = State.reset.ctx1 := rfl
@[simp] theorem State.hardReset_hst : s.hardReset.hst = State.reset.hst := rfl
@[simp] theorem State.hardReset_kb : s.hardReset.kb = State.reset.kb := rfl
@[simp] theorem State.hardReset_klen : s.hardReset.klen = State.reset.klen := rfl
@[simp] theorem State.hardReset_k0 : s.hardReset.k0 = State.reset.k0 := rfl
@[simp] theorem State.hardReset_err : s.hardReset.err = State.reset.err := rfl
@[simp] theorem State.hardReset_din : s.hardReset.din = State.reset.din := rfl
@[simp] theorem State.hardReset_busy : s.hardReset.busy = State.reset.busy := rfl
@[simp] theorem State.hardReset_cmdWord : s.hardReset.cmdWord = State.reset.cmdWord := rfl
@[simp] theorem State.hardReset_cmdData : s.hardReset.cmdData = State.reset.cmdData := rfl
@[simp] theorem State.hardReset_cp : s.hardReset.cp = State.reset.cp := rfl
@[simp] theorem State.hardReset_latLeft : s.hardReset.latLeft = State.reset.latLeft := rfl
@[simp] theorem State.hardReset_draws : s.hardReset.draws = s.draws := rfl
@[simp] theorem State.hardReset_todo : s.hardReset.todo = s.todo := rfl
@[simp] theorem State.hardReset_got : s.hardReset.got = s.got := rfl

/-! ### rekey and normalise -/

@[simp] theorem rekey_alg : (rekey s).alg = s.alg := rfl
@[simp] theorem rekey_mode : (rekey s).mode = s.mode := rfl
@[simp] theorem rekey_ctx0 : (rekey s).ctx0 = absorbAll s.alg (ctxReset s.alg s.ctx0) (xorPad s.k0 ipadByte) := rfl
@[simp] theorem rekey_ctx1 : (rekey s).ctx1 = ctxClear := rfl
@[simp] theorem rekey_hst : (rekey s).hst = .accumulating := rfl
@[simp] theorem rekey_kb : (rekey s).kb = s.kb := rfl
@[simp] theorem rekey_klen : (rekey s).klen = s.klen := rfl
@[simp] theorem rekey_k0 : (rekey s).k0 = s.k0 := rfl
@[simp] theorem rekey_err : (rekey s).err = s.err := rfl
@[simp] theorem rekey_din : (rekey s).din = s.din := rfl
@[simp] theorem rekey_busy : (rekey s).busy = s.busy := rfl
@[simp] theorem rekey_cmdWord : (rekey s).cmdWord = s.cmdWord := rfl
@[simp] theorem rekey_cmdData : (rekey s).cmdData = s.cmdData := rfl
@[simp] theorem rekey_cp : (rekey s).cp = s.cp := rfl
@[simp] theorem rekey_latLeft : (rekey s).latLeft = s.latLeft := rfl
@[simp] theorem rekey_draws : (rekey s).draws = s.draws := rfl
@[simp] theorem rekey_todo : (rekey s).todo = s.todo := rfl
@[simp] theorem rekey_got : (rekey s).got = s.got := rfl

@[simp] theorem normalise_alg : (normalise s).alg = s.alg := by unfold normalise; split <;> rfl
@[simp] theorem normalise_mode : (normalise s).mode = s.mode := by unfold normalise; split <;> rfl
@[simp] theorem normalise_ctx1 : (normalise s).ctx1 = s.ctx1 := by unfold normalise; split <;> rfl
@[simp] theorem normalise_hst : (normalise s).hst = s.hst := by unfold normalise; split <;> rfl
@[simp] theorem normalise_kb : (normalise s).kb = s.kb := by unfold normalise; split <;> rfl
@[simp] theorem normalise_klen : (normalise s).klen = s.klen := by unfold normalise; split <;> rfl
@[simp] theorem normalise_err : (normalise s).err = s.err := by unfold normalise; split <;> rfl
@[simp] theorem normalise_din : (normalise s).din = s.din := by unfold normalise; split <;> rfl
@[simp] theorem normalise_busy : (normalise s).busy = s.busy := by unfold normalise; split <;> rfl
@[simp] theorem normalise_cmdWord : (normalise s).cmdWord = s.cmdWord := by unfold normalise; split <;> rfl
@[simp] theorem normalise_cmdData : (normalise s).cmdData = s.cmdData := by unfold normalise; split <;> rfl
@[simp] theorem normalise_cp : (normalise s).cp = s.cp := by unfold normalise; split <;> rfl
@[simp] theorem normalise_latLeft : (normalise s).latLeft = s.latLeft := by unfold normalise; split <;> rfl
@[simp] theorem normalise_draws : (normalise s).draws = s.draws := by unfold normalise; split <;> rfl
@[simp] theorem normalise_todo : (normalise s).todo = s.todo := by unfold normalise; split <;> rfl
@[simp] theorem normalise_got : (normalise s).got = s.got := by unfold normalise; split <;> rfl

/-! ### keyAbsorb -/

@[simp] theorem keyAbsorb_alg (b : Byte) : (keyAbsorb s b).alg = s.alg := by
  unfold keyAbsorb; split; · rfl
  split <;> rfl
@[simp] theorem keyAbsorb_mode (b : Byte) : (keyAbsorb s b).mode = s.mode := by
  unfold keyAbsorb; split; · rfl
  split <;> rfl
@[simp] theorem keyAbsorb_ctx1 (b : Byte) : (keyAbsorb s b).ctx1 = s.ctx1 := by
  unfold keyAbsorb; split; · rfl
  split <;> rfl
@[simp] theorem keyAbsorb_hst (b : Byte) : (keyAbsorb s b).hst = s.hst := by
  unfold keyAbsorb; split; · rfl
  split <;> rfl
@[simp] theorem keyAbsorb_klen (b : Byte) : (keyAbsorb s b).klen = s.klen + 1 := by
  unfold keyAbsorb; split; · rfl
  split <;> rfl
@[simp] theorem keyAbsorb_k0 (b : Byte) : (keyAbsorb s b).k0 = s.k0 := by
  unfold keyAbsorb; split; · rfl
  split <;> rfl
@[simp] theorem keyAbsorb_err (b : Byte) : (keyAbsorb s b).err = s.err := by
  unfold keyAbsorb; split; · rfl
  split <;> rfl
@[simp] theorem keyAbsorb_din (b : Byte) : (keyAbsorb s b).din = s.din := by
  unfold keyAbsorb; split; · rfl
  split <;> rfl
@[simp] theorem keyAbsorb_busy (b : Byte) : (keyAbsorb s b).busy = s.busy := by
  unfold keyAbsorb; split; · rfl
  split <;> rfl
@[simp] theorem keyAbsorb_cmdWord (b : Byte) : (keyAbsorb s b).cmdWord = s.cmdWord := by
  unfold keyAbsorb; split; · rfl
  split <;> rfl
@[simp] theorem keyAbsorb_cmdData (b : Byte) : (keyAbsorb s b).cmdData = s.cmdData := by
  unfold keyAbsorb; split; · rfl
  split <;> rfl
@[simp] theorem keyAbsorb_cp (b : Byte) : (keyAbsorb s b).cp = s.cp := by
  unfold keyAbsorb; split; · rfl
  split <;> rfl
@[simp] theorem keyAbsorb_latLeft (b : Byte) : (keyAbsorb s b).latLeft = s.latLeft := by
  unfold keyAbsorb; split; · rfl
  split <;> rfl
@[simp] theorem keyAbsorb_draws (b : Byte) : (keyAbsorb s b).draws = s.draws := by
  unfold keyAbsorb; split; · rfl
  split <;> rfl
@[simp] theorem keyAbsorb_todo (b : Byte) : (keyAbsorb s b).todo = s.todo := by
  unfold keyAbsorb; split; · rfl
  split <;> rfl
@[simp] theorem keyAbsorb_got (b : Byte) : (keyAbsorb s b).got = s.got := by
  unfold keyAbsorb; split; · rfl
  split <;> rfl

/-! ### The status functions under updates that leave what they read -/

@[simp] theorem State.life_plain (h : s.mode = .plain) : s.life = s.ctx0.st := by simp [State.life, h]

@[simp] theorem State.life_hmac (h : s.mode = .hmac) : s.life = s.hst := by simp [State.life, h]

@[simp] theorem State.hsel_plain (h : s.mode = .plain) : s.hsel = s.ctx0.h := by simp [State.hsel, h]

@[simp] theorem State.hsel_hmac (h : s.mode = .hmac) : s.hsel = s.ctx1.h := by simp [State.hsel, h]

@[simp] theorem State.dv_iff : s.dv = true ↔ s.life = .finalized := by simp [State.dv]

end Sys2Proof.Machine
end

