-- ==== Sys2Proof/Laws/Exec.lean ====
section
/-! SUPPORT. What each command can do, said once: if it answers a next state, one of these cases holds, with its guards.
Invariants and frames are read off these lemmas, without unfolding a meaning. -/

namespace Sys2Proof.Machine

/-! ## The operands -/

theorem data_length (d : Word) (n : Nat) (h : n ≤ 4) : (data d n).length = n := by
  simp [data, List.length_take]; omega

theorem data_length_le (d : Word) (n : Nat) : (data d n).length ≤ 4 := by
  simp [data, List.length_take]

@[simp] theorem operandBytes_eq (s : State) (n : Nat) : operandBytes s n = data s.cmdData n := rfl

/-! ## KEY's bytes -/

@[simp] theorem keyAbsorbAll_nil (s : State) : keyAbsorbAll s [] = s := rfl

@[simp] theorem keyAbsorbAll_cons (s : State) (b : Byte) (bs : List Byte) :
    keyAbsorbAll s (b :: bs) = keyAbsorbAll (keyAbsorb s b) bs := rfl

/-- Key bytes may be absorbed in pieces (43_hmac.md R296). -/
theorem keyAbsorbAll_append (s : State) (xs ys : List Byte) :
    keyAbsorbAll s (xs ++ ys) = keyAbsorbAll (keyAbsorbAll s xs) ys := by
  simp [keyAbsorbAll]

/-- Loading key bytes changes KB, KLEN and CTX0 only (43_hmac.md R285). -/
theorem keyAbsorbAll_frame (s : State) (bs : List Byte) :
    keyAbsorbAll s bs
      = { s with
          kb := (keyAbsorbAll s bs).kb, klen := s.klen + bs.length, ctx0 := (keyAbsorbAll s bs).ctx0 } := by
  induction bs generalizing s with
  | nil => rfl
  | cons b bs ih =>
    rw [keyAbsorbAll_cons, ih]
    simp only [keyAbsorb_alg, keyAbsorb_mode, keyAbsorb_ctx1, keyAbsorb_hst, keyAbsorb_klen, keyAbsorb_k0,
      keyAbsorb_err, keyAbsorb_din, keyAbsorb_busy, keyAbsorb_cmdWord, keyAbsorb_cmdData, keyAbsorb_cp,
      keyAbsorb_latLeft, keyAbsorb_draws, keyAbsorb_todo, keyAbsorb_got, List.length_cons]
    rw [show s.klen + 1 + bs.length = s.klen + (bs.length + 1) by omega]

/-- Loading key bytes keeps those already loaded (43_hmac.md R285). -/
theorem keyAbsorbAll_keeps (s : State) (bs : List Byte) {k : Nat} (hk : k < s.klen) :
    (keyAbsorbAll s bs).kb[k]? = s.kb[k]? := by
  induction bs generalizing s with
  | nil => rfl
  | cons b bs ih =>
    rw [keyAbsorbAll_cons, ih _ (by simp; omega)]
    unfold keyAbsorb
    split
    · exact Vector.getElem?_setIfInBounds_ne (by omega)
    · split <;> rfl

/-! ## The meanings -/

theorem execReset_cases {s t : State} (h : execReset s = .next t) :
    (s.mode = .plain ∧ t = s.withCtx0 (ctxReset s.alg s.ctx0))
    ∨ (s.mode = .hmac ∧ s.hst = .idle ∧ t = rekey (normalise s))
    ∨ (s.mode = .hmac ∧ s.hst ≠ .idle ∧ t = rekey s) := by
  unfold execReset hmacReset at h
  split at h <;> rename_i hm
  · exact .inl ⟨hm, by simpa using h.symm⟩
  · by_cases hi : s.hst = .idle
    · exact .inr (.inl ⟨hm, hi, by simpa [hi] using h.symm⟩)
    · exact .inr (.inr ⟨hm, hi, by simpa [hi] using h.symm⟩)

theorem plainAdd_cases {bytes : List Byte} {s t : State} (h : plainAdd bytes s = .next t) :
    (s.ctx0.st = .accumulating ∧ s.ctx0.tlen + bytes.length > lmax ∧ t = s.reject .elen)
    ∨ (s.ctx0.st ≠ .accumulating ∧ bytes.length > lmax ∧ t = s.reject .elen)
    ∨ (s.ctx0.st = .accumulating ∧ s.ctx0.tlen + bytes.length ≤ lmax
        ∧ t = s.withCtx0 (absorbAll s.alg s.ctx0 bytes))
    ∨ (s.ctx0.st ≠ .accumulating ∧ bytes.length ≤ lmax
        ∧ t = s.withCtx0 (absorbAll s.alg (ctxReset s.alg s.ctx0) bytes)) := by
  unfold plainAdd at h
  by_cases hs : s.ctx0.st = .accumulating
  · simp only [hs, if_true] at h
    split at h <;> rename_i hl
    · exact .inl ⟨hs, hl, by simpa using h.symm⟩
    · exact .inr (.inr (.inl ⟨hs, by omega, by simpa using h.symm⟩))
  · simp only [hs, if_false, Nat.zero_add] at h
    split at h <;> rename_i hl
    · exact .inr (.inl ⟨hs, hl, by simpa using h.symm⟩)
    · exact .inr (.inr (.inr ⟨hs, by omega, by simpa using h.symm⟩))

theorem hmacAdd_cases {bytes : List Byte} {s t : State} (h : hmacAdd bytes s = .next t) :
    (s.hst = .idle ∧ t = s.reject .eseq)
    ∨ (s.hst = .accumulating ∧ s.ctx0.tlen + bytes.length > lmax ∧ t = s.reject .elen)
    ∨ (s.hst = .finalized ∧ 64 + bytes.length > lmax ∧ t = s.reject .elen)
    ∨ (s.hst = .accumulating ∧ s.ctx0.tlen + bytes.length ≤ lmax
        ∧ t = s.withCtx0 (absorbAll s.alg s.ctx0 bytes))
    ∨ (s.hst = .finalized ∧ 64 + bytes.length ≤ lmax
        ∧ t = (rekey s).withCtx0 (absorbAll s.alg (rekey s).ctx0 bytes)) := by
  unfold hmacAdd at h
  cases hs : s.hst
  · exact .inl ⟨rfl, by simpa [hs] using h.symm⟩
  · simp only [hs, reduceCtorEq, if_false, if_true] at h
    split at h <;> rename_i hl
    · exact .inr (.inl ⟨rfl, hl, by simpa using h.symm⟩)
    · exact .inr (.inr (.inr (.inl ⟨rfl, by omega, by simpa using h.symm⟩)))
  · simp only [hs, reduceCtorEq, if_false, if_true] at h
    split at h <;> rename_i hl
    · exact .inr (.inr (.inl ⟨rfl, hl, by simpa using h.symm⟩))
    · exact .inr (.inr (.inr (.inr ⟨rfl, by omega, by simpa using h.symm⟩)))

theorem plainFinish_cases {s t : State} (h : plainFinish s = .next t) :
    (s.ctx0.st = .finalized ∧ t = s)
    ∨ (s.ctx0.st = .idle ∧ t = s.withCtx0 (ctxFinalize s.alg (ctxReset s.alg s.ctx0)))
    ∨ (s.ctx0.st = .accumulating ∧ t = s.withCtx0 (ctxFinalize s.alg s.ctx0)) := by
  unfold plainFinish at h
  split at h <;> rename_i hs
  · exact .inl ⟨hs, by simpa using h.symm⟩
  · exact .inr (.inl ⟨hs, by simpa using h.symm⟩)
  · exact .inr (.inr ⟨hs, by simpa using h.symm⟩)

theorem hmacFinish_cases {s t : State} (h : hmacFinish s = .next t) :
    (s.hst = .idle ∧ t = s.reject .eseq)
    ∨ (s.hst = .finalized ∧ t = s)
    ∨ (s.hst = .accumulating
        ∧ t = { s with
                ctx0 := ctxFinalize s.alg s.ctx0
                ctx1 := outerDigest s.alg s.k0 s.ctx1 (extract s.alg (ctxFinalize s.alg s.ctx0).h)
                hst := .finalized }) := by
  unfold hmacFinish at h
  split at h <;> rename_i hs
  · exact .inl ⟨hs, by simpa using h.symm⟩
  · exact .inr (.inl ⟨hs, by simpa using h.symm⟩)
  · exact .inr (.inr ⟨hs, by simpa using h.symm⟩)

theorem execKeyclr_cases {s t : State} (h : execKeyclr s = .next t) :
    (s.mode = .plain ∧ t = s.reject .eseq) ∨ (s.mode = .hmac ∧ t = s.fresh) := by
  unfold execKeyclr at h
  split at h <;> rename_i hm
  · exact .inl ⟨hm, by simpa using h.symm⟩
  · exact .inr ⟨hm, by simpa using h.symm⟩

theorem execKey_cases {n : Nat} {s t : State} (h : execKey n s = .next t) :
    (s.mode = .plain ∧ t = s.reject .eseq)
    ∨ (s.mode = .hmac ∧ s.hst ≠ .idle ∧ t = s.reject .eseq)
    ∨ (s.mode = .hmac ∧ s.hst = .idle ∧ s.klen + (operandBytes s n).length > lmax ∧ t = s.reject .elen)
    ∨ (s.mode = .hmac ∧ s.hst = .idle ∧ s.klen + (operandBytes s n).length ≤ lmax
        ∧ t = keyAbsorbAll s (operandBytes s n)) := by
  unfold execKey at h
  split at h <;> rename_i hm
  · exact .inl ⟨hm, by simpa using h.symm⟩
  · by_cases hi : s.hst = .idle
    · simp only [hi, ne_eq, not_true_eq_false, if_false] at h
      split at h <;> rename_i hl
      · exact .inr (.inr (.inl ⟨hm, hi, hl, by simpa using h.symm⟩))
      · exact .inr (.inr (.inr ⟨hm, hi, by omega, by simpa using h.symm⟩))
    · exact .inr (.inl ⟨hm, hi, by simpa [hi] using h.symm⟩)

/-- Every command answers a next state: there is no trap and nothing is refused (60_exceptions.md R337). -/
theorem exec_answers (i : Instr) (s : State) : ∃ t, exec i s = .next t := by
  cases i with
  | nop => exact ⟨_, rfl⟩
  | init alg mode => exact ⟨_, rfl⟩
  | reset => simp only [exec, execReset, hmacReset]; split <;> exact ⟨_, rfl⟩
  | add n =>
    simp only [exec, execAdd, plainAdd, hmacAdd]
    (repeat' split) <;> exact ⟨_, rfl⟩
  | finish =>
    simp only [exec, execFinish, plainFinish, hmacFinish]
    split <;> (try split) <;> exact ⟨_, rfl⟩
  | keyclr => simp only [exec, execKeyclr]; split <;> exact ⟨_, rfl⟩
  | key n =>
    simp only [exec, execKey]
    split <;> (try split) <;> (try split) <;> exact ⟨_, rfl⟩
  | clrerr => exact ⟨_, rfl⟩

end Sys2Proof.Machine
end

