-- ==== Sys2Proof/Laws/Bus.lean ====
section
/-! SUPPORT. What one step can do, said once. -/

namespace Sys2Proof.Machine

/-- A completion: the latched word is illegal and raises EILL, or it is a command that is executed. -/
theorem complete_cases {s t : State} (h : complete s = .next t) :
    ((∃ e, decode s.cmdWord = .error e) ∧ t = (s.reject .eill).release)
    ∨ ∃ i u, decode s.cmdWord = .ok i ∧ exec i s = .next u ∧ t = u.release := by
  unfold complete at h
  split at h <;> rename_i hd
  · exact .inl ⟨⟨_, hd⟩, by simpa using h.symm⟩
  · obtain ⟨u, hu⟩ := exec_answers (by assumption) s
    rw [hu] at h
    exact .inr ⟨_, u, hd, hu, by simpa using h.symm⟩

/-- A completion answers a next state. -/
theorem complete_answers (s : State) : ∃ t, complete s = .next t := by
  unfold complete
  split
  · exact ⟨_, rfl⟩
  · obtain ⟨u, hu⟩ := exec_answers (by assumption) s
    rw [hu]; exact ⟨_, rfl⟩

theorem step_of_due {s : State} (h : commandDue s) : step s = complete s := by
  simp [step, h.1, h.2]

theorem step_of_hostTurn {s : State} (h : hostTurn s) :
    step s = .next (hostCycle (if s.busy then s.tick else s)) := by
  unfold step
  rcases h with h | h <;> cases hb : s.busy <;> simp_all

theorem due_or_hostTurn (s : State) : commandDue s ∨ hostTurn s := by
  unfold commandDue hostTurn
  cases s.busy <;> simp [Decidable.em]

/-- One step: a completion, or the host's bus cycle. -/
theorem step_cases {s t : State} (h : step s = .next t) :
    (commandDue s ∧ complete s = .next t)
    ∨ (hostTurn s ∧ t = hostCycle (if s.busy then s.tick else s)) := by
  rcases due_or_hostTurn s with hd | hd
  · exact .inl ⟨hd, step_of_due hd ▸ h⟩
  · rw [step_of_hostTurn hd] at h
    exact .inr ⟨hd, by simpa using h.symm⟩

/-- Every step answers a next state (20_memory.md R75, 60_exceptions.md R337). -/
theorem step_answers (s : State) : ∃ t, step s = .next t := by
  rcases due_or_hostTurn s with hd | hd
  · rw [step_of_due hd]; exact complete_answers s
  · exact ⟨_, step_of_hostTurn hd⟩

@[simp] theorem ofAddr_cmd : Reg.ofAddr 0#7 = .cmd := by decide

@[simp] theorem ofAddr_din : Reg.ofAddr 4#7 = .din := by decide

/-- Each register is at its address (10_state.md R39). -/
theorem ofAddr_dout (i : Fin 8) : Reg.ofAddr (Reg.dout i).addr = .dout i := by revert i; decide

theorem ofAddr_hex (j : Fin 16) : Reg.ofAddr (Reg.hex j).addr = .hex j := by revert j; decide

/-- While BUSY = 0 a read is exact and uses no free value (70_reset_and_hazards.md R380). -/
theorem busRead_of_idle {s : State} (h : s.busy = false) (r : Reg) : busRead s r = regRead s r := by
  simp [busRead, h]

/-- A masked read of STATUS, whatever the draw (10_state.md R41, 93 U12). -/
theorem maskedRead_status (free : Word) : statusWhileBusy (maskedRead free .status) free := by
  unfold statusWhileBusy maskedRead statusFields
  refine ⟨by simp, fun b hb => ?_, ?_, ?_, ?_⟩
  · have : b < 22 := by omega
    interval_cases b <;> simp_all
  all_goals (ext i hi; simp only [BitVec.getElem_extractLsb']; interval_cases i <;> simp)

theorem afterRead_of_idle {s : State} (h : s.busy = false) (r : Reg) : s.afterRead r = s := by
  simp [State.afterRead, h]

/-- One step more at the front of an execution. -/
theorem runsTo_succ {k : Nat} {s u t : State} (h : step s = .next u) (hu : runsTo k u t) : runsTo (k + 1) s t := by
  unfold runsTo at *
  simp only [Host.Core.run, Sys2Proof.core] at *
  rw [h]; exact hu

theorem reaches_refl (s : State) : reaches s s := ⟨0, rfl⟩

theorem reaches_step {s u t : State} (h : step s = .next u) (hu : reaches u t) : reaches s t :=
  hu.elim fun k hk => ⟨k + 1, runsTo_succ h hk⟩

theorem reaches_trans {s u t : State} (h : reaches s u) (hu : reaches u t) : reaches s t := by
  obtain ⟨k, hk⟩ := h
  induction k generalizing s with
  | zero => cases hk; exact hu
  | succ k ih =>
    obtain ⟨v, hv⟩ := step_answers s
    refine reaches_step hv (ih ?_)
    unfold runsTo at *
    simp only [Host.Core.run, Sys2Proof.core] at hk ⊢
    rw [hv] at hk; exact hk

/-- The latch is idle while BUSY = 0: no register shows it, and the next acceptance replaces it (assumption 4). -/
theorem latch_idle (s : State) (w d v : Word) (lat : Nat) (r : Reg) :
    regRead { s with cmdWord := w, cmdData := d } r = regRead s r
      ∧ ({ s with cmdWord := w, cmdData := d } : State).accept v lat = s.accept v lat := by
  cases r <;> exact ⟨rfl, rfl⟩

theorem afterRead_eq (s : State) (r : Reg) :
    s.afterRead r = { s with draws := (s.afterRead r).draws } := by
  unfold State.afterRead; split <;> rfl

/-- A bus cycle: nothing to do, a held request, a poll, reset, a read, or a write. -/
theorem hostCycle_cases (s : State) :
    (s.todo = [] ∧ hostCycle s = s)
    ∨ (∃ rest, s.todo = .poll :: rest
        ∧ hostCycle s
          = if (busRead s .status).getLsbD 0 then s.afterRead .status
            else (s.afterRead .status).advance rest)
    ∨ (∃ p rest, s.todo = .cycle p :: rest ∧ ready s p = false ∧ hostCycle s = s)
    ∨ (∃ p rest, s.todo = .cycle p :: rest ∧ p.rst = true
        ∧ hostCycle s
          = if p.rd then (s.advance rest).hardReset.receive 0 else (s.advance rest).hardReset)
    ∨ (∃ p rest, s.todo = .cycle p :: rest ∧ p.rst = false ∧ p.rd = true
        ∧ hostCycle s
          = ((s.advance rest).afterRead (Reg.ofAddr p.addr)).receive
              (busRead (s.advance rest) (Reg.ofAddr p.addr)))
    ∨ (∃ p rest, s.todo = .cycle p :: rest ∧ p.rst = false ∧ p.rd = false ∧ p.wr = true ∧ ready s p = true
        ∧ hostCycle s = busWrite (s.advance rest) (Reg.ofAddr p.addr) p.wdata)
    ∨ (∃ p rest, s.todo = .cycle p :: rest ∧ p.rst = false ∧ p.rd = false ∧ p.wr = false
        ∧ hostCycle s = s.advance rest) := by
  unfold hostCycle
  split
  · rename_i h; exact .inl ⟨h, rfl⟩
  · rename_i rest h; exact .inr (.inl ⟨rest, h, rfl⟩)
  · rename_i p rest h
    cases hr : ready s p
    · exact .inr (.inr (.inl ⟨p, rest, h, hr, by simp⟩))
    · simp only [if_true, portCycle]
      cases h1 : p.rst
      · cases h2 : p.rd
        · cases h3 : p.wr
          · exact .inr (.inr (.inr (.inr (.inr (.inr ⟨p, rest, h, h1, h2, h3, by simp⟩)))))
          · exact .inr (.inr (.inr (.inr (.inr (.inl ⟨p, rest, h, h1, h2, h3, hr, by simp⟩)))))
        · exact .inr (.inr (.inr (.inr (.inl ⟨p, rest, h, h1, h2, by simp⟩))))
      · exact .inr (.inr (.inr (.inl ⟨p, rest, h, h1, by simp⟩)))

theorem busWrite_cases (s : State) (r : Reg) (v : Word) :
    (r = .cmd ∧ busWrite s r v = (s.accept v (Config.latency s v)).drawn)
    ∨ (r = .din ∧ busWrite s r v = s.writeDin v)
    ∨ (r ≠ .cmd ∧ r ≠ .din ∧ busWrite s r v = s) := by
  cases r <;> simp [busWrite]

end Sys2Proof.Machine
end

