-- ==== Sys2Proof/Laws/Decode.lean ====
section
/-! SUPPORT. The two fields of a command word, and what each format's decoder answers (30_encoding.md R101, R102). -/

namespace Sys2Proof

/-- A word is its OP above its OPND (R101). -/
theorem word_eq_fields (w : Word) : opField w ++ opndField w = w := by
  ext i hi
  simp only [opField, opndField, BitVec.getElem_append, BitVec.getElem_extractLsb']
  split
  · simp; exact (BitVec.getLsbD_eq_getElem hi)
  · rw [show 24 + (i - 24) = i by omega]; exact (BitVec.getLsbD_eq_getElem hi)

@[simp] theorem opField_encode (i : Instr) : opField (encode i) = i.opcode := by
  ext k hk
  simp only [opField, encode, BitVec.getElem_extractLsb', BitVec.getLsbD_append]
  rw [if_neg (by omega), show 24 + k - 24 = k by omega]; exact (BitVec.getLsbD_eq_getElem hk)

@[simp] theorem opndField_encode (i : Instr) : opndField (encode i) = i.operand := by
  ext k hk
  simp only [opndField, encode, BitVec.getElem_extractLsb', BitVec.getLsbD_append]
  rw [if_pos (by omega), Nat.zero_add]; exact (BitVec.getLsbD_eq_getElem hk)

/-- ALG is the low two bits of OPND. -/
theorem algField_eq (w : Word) : algField w = (opndField w).extractLsb' 0 2 := by
  ext k hk
  simp only [algField, opndField, BitVec.getElem_extractLsb', BitVec.getLsbD_extractLsb']
  simp; omega

/-- HM is bit 4 of OPND. -/
theorem hmField_eq (w : Word) : hmField w = (opndField w).getLsbD 4 := by
  simp [hmField, opndField]

/-- CNT is the low three bits of OPND. -/
theorem cntField_eq (w : Word) : cntField w = (opndField w).extractLsb' 0 3 := by
  ext k hk
  simp only [cntField, opndField, BitVec.getElem_extractLsb', BitVec.getLsbD_extractLsb']
  simp; omega

theorem ofCode_code (alg : Alg) : Alg.ofCode alg.code = some alg := by cases alg <;> rfl

theorem code_of_ofCode {c : BitVec 2} {alg : Alg} (h : Alg.ofCode c = some alg) : alg.code = c := by
  unfold Alg.ofCode at h
  grind [Alg.code]

theorem ofCode_none_iff (c : BitVec 2) : Alg.ofCode c = none ↔ c = 3 := by
  revert c; decide

theorem ofBit_bit (mode : Mode) : Mode.ofBit mode.bit = mode := by cases mode <;> rfl

theorem bit_ofBit (b : Bool) : (Mode.ofBit b).bit = b := by cases b <;> rfl

theorem decodeZ_ok_iff {i j : Instr} {w : Word} : decodeZ i w = .ok j ↔ opndField w = 0 ∧ j = i := by
  unfold decodeZ; split <;> simp_all [eq_comm]

theorem decodeI_ok_iff {j : Instr} {w : Word} :
    decodeI w = .ok j ↔ opndField w &&& ~~~(0x000013 : BitVec 24) = 0
      ∧ ∃ alg, Alg.ofCode (algField w) = some alg ∧ j = .init alg (Mode.ofBit (hmField w)) := by
  unfold decodeI
  by_cases h : opndField w &&& ~~~(0x000013 : BitVec 24) = 0
  · rw [if_neg (not_not_intro h)]
    cases hc : Alg.ofCode (algField w) with
    | none => exact ⟨nofun, fun ⟨_, _, e, _⟩ => nomatch e⟩
    | some alg =>
      constructor
      · intro e; cases e; exact ⟨h, alg, rfl, rfl⟩
      · rintro ⟨_, _, ⟨⟩, rfl⟩; rfl
  · rw [if_pos h]; exact ⟨nofun, fun ⟨e, _⟩ => absurd e h⟩

theorem decodeD_ok_iff {mk : Nat → Instr} {j : Instr} {w : Word} :
    decodeD mk w = .ok j ↔ opndField w &&& ~~~(0x000007 : BitVec 24) = 0 ∧ cntField w ≤ 4
      ∧ j = mk (cntField w).toNat := by
  unfold decodeD
  by_cases h : opndField w &&& ~~~(0x000007 : BitVec 24) = 0
  · rw [if_neg (not_not_intro h)]
    by_cases hc : cntField w > 4
    · rw [if_pos hc]; exact ⟨nofun, fun ⟨_, hle, _⟩ => absurd hle (BitVec.not_le.mpr hc)⟩
    · rw [if_neg hc]
      constructor
      · intro e; cases e; exact ⟨h, BitVec.not_lt.mp hc, rfl⟩
      · rintro ⟨_, _, rfl⟩; rfl
  · rw [if_pos h]; exact ⟨nofun, fun ⟨e, _⟩ => absurd e h⟩

/-- What the decoder accepts, format by format. -/
theorem decode_ok_cases {w : Word} {i : Instr} (h : decode w = .ok i) :
    (opField w = 0x00 ∧ decodeZ .nop w = .ok i) ∨ (opField w = 0x01 ∧ decodeI w = .ok i)
    ∨ (opField w = 0x02 ∧ decodeZ .reset w = .ok i) ∨ (opField w = 0x03 ∧ decodeD .add w = .ok i)
    ∨ (opField w = 0x04 ∧ decodeZ .finish w = .ok i) ∨ (opField w = 0x05 ∧ decodeZ .keyclr w = .ok i)
    ∨ (opField w = 0x06 ∧ decodeD .key w = .ok i) ∨ (opField w = 0x07 ∧ decodeZ .clrerr w = .ok i) := by
  unfold decode at h
  by_cases h0 : opField w = 0x00
  · rw [if_pos h0] at h; exact .inl ⟨h0, h⟩
  rw [if_neg h0] at h; right
  by_cases h1 : opField w = 0x01
  · rw [if_pos h1] at h; exact .inl ⟨h1, h⟩
  rw [if_neg h1] at h; right
  by_cases h2 : opField w = 0x02
  · rw [if_pos h2] at h; exact .inl ⟨h2, h⟩
  rw [if_neg h2] at h; right
  by_cases h3 : opField w = 0x03
  · rw [if_pos h3] at h; exact .inl ⟨h3, h⟩
  rw [if_neg h3] at h; right
  by_cases h4 : opField w = 0x04
  · rw [if_pos h4] at h; exact .inl ⟨h4, h⟩
  rw [if_neg h4] at h; right
  by_cases h5 : opField w = 0x05
  · rw [if_pos h5] at h; exact .inl ⟨h5, h⟩
  rw [if_neg h5] at h; right
  by_cases h6 : opField w = 0x06
  · rw [if_pos h6] at h; exact .inl ⟨h6, h⟩
  rw [if_neg h6] at h; right
  by_cases h7 : opField w = 0x07
  · rw [if_pos h7] at h; exact ⟨h7, h⟩
  · rw [if_neg h7] at h; simp at h

/-- The decoder answers well-formed commands only, with the opcode of the word (R113). -/
theorem wellFormed_of_decode {w : Word} {i : Instr} (h : decode w = .ok i) :
    i.wellFormed = true ∧ opField w = i.opcode := by
  rcases decode_ok_cases h with ⟨o, h⟩ | ⟨o, h⟩ | ⟨o, h⟩ | ⟨o, h⟩ | ⟨o, h⟩ | ⟨o, h⟩ | ⟨o, h⟩ | ⟨o, h⟩ <;> rw [o]
  all_goals first
    | (obtain ⟨_, rfl⟩ := decodeZ_ok_iff.mp h; exact ⟨rfl, rfl⟩)
    | (obtain ⟨_, _, _, rfl⟩ := decodeI_ok_iff.mp h; exact ⟨rfl, rfl⟩)
    | (obtain ⟨_, hc, rfl⟩ := decodeD_ok_iff.mp h
       exact ⟨by simp only [Instr.wellFormed, legalCount, decide_eq_true_eq]; exact hc, rfl⟩)

end Sys2Proof
end

