-- ==== Sys2Proof/Laws/PerInstr.lean ====
section
/-! SUPPORT. A statement that is made for each command: the word of a well-formed command is not illegal
(30_encoding.md R111), and its OP is the command's row of the opcode table (R105). -/

namespace Sys2Proof.Laws.EncodedWord

/-- What is said of each command. -/
def Statement (i : Instr) : Prop :=
  i.wellFormed = true → illegal (encode i) = false ∧ opField (encode i) = i.opcode

theorem nop : Statement .nop := fun _ => by decide

theorem init (alg : Alg) (mode : Mode) : Statement (.init alg mode) := fun _ => by
  cases alg <;> cases mode <;> decide

theorem reset : Statement .reset := fun _ => by decide

theorem add (cnt : Nat) : Statement (.add cnt) := fun h => by
  have hc : cnt ≤ 4 := by simpa [Instr.wellFormed, legalCount] using h
  interval_cases cnt <;> decide

theorem finish : Statement .finish := fun _ => by decide

theorem keyclr : Statement .keyclr := fun _ => by decide

theorem key (cnt : Nat) : Statement (.key cnt) := fun h => by
  have hc : cnt ≤ 4 := by simpa [Instr.wellFormed, legalCount] using h
  interval_cases cnt <;> decide

theorem clrerr : Statement .clrerr := fun _ => by decide

end Sys2Proof.Laws.EncodedWord
end

