-- ==== Sys2Proof/Laws/Program.lean ====
section
/-! SUPPORT. The assembler of 30_encoding.md R120 writes the words of the encoder. -/

namespace Sys2Proof.Machine

theorem op_nop : Asm.nop.op = memWrite 0x00 (encode .nop) := by decide

theorem op_init (alg : Alg) (mode : Mode) : (Asm.init alg mode).op = memWrite 0x00 (encode (.init alg mode)) := by
  cases alg <;> cases mode <;> decide

theorem op_reset : Asm.reset.op = memWrite 0x00 (encode .reset) := by decide

theorem op_add (n : Nat) (h : n ≤ 4) : (Asm.add n).op = memWrite 0x00 (encode (.add n)) := by
  interval_cases n <;> decide

theorem op_finish : Asm.finish.op = memWrite 0x00 (encode .finish) := by decide

theorem op_keyclr : Asm.keyclr.op = memWrite 0x00 (encode .keyclr) := by decide

theorem op_key (n : Nat) (h : n ≤ 4) : (Asm.key n).op = memWrite 0x00 (encode (.key n)) := by
  interval_cases n <;> decide

theorem op_clrerr : Asm.clrerr.op = memWrite 0x00 (encode .clrerr) := by decide

end Sys2Proof.Machine
end

