-- ==== Sys2Proof/Laws/Schedule.lean ====
section
/-! SUPPORT. What the schedule builder that both engines share does, said once. -/

namespace Sys2Proof.Machine

/-- Growing a schedule keeps the words it had and adds `n` more. -/
theorem growSchedule_prefix (nextWord : List Word → Word) (n : Nat) (w : List Word) :
    ∃ e, growSchedule nextWord n w = w ++ e ∧ e.length = n := by
  induction n generalizing w with
  | zero => exact ⟨[], by simp [growSchedule]⟩
  | succ n ih =>
    obtain ⟨e, h, hl⟩ := ih (w ++ [nextWord w])
    exact ⟨nextWord w :: e, by simp [growSchedule, h], by simp [hl]⟩

theorem growSchedule_length (nextWord : List Word → Word) (n : Nat) (w : List Word) :
    (growSchedule nextWord n w).length = w.length + n := by
  obtain ⟨e, h, hl⟩ := growSchedule_prefix nextWord n w
  rw [h, List.length_append, hl]

/-- Each added word is `nextWord` of all the words before it. -/
theorem growSchedule_getElem? (nextWord : List Word → Word) (n : Nat) (w : List Word) (t : Nat)
    (h1 : w.length ≤ t) (h2 : t < w.length + n) :
    (growSchedule nextWord n w)[t]? = some (nextWord ((growSchedule nextWord n w).take t)) := by
  induction n generalizing w with
  | zero => omega
  | succ n ih =>
    rw [growSchedule]
    by_cases h : t = w.length
    · obtain ⟨e, he, hl⟩ := growSchedule_prefix nextWord n (w ++ [nextWord w])
      rw [he, h]; simp
    · exact ih _ (by simp; omega) (by simp; omega)

end Sys2Proof.Machine
end

