-- ==== Sys2Proof/Tests/Slice0.lean ====
section
/-! SUPPORT. Tests with the values of spec/95_test_vectors.md (each names its vector), and for every statement of
Certificates/Slice0/Obligations.lean that has hypotheses a state and operands that meet them all. -/

namespace Sys2Proof.Tests

open Sys2Proof.Machine

set_option Elab.async false

/-! ## Well-formedness: each ill-formed term is refused, its neighbour at the bound is not (30_encoding.md R104) -/

theorem test_wellFormed_refuses_add_5 : (Instr.add 5).wellFormed = false ∧ (Instr.add 4).wellFormed = true := by decide

theorem test_wellFormed_refuses_key_5 : (Instr.key 5).wellFormed = false ∧ (Instr.key 4).wellFormed = true := by decide

/-! ## Decoding, with the words written out bit by bit from the table of 30_encoding.md R105 -/

theorem test_decode_formatZ :
    decode 0b00000000_000000000000000000000000 = .ok .nop
    ∧ decode 0b00000010_000000000000000000000000 = .ok .reset
    ∧ decode 0b00000100_000000000000000000000000 = .ok .finish
    ∧ decode 0b00000101_000000000000000000000000 = .ok .keyclr
    ∧ decode 0b00000111_000000000000000000000000 = .ok .clrerr := by decide

theorem test_decode_formatI :
    decode 0b00000001_000000000000000000000000 = .ok (.init .sha1 .plain)
    ∧ decode 0b00000001_000000000000000000010001 = .ok (.init .sha256 .hmac)
    ∧ decode 0b00000001_000000000000000000000010 = .ok (.init .sha224 .plain) := by decide

theorem test_decode_formatD :
    decode 0b00000011_000000000000000000000011 = .ok (.add 3)
    ∧ decode 0b00000110_000000000000000000000001 = .ok (.key 1) := by decide

/-- T26. -/
theorem test_decode_illegal :
    ([0x00000100, 0x01000004, 0x01000020, 0x01000013, 0x02000001, 0x03000005, 0x03000007, 0x03000008,
      0x04800000, 0x06000006, 0x07000001, 0x08000000, 0x80000000, 0xFFFFFFFF] : List Word).all
      (fun w => illegal w && (decode w).toOption.isNone) = true := by decide +kernel

theorem test_decodeTableWord :
    decodeTableWord 32 0x03000004 = some (.add 4) ∧ decodeTableWord 32 0x03000005 = none := by decide

/-! ## The engines -/

/-- T1, the rows 0x80000000 and 0x12345678. -/
theorem test_rotations :
    rotl 30 0x12345678 = 0x048D159E ∧ bigSigma0 0x12345678 = 0x66146474 ∧ bigSigma1 0x12345678 = 0x3561ABDA
    ∧ gamma0 0x80000000 = 0x11002000 ∧ gamma1 0x80000000 = 0x00205000 := by decide

/-- T2, the last row. -/
theorem test_boolean_functions :
    ch 0xF0F0F0F0 0xFF00FF00 0x0FF00FF0 = 0xFF00FF00 ∧ parity 0xF0F0F0F0 0xFF00FF00 0x0FF00FF0 = 0
    ∧ maj 0xF0F0F0F0 0xFF00FF00 0x0FF00FF0 = 0xFFF0FFF0 := by decide

/-- The padded block of "abc" (T3). -/
def abcBlock : List Byte := padded [0x61, 0x62, 0x63] 3

/-- T3. -/
theorem test_schedule1 :
    (schedule1 abcBlock).getD 15 0 = 0x00000018 ∧ (schedule1 abcBlock).getD 16 0 = 0xC2C4C700
    ∧ (schedule1 abcBlock).getD 79 0 = 0x822E0879 := by decide +kernel

/-- T6. -/
theorem test_schedule256 :
    (schedule256 abcBlock).getD 16 0 = 0x61626380 ∧ (schedule256 abcBlock).getD 63 0 = 0x12B1EDEB := by
  decide +kernel

/-- T5: the all-ones block, where every add-back carries out. -/
theorem test_compress1 :
    (compress1 ⟨0xFFFFFFFF, 0xFFFFFFFF, 0xFFFFFFFF, 0xFFFFFFFF, 0xFFFFFFFF, 0, 0, 0⟩ (List.replicate 64 0xFF)).words
      = [0x3F48159B, 0x2DCE51FA, 0x8A1E930A, 0x02083B68, 0xEF70D6E8, 0, 0, 0] := by decide +kernel

/-- T9: the all-zero block. -/
theorem test_compress256 :
    (compress256 iv256 (List.replicate 64 0)).words
      = [0xDA5698BE, 0x17B9B469, 0x62335799, 0x779FBECA, 0x8CE5D491, 0xC0D26243, 0xBAFEF9EA, 0x1837A9D8] := by
  decide +kernel

/-- T28: the largest length field. -/
theorem test_length_field_of_lmax :
    (padded (List.replicate 63 0x61) lmax).drop 120 = [0xFF, 0xFF, 0xFF, 0xFF, 0xFF, 0xFF, 0xFF, 0xF8] := by decide

/-! ## One step for each command: the word is accepted with DIN, then executed -/

/-- What the step leaves that runs the word `w`, accepted in the state `s`. -/
def runs (w : Nat) (s : State) : Option State :=
  match step (s.withFetchWord 32 w) with
  | .next t => some t
  | .fault _ => none
  | .refused _ => none

/-- STATUS and LEN_LO after that step. -/
def shows (w : Nat) (s : State) : Option (Word × Word) :=
  (runs w s).map fun t => (regRead t .status, regRead t .lenLo)

/-- A plain SHA-1 state with the context `c` and DIN `d`. -/
def plainState (c : Ctx) (d : Word) : State := { State.reset with ctx0 := c, din := d }

/-- A plain SHA-1 context that is Accumulating, with `n` bytes 0x61 buffered and the length `total`. -/
def buffered (n total : Nat) : Ctx :=
  { st := .accumulating, buf := List.replicate n 0x61, tlen := total, h := iv1 }

/-- A Finalized context with some H. -/
def finalCtx (total : Nat) : Ctx := { st := .finalized, buf := [], tlen := total, h := iv1 }

/-- An HMAC SHA-1 state with the key "key" loaded (T27). -/
def keyedState (d : Word) : State :=
  { State.reset with mode := .hmac, kb := padKey [0x6B, 0x65, 0x79], klen := 3, din := d }

/-- The same after RESET (T27). -/
def rekeyedState (d : Word) : State := rekey (normalise (keyedState d))

/-- T23: NOP leaves STATUS and LEN, and cp has counted it. -/
theorem test_nop :
    shows 0x00000000 (plainState (finalCtx 3) 0) = some (0x00100004, 3)
    ∧ (runs 0x00000000 State.reset).map (fun t => (t.cp, t.busy)) = some (1, false) := by decide +kernel

/-- T23, T26: NOP with an operand bit. -/
theorem test_nop_operand_bit : shows 0x00000100 State.reset = some (0x00010000, 0) := by decide +kernel

/-- T16. -/
theorem test_init :
    shows 0x01000011 (plainState (buffered 3 3) 0) = some (0x00000018, 0)
    ∧ shows 0x01000002 (rekeyedState 0) = some (0x00000020, 0) := by decide +kernel

/-- T25: ALG = 3 is EILL, an earlier error is kept and ALG is not changed. -/
theorem test_init_alg_3 :
    shows 0x01000003 State.reset = some (0x00010000, 0)
    ∧ shows 0x01000003 { State.reset with err := .eseq } = some (0x00020000, 0) := by decide +kernel

/-- T22. -/
theorem test_reset_plain : shows 0x02000000 (plainState (buffered 3 3) 0) = some (0x00000002, 0) := by decide +kernel

/-- T27, and 43_hmac.md R290: STATUS 0x0000000A and LEN_LO 64; K0 is the key with zeros behind it (P2). -/
theorem test_reset_hmac :
    shows 0x02000000 (keyedState 0) = some (0x0000000A, 64)
    ∧ (runs 0x02000000 (keyedState 0)).map (fun t => t.k0.toList)
        = some ([0x6B, 0x65, 0x79] ++ List.replicate 61 0) := by decide +kernel

/-- T15: a block is filled, compressed, and the third byte buffered; and T19: an empty ADD after Finalized. -/
theorem test_add :
    shows 0x03000003 (plainState (buffered 62 62) 0x11223344) = some (0x00000102, 65)
    ∧ (runs 0x03000003 (plainState (buffered 62 62) 0x11223344)).map (fun t => t.ctx0.buf) = some [0x33]
    ∧ shows 0x03000000 (plainState (finalCtx 3) 0) = some (0x00000002, 0) := by decide +kernel

/-- T28: LMAX - 2 + 3 is past LMAX, LMAX - 2 + 2 is not. -/
theorem test_add_length_limit :
    shows 0x03000003 (plainState (buffered 61 (lmax - 2)) 0x61626364) = some (0x00033D02, 0xFFFFFFFD)
    ∧ shows 0x03000002 (plainState (buffered 61 (lmax - 2)) 0x61626364) = some (0x00003F02, 0xFFFFFFFF)
    ∧ shows 0x03000003 (keyedState 0 |> fun s => { s with klen := 0 }) = some (0x00020008, 0) := by decide +kernel

/-- The readout after FINISH in one piece (T12). -/
def readout (t : State) : List Word :=
  [regRead t .status, regRead t .lenLo, regRead t (.dout 0), regRead t (.dout 4), regRead t (.dout 5),
    regRead t (.hex 0), regRead t (.hex 9), regRead t (.hex 10)]

/-- V3 and T12: SHA-1 of "abc". -/
theorem test_finish_plain :
    (runs 0x04000000 (plainState (absorbAll .sha1 (started .sha1) [0x61, 0x62, 0x63]) 0)).map readout
      = some [0x00100004, 3, 0xA9993E36, 0x9CD0D89D, 0, 0x61393939, 0x64383964, 0] := by decide +kernel

/-- T27: HMAC-SHA1("key", ""). -/
theorem test_finish_hmac :
    (runs 0x04000000 (rekeyedState 0)).map (fun t => (regRead t .status, regRead t .lenLo, regRead t (.dout 0)))
      = some (0x0010000C, 64, 0xF42BB0EE) := by decide +kernel

/-- T27, last row: everything cleared, an earlier error kept. -/
theorem test_keyclr :
    shows 0x05000000 { rekeyedState 0 with hst := .finalized, err := .eseq } = some (0x00020008, 0)
    ∧ (runs 0x05000000 (rekeyedState 0)).map (fun t => (t.klen, t.kb, t.k0)) = some (0, zeroKey, zeroKey) := by
  decide +kernel

/-- T25: ESEQ in plain mode. -/
theorem test_keyclr_plain : shows 0x05000000 State.reset = some (0x00020000, 0) := by decide +kernel

/-- T27: the key goes to KB, and STATUS does not show it. -/
theorem test_key :
    shows 0x06000003 { State.reset with mode := .hmac, din := 0x6B657900 } = some (0x00000008, 0)
    ∧ (runs 0x06000003 { State.reset with mode := .hmac, din := 0x6B657900 }).map
        (fun t => decide (t.kb = padKey [0x6B, 0x65, 0x79] ∧ t.klen = 3)) = some true := by decide +kernel

/-- T31: the 65th key byte starts the hashing of the key. -/
theorem test_key_65th_byte :
    shows 0x06000001 { State.reset with
        mode := .hmac, kb := padKey ((List.range 64).map (BitVec.ofNat 8)), klen := 64, din := 0x40000000 }
      = some (0x00200108, 65) := by decide +kernel

/-- T29: past LMAX, and up to it. -/
theorem test_key_length_limit :
    shows 0x06000002 { State.reset with
        mode := .hmac, klen := lmax - 1, ctx0 := buffered 62 (lmax - 1), din := 0x61626364 }
      = some (0x00233E08, 0xFFFFFFFE)
    ∧ shows 0x06000001 { State.reset with
        mode := .hmac, klen := lmax - 1, ctx0 := buffered 62 (lmax - 1), din := 0x61626364 }
      = some (0x00203F08, 0xFFFFFFFF) := by decide +kernel

/-- T24. -/
theorem test_clrerr :
    shows 0x07000000 { plainState (finalCtx 3) 0 with err := .eseq } = some (0x00100004, 3)
    ∧ shows 0x07000001 { State.reset with err := .eseq } = some (0x00020000, 0) := by decide +kernel

/-- T10: reads straight after reset. -/
theorem test_reads_after_reset :
    [0x00, 0x04, 0x08, 0x0C, 0x10, 0x18, 0x20, 0x7C, 0x0B, 0x0F].map (fun a => regRead State.reset (Reg.ofAddr a))
      = [0, 0, 0, 0x53484301, 0, 0, 0, 0, 0, 0x53484301] := by decide

/-! ## Witnesses: for each statement with hypotheses, states and operands that meet them -/

/-- A state in which the word `w`, latched with `d`, is about to execute. -/
def due (w d : Word) : State := { State.reset with busy := true, cmdWord := w, cmdData := d }

theorem due_commandDue (w d : Word) : commandDue (due w d) := ⟨rfl, rfl⟩

/-- A state in which the host drives `p` next: with BUSY = 1 (one cycle of the window left) or BUSY = 0. -/
def asks (busy : Bool) (p : Port) : State :=
  { State.reset with busy := busy, latLeft := if busy then 1 else 0, todo := [.cycle p] }

theorem asks_hostTurn (busy : Bool) (p : Port) : hostTurn (asks busy p) := by
  cases busy
  · exact .inl rfl
  · exact .inr Nat.one_ne_zero

/-- A write and a read, as 20_memory.md R72 puts them on the ports. -/
def writePort (a : BitVec 7) (v : Word) : Port := { rst := false, addr := a, wr := true, rd := false, wdata := v }

def readPort (a : BitVec 7) : Port := { rst := false, addr := a, wr := false, rd := true, wdata := 0 }

/-- A bus cycle with rst = 1. -/
def rstPort (rd : Bool) : Port := { rst := true, addr := 0, wr := false, rd := rd, wdata := 0 }

/-- The state that holds an instance and nothing else. -/
def holding (j : Job) : State :=
  { State.reset with
    alg := j.alg, mode := j.mode, ctx0 := j.inner, ctx1 := j.outer, hst := j.hst, kb := padKey j.key,
    klen := j.key.length, k0 := j.normalKey, err := j.err }

theorem holding_represents (j : Job) (hp : j.mode = .plain → j.key = []) (hk : j.key.length ≤ lmax)
    (hl : j.phase ≠ .idle → j.padLength + j.phase.message.length ≤ lmax) : Represents (holding j) j :=
  { alg := rfl, mode := rfl, ctx0 := rfl, ctx1 := rfl, hst := rfl, kb := rfl, klen := rfl, k0 := rfl, err := rfl,
    plainKey := hp, keyBound := hk, lengthBound := hl }

/-- A plain SHA-1 digest of "abc" under way. -/
def plainJob : Job :=
  { alg := .sha1, mode := .plain, key := [], phase := .accumulating [0x61, 0x62, 0x63], err := .none }

theorem plainJob_represents : Represents (holding plainJob) plainJob :=
  holding_represents _ (fun _ => rfl) (by decide) (fun _ => by decide)

/-- A finished HMAC-SHA256 of "abc" with the key "key". -/
def hmacJob : Job :=
  { alg := .sha256, mode := .hmac, key := [0x6B, 0x65, 0x79], phase := .finalized [0x61, 0x62, 0x63], err := .none }

theorem hmacJob_represents : Represents (holding hmacJob) hmacJob :=
  holding_represents _ (fun h => by cases h) (by decide) (fun _ => by decide)

/-- Keys at the bound of a block. -/
def key60 : List Byte := List.replicate 60 0x61

def key64 : List Byte := List.replicate 64 0x61

def key65 : List Byte := List.replicate 65 0x61

/-- An HMAC SHA-1 state before its message with a key loaded. -/
def loading (key : List Byte) : State :=
  { State.reset with
    mode := .hmac, kb := padKey key, klen := key.length
    ctx0 := if 64 < key.length then absorbAll .sha1 (started .sha1) key else Ctx.idle }

theorem loading_ctx0 (key : List Byte) (h : 64 < key.length) :
    (loading key).ctx0 = absorbAll (loading key).alg (started (loading key).alg) key := if_pos h

/-- An HMAC SHA-1 state. -/
def hmacState (hst : Lifecycle) (c : Ctx) : State := { State.reset with mode := .hmac, hst := hst, ctx0 := c }

theorem hmacState_ctx0 (hst : Lifecycle) (c : Ctx) : (hmacState hst c).ctx0 = c := rfl

/-- "abc" in one piece, and in three. -/
def onePiece : List (Word × Nat) := [(0x61626364, 3)]

def threePieces : List (Word × Nat) := [(0x61000000, 1), (0, 0), (0x62630000, 2)]

theorem witness_DecodeOfEncodeIsTheCommand :
    (Instr.init .sha224 .hmac).wellFormed = true ∧ (Instr.add 0).wellFormed = true
    ∧ (Instr.add 4).wellFormed = true ∧ (Instr.key 4).wellFormed = true ∧ Instr.nop.wellFormed = true
    ∧ Instr.reset.wellFormed = true ∧ Instr.finish.wellFormed = true ∧ Instr.keyclr.wellFormed = true
    ∧ Instr.clrerr.wellFormed = true := by decide

theorem witness_DecodingIsTotalAndExact :
    decode 0x06000004 = .ok (.key 4) ∧ illegal 0x06000004 = false ∧ illegal 0x06000005 = true := by decide

theorem witness_OperandsAreTheRawFields :
    decode 0x01000012 = .ok (.init .sha224 .hmac) ∧ decode 0x01000000 = .ok (.init .sha1 .plain)
    ∧ decode 0x03000000 = .ok (.add 0) ∧ decode 0x03000004 = .ok (.add 4) ∧ decode 0x06000004 = .ok (.key 4)
    ∧ decode 0x00000000 = .ok .nop ∧ decode 0x02000000 = .ok .reset ∧ decode 0x04000000 = .ok .finish
    ∧ decode 0x05000000 = .ok .keyclr ∧ decode 0x07000000 = .ok .clrerr := by decide

theorem witness_DataBytesComeFromLatchedDin :
    (opField 0x03000004 = 0x03 ∧ (0x03000004 : Word).extractLsb' 3 21 = 0)
    ∧ (opField 0x06000005 = 0x06 ∧ (0x06000005 : Word).extractLsb' 3 21 = 0) ∧ 4 ≤ 4 ∧ 3 < 4 := by decide

theorem witness_StepRunsTheDecodedCommand :
    commandDue (due 0x03000004 0x61626364) ∧ decode (due 0x03000004 0x61626364).cmdWord = .ok (.add 4)
    ∧ (Instr.add 4).wellFormed = true := ⟨due_commandDue _ _, by decide, by decide⟩

theorem witness_IllegalWordRaisesEill :
    commandDue (due 0x03000005 0) ∧ illegal (due 0x03000005 0).cmdWord = true := ⟨due_commandDue _ _, by decide⟩

/-- One port for each of the five clauses, the first two over a busy and a free machine. -/
theorem witness_OnlyCommandWritesWait :
    (∀ busy p, hostTurn (asks busy p) ∧ (asks busy p).todo = .cycle p :: [] ∧ (asks busy p).busy = busy)
    ∧ ((writePort 0x03 0x04000000).wr = true ∧ Reg.ofAddr (writePort 0x03 0x04000000).addr = .cmd)
    ∧ Reg.ofAddr (writePort 0x04 1).addr = .din
    ∧ (Reg.ofAddr (writePort 0x08 1).addr ≠ .cmd ∧ Reg.ofAddr (writePort 0x08 1).addr ≠ .din)
    ∧ (readPort 0x00).rd = true ∧ (readPort 0x00).rst = false :=
  ⟨fun b p => ⟨asks_hostTurn b p, rfl, rfl⟩, by decide, by decide, by decide, by decide⟩

theorem witness_ReadsInAndOutOfTheBusyWindow :
    (∀ busy a, hostTurn (asks busy (readPort a)) ∧ (asks busy (readPort a)).todo = .cycle (readPort a) :: []
      ∧ (asks busy (readPort a)).busy = busy)
    ∧ Reg.ofAddr (readPort 0x08).addr = .status ∧ Reg.ofAddr (readPort 0x10).addr = .lenLo
    ∧ Reg.ofAddr (readPort 0x3C).addr = .dout 7 ∧ Reg.ofAddr (readPort 0x40).addr = .hex 0
    ∧ Reg.ofAddr (readPort 0x04).addr = .din ∧ Reg.ofAddr (readPort 0x0C).addr = .id
    ∧ Reg.ofAddr (readPort 0x00).addr = .cmd ∧ Reg.ofAddr (readPort 0x1C).addr = .reserved 1 :=
  ⟨fun b _ => ⟨asks_hostTurn b _, rfl, rfl⟩, by decide, by decide, by decide, by decide, by decide, by decide,
    by decide, by decide⟩

/-- Reset in the middle of a command, with a read under it and a command behind it; and reset with a command due. -/
theorem witness_HardwareResetSetsEverything :
    hostTurn { asks true (rstPort true) with todo := [.cycle (rstPort true), memWrite 0x00 0x02000000] }
    ∧ commandDue { due 0x04000000 0 with todo := [.cycle (rstPort false), memWrite 0x00 0x02000000] }
    ∧ ({ due 0x04000000 0 with todo := [.cycle (rstPort false), memWrite 0x00 0x02000000] }).todo
        = .cycle (rstPort false) :: [memWrite 0x00 0x02000000]
    ∧ (rstPort true).rst = true ∧ (rstPort true).rd = true ∧ (rstPort false).rst = true
    ∧ [memWrite 0x00 0x02000000] = memWrite 0x00 0x02000000 :: [] :=
  ⟨.inr (by decide), ⟨rfl, rfl⟩, rfl, rfl, rfl, rfl, rfl⟩

theorem witness_EveryAcceptedCommandCompletes :
    (asks true (readPort 0x08)).busy = true ∧ (due 0x04000000 0).busy = true := by decide

/-- A step of each of the three kinds: a completion, an acceptance, a reset. -/
theorem witness_CpCountsAcceptedWords :
    (∃ t, commandDue (due 0x07000000 0) ∧ step (due 0x07000000 0) = .next t)
    ∧ (∃ t, step (asks false (writePort 0x00 0x08000000)) = .next t
        ∧ (asks false (writePort 0x00 0x08000000)).busy = false ∧ t.busy = true)
    ∧ ∃ t, step { asks false (rstPort false) with cp := 5 } = .next t ∧ t.cp = 0 :=
  ⟨⟨_, due_commandDue _ _, rfl⟩, ⟨_, rfl, rfl, rfl⟩, ⟨_, rfl, rfl⟩⟩

theorem witness_DinIsTheHostsAlone :
    (∃ t, step (asks true (writePort 0x04 7)) = .next t ∧ t.din ≠ (asks true (writePort 0x04 7)).din)
    ∧ (∃ t, step { asks false (rstPort false) with din := 7 } = .next t ∧ t.din ≠ 7)
    ∧ hostTurn (asks true (writePort 0x04 7))
    ∧ (asks true (writePort 0x04 7)).todo = memWrite 0x04 7 :: [] :=
  ⟨⟨_, rfl, by decide⟩, ⟨_, rfl, by decide⟩, asks_hostTurn _ _, rfl⟩

/-- Five bytes make a full group and one of a single byte. -/
theorem witness_PseudoInstructionsExpand :
    addbytes [1, 2, 3, 4, 5] = addw 0x01020304 4 ++ addw 0x05000000 1
    ∧ ([(0x01020304, 4), (0x05000000, 1)] : List (Word × Nat))[1]? = some (0x05000000, 1) := by decide

theorem witness_AddressDecoding : Reg.status ≠ .cmd ∧ Reg.status ≠ .din := by decide

theorem witness_StatusFields :
    (plainState (buffered 63 63) 0).busy = false ∧ (due 0 0).busy = true
    ∧ (plainState (buffered 63 63) 0).ctx0.buf.length < 64 ∧ (plainState (finalCtx 0) 0).ctx0.buf.length < 64
    ∧ (loading key65).klen > 64 ∧ ¬ (loading key64).klen > 64 := by decide +kernel

theorem witness_LengthRegisters :
    (plainState (buffered 63 lmax) 0).ctx0.tlen ≤ lmax ∧ State.reset.ctx0.tlen ≤ lmax := by decide

theorem witness_DoutSpellsTheDigest :
    (plainState (finalCtx 3) 0).dv = true ∧ (hmacState .finalized (finalCtx 64)).dv = true
    ∧ (plainState (buffered 3 3) 0).dv = false
    ∧ digestSize (plainState (finalCtx 3) 0).alg / 4 ≤ (5 : Fin 8).val := by decide

theorem witness_HexSpellsTheDigest :
    (plainState (finalCtx 3) 0).dv = true ∧ (hmacState .finalized (finalCtx 64)).dv = true
    ∧ (plainState (buffered 3 3) 0).dv = false
    ∧ digestSize (plainState (finalCtx 3) 0).alg / 2 ≤ (10 : Fin 16).val := by decide

/-- Two states with different keys and different buffered bytes, alike in all that shows. -/
theorem witness_InternalStorageIsNotReadable :
    let s := { hmacState .accumulating (buffered 3 67) with kb := padKey key64, k0 := padKey key64, klen := 64 }
    let t := { hmacState .accumulating { buffered 3 67 with buf := [0, 1, 2] } with cp := 9, klen := 3 }
    s.alg = t.alg ∧ s.mode = t.mode ∧ s.life = t.life ∧ s.err = t.err ∧ s.din = t.din ∧ s.busy = t.busy
    ∧ s.draws = t.draws ∧ s.klong = t.klong ∧ s.ctx0.buf.length = t.ctx0.buf.length ∧ s.ctx0.tlen = t.ctx0.tlen
    ∧ (s.dv = true → digestWords s.alg s.hsel = digestWords t.alg t.hsel) ∧ s ≠ t := by decide +kernel

theorem witness_Sha1MessageSchedule : abcBlock.length = 64 ∧ 15 < 16 ∧ 16 ≤ 16 ∧ 79 < 80 := by decide

theorem witness_Sha256MessageSchedule : abcBlock.length = 64 ∧ 15 < 16 ∧ 16 ≤ 16 ∧ 63 < 64 := by decide

theorem witness_Sha1SixteenWordWindow : abcBlock.length = 64 ∧ 0 < 80 ∧ 79 < 80 := by decide

theorem witness_Sha256SixteenWordWindow : abcBlock.length = 64 ∧ 0 < 64 ∧ 63 < 64 := by decide

theorem witness_PaddingShape :
    (List.replicate 55 (0x61 : Byte)).length ≤ 55 ∧ 56 ≤ (List.replicate 56 (0x61 : Byte)).length
    ∧ (List.replicate 63 (0x61 : Byte)).length < 64 ∧ lmax ≤ lmax ∧ ([] : List Byte).length < 64
    ∧ (buffered 56 lmax).buf = List.replicate 56 0x61 ∧ (buffered 56 lmax).tlen = lmax := by decide

theorem witness_StreamingEqualsClosedForm : key65.length ≤ lmax := by decide

/-- The four clauses: at the edge of a block from both sides, and past LMAX. -/
theorem witness_PlainAddResult :
    (plainState (finalCtx 3) 0).mode = .plain ∧ (plainState (finalCtx 3) 0).ctx0.st ≠ .accumulating
    ∧ (buffered 61 61).st = .accumulating ∧ (buffered 61 61).buf.length < 64 ∧ (buffered 61 61).tlen + 3 ≤ lmax
    ∧ (buffered 61 61).buf.length + 2 < 64 ∧ 64 ≤ (buffered 61 61).buf.length + 3
    ∧ (buffered 61 (lmax - 2)).tlen + 3 > lmax ∧ (buffered 61 (lmax - 2)).tlen + 2 ≤ lmax := by decide

/-- From Accumulating and from Finalized. -/
theorem witness_AddChunkingInvariance :
    (plainState (buffered 3 3) 0).mode = .plain ∧ (plainState (buffered 3 3) 0).ctx0.st = .accumulating
    ∧ (∀ x ∈ onePiece ++ threePieces, x.2 ≤ 4) ∧ carried onePiece = carried threePieces
    ∧ 3 + (carried onePiece).length ≤ lmax
    ∧ (∃ t, feed .add onePiece (plainState (buffered 3 3) 0) = .next t)
    ∧ (∃ t, feed .add threePieces (plainState (buffered 3 3) 0) = .next t)
    ∧ (∃ t, feed .add onePiece (plainState (finalCtx 3) 0) = .next t)
    ∧ ∃ t, feed .add threePieces (plainState (finalCtx 3) 0) = .next t :=
  ⟨rfl, rfl, by decide, by decide, by decide, ⟨_, rfl⟩, ⟨_, rfl⟩, ⟨_, rfl⟩, ⟨_, rfl⟩⟩

theorem witness_PlainFinishResult :
    (plainState (finalCtx 3) 0).mode = .plain ∧ (plainState (finalCtx 3) 0).ctx0.st = .finalized
    ∧ State.reset.mode = .plain ∧ State.reset.ctx0.st = .idle
    ∧ (holding plainJob).mode = .plain
    ∧ (holding plainJob).ctx0 = absorbAll (holding plainJob).alg (started (holding plainJob).alg) [0x61, 0x62, 0x63]
    ∧ ([0x61, 0x62, 0x63] : List Byte).length ≤ lmax := ⟨rfl, rfl, rfl, rfl, rfl, rfl, by decide⟩

theorem witness_PlainResetResult : (plainState (finalCtx 3) 0).mode = .plain := rfl

theorem witness_PlainLifecycleTable :
    (plainState (buffered 61 (lmax - 2)) 0).mode = .plain ∧ (Instr.add 3).wellFormed = true
    ∧ (plainState (finalCtx 3) 0).mode = .plain ∧ (Instr.add 0).wellFormed = true
    ∧ State.reset.mode = .plain ∧ Instr.finish.wellFormed = true ∧ (Instr.key 0).wellFormed = true := by decide

theorem witness_DigestStaysUntilItsContextChanges :
    (plainState (finalCtx 3) 0).dv = true
    ∧ (∃ t, exec .finish (plainState (finalCtx 3) 0) = .next t)
    ∧ (∃ t, exec (.key 4) (plainState (finalCtx 3) 0) = .next t)
    ∧ hostTurn (asks false (readPort 0x20)) ∧ (readPort 0x20).rst = false ∧ (readPort 0x20).rd = true
    ∧ (asks false (readPort 0x20)).todo = .cycle (readPort 0x20) :: []
    ∧ ∃ t, step (asks false (readPort 0x20)) = .next t :=
  ⟨rfl, ⟨_, rfl⟩, ⟨_, rfl⟩, asks_hostTurn _ _, rfl, rfl, rfl, ⟨_, rfl⟩⟩

/-- A program of 40_accumulator.md R157, with one of the three starts. -/
def digestProgram (start : List Asm) : List HostOp :=
  assemble (start ++ threePieces.flatMap (fun x => addw x.1 x.2) ++ digest .sha1 ++ hexdigest .sha1)

theorem witness_DigestProgramReadsTheHash :
    (State.reset.busy = false ∧ (∀ x ∈ threePieces, x.2 ≤ 4) ∧ (carried threePieces).length ≤ lmax)
    ∧ ({ State.reset with todo := digestProgram [.init .sha1 .plain] }).todo
        = assemble ([.init .sha1 .plain] ++ threePieces.flatMap (fun x => addw x.1 x.2) ++ digest .sha1
            ++ hexdigest .sha1) ++ []
    ∧ ({ State.reset with todo := digestProgram [] }).ctx0.st = .idle
    ∧ ({ plainState (finalCtx 3) 0 with todo := digestProgram [] }).ctx0.st = .finalized ∧ threePieces ≠ []
    ∧ ({ plainState (buffered 3 3) 0 with todo := digestProgram [.reset] }).mode = .plain :=
  ⟨by decide, (List.append_nil _).symm, rfl, rfl, by decide, rfl⟩

theorem witness_PlainReuseStartsAfresh :
    (plainState (finalCtx 3) 0).mode = .plain ∧ (plainState (finalCtx 3) 0).ctx0.st = .finalized
    ∧ threePieces ≠ [] ∧ (∀ x ∈ threePieces, x.2 ≤ 4) ∧ (carried threePieces).length ≤ lmax := by decide

theorem witness_NopChangesNothing :
    commandDue (due 0x00000000 0) ∧ (due 0x00000000 0).cmdWord = 0x00000000
    ∧ commandDue (due 0x00000100 0) ∧ opField (due 0x00000100 0).cmdWord = 0x00
    ∧ opndField (due 0x00000100 0).cmdWord ≠ 0 :=
  ⟨due_commandDue _ _, rfl, due_commandDue _ _, by decide, by decide⟩

theorem witness_InitGivesAFreshInstance :
    commandDue (due 0x01000020 0) ∧ opField (due 0x01000020 0).cmdWord = 0x01
    ∧ opndField (due 0x01000020 0).cmdWord &&& ~~~0x000013 ≠ 0
    ∧ commandDue (due 0x01000013 0) ∧ opField (due 0x01000013 0).cmdWord = 0x01
    ∧ algField (due 0x01000013 0).cmdWord = 3 :=
  ⟨due_commandDue _ _, by decide, by decide, due_commandDue _ _, by decide, by decide⟩

/-- With an earlier error and without. -/
theorem witness_ClrerrClearsErrAlone :
    commandDue { due 0x07000001 0 with err := .eseq } ∧ opField (due 0x07000001 0).cmdWord = 0x07
    ∧ opndField (due 0x07000001 0).cmdWord ≠ 0 ∧ ({ due 0x07000001 0 with err := .eseq }).err ≠ .none
    ∧ commandDue (due 0x07000001 0) ∧ (due 0x07000001 0).err = .none :=
  ⟨⟨rfl, rfl⟩, by decide, by decide, by decide, due_commandDue _ _, rfl⟩

theorem witness_KeyclrDiscardsTheKey :
    (holding hmacJob).mode = .hmac ∧ State.reset.mode = .plain
    ∧ commandDue (due 0x05000001 0) ∧ opField (due 0x05000001 0).cmdWord = 0x05
    ∧ opndField (due 0x05000001 0).cmdWord ≠ 0
    ∧ (∃ t, exec (.key 4) (keyedState 0) = .next t) ∧ 2 < (keyedState 0).klen
    ∧ (∃ t, exec .reset (rekeyedState 0) = .next t) ∧ (rekeyedState 0).mode = .hmac ∧ (rekeyedState 0).hst ≠ .idle :=
  ⟨rfl, rfl, due_commandDue _ _, by decide, by decide, ⟨_, rfl⟩, by decide, ⟨_, rfl⟩, rfl, by decide⟩

/-- Up to the 64th byte: 60 bytes and 4, and 64 bytes and none. Past it: 64 bytes and 1, and 65 bytes and 4. -/
theorem witness_KeyAppendsItsBytes :
    ∀ x ∈ [(key60, 4), (key64, 0), (key64, 1), (key65, 4)],
      let key : List Byte := x.1
      let n : Nat := x.2
      (loading key).mode = .hmac ∧ (loading key).hst = .idle ∧ (loading key).kb = padKey key
      ∧ (loading key).klen = key.length
      ∧ (64 < key.length → (loading key).ctx0 = absorbAll (loading key).alg (started (loading key).alg) key)
      ∧ n ≤ 4 ∧ key.length + n ≤ lmax := by
  simp only [List.forall_mem_cons]
  exact ⟨⟨rfl, rfl, rfl, rfl, loading_ctx0 _, by decide, by decide +kernel⟩,
    ⟨rfl, rfl, rfl, rfl, loading_ctx0 _, by decide, by decide +kernel⟩,
    ⟨rfl, rfl, rfl, rfl, loading_ctx0 _, by decide, by decide +kernel⟩,
    ⟨rfl, rfl, rfl, rfl, loading_ctx0 _, by decide, by decide +kernel⟩, by simp⟩

/-- These four are the boundary cases of its two last clauses. -/
theorem witness_KeyAppendsItsBytes_bounds :
    key60.length + 4 = 64 ∧ key64.length + 0 = 64 ∧ key64.length + 1 = 65 ∧ 64 < key65.length + 4 := by decide

/-- From Idle with a short key and with a long one, and once keyed. -/
theorem witness_HmacResetNormalisesAndKeys :
    (∀ key ∈ [key64, key65],
      (loading key).mode = .hmac ∧ (loading key).hst = .idle ∧ (loading key).kb = padKey key
      ∧ (loading key).klen = key.length ∧ key.length ≤ lmax
      ∧ (64 < key.length → (loading key).ctx0 = absorbAll (loading key).alg (started (loading key).alg) key))
    ∧ (holding hmacJob).mode = .hmac ∧ (holding hmacJob).hst ≠ .idle
    ∧ (holding hmacJob).kb = padKey hmacJob.key ∧ (holding hmacJob).klen = hmacJob.key.length
    ∧ hmacJob.key.length ≤ lmax := by
  simp only [List.forall_mem_cons]
  exact ⟨⟨⟨rfl, rfl, rfl, rfl, by decide +kernel, loading_ctx0 _⟩,
    ⟨rfl, rfl, rfl, rfl, by decide +kernel, loading_ctx0 _⟩, by simp⟩, rfl, by decide, rfl, rfl, by decide⟩

theorem witness_HmacAddResult :
    (hmacState .idle Ctx.idle).mode = .hmac ∧ (hmacState .idle Ctx.idle).hst = .idle
    ∧ (hmacState .accumulating (buffered 0 64)).hst = .accumulating ∧ (buffered 0 64).tlen + 4 ≤ lmax
    ∧ (buffered 61 (lmax - 2)).tlen + 2 ≤ lmax ∧ (buffered 61 (lmax - 2)).tlen + 3 > lmax
    ∧ (hmacState .accumulating (buffered 61 (lmax - 2))).hst = .accumulating
    ∧ (hmacState .finalized (finalCtx 67)).hst = .finalized := by decide

/-- The last clause: an HMAC with K0 = 0 that has its inner pad and "abc" in CTX0. -/
theorem witness_HmacFinishResult :
    (hmacState .idle Ctx.idle).mode = .hmac ∧ (hmacState .idle Ctx.idle).hst = .idle
    ∧ (hmacState .finalized (finalCtx 67)).hst = .finalized
    ∧ ∃ s : State, s.mode = .hmac ∧ s.hst = .accumulating
      ∧ s.ctx0 = absorbAll s.alg (started s.alg) (s.k0.toList.map (· ^^^ 0x36) ++ [0x61, 0x62, 0x63])
      ∧ 64 + ([0x61, 0x62, 0x63] : List Byte).length ≤ lmax :=
  ⟨rfl, rfl, rfl,
    hmacState .accumulating
      (absorbAll .sha1 (started .sha1) (zeroKey.toList.map (· ^^^ 0x36) ++ [0x61, 0x62, 0x63])),
    rfl, rfl, hmacState_ctx0 _ _, by decide⟩

theorem witness_HmacLifecycleTable :
    (hmacState .idle Ctx.idle).mode = .hmac ∧ (hmacState .accumulating (buffered 61 (lmax - 2))).mode = .hmac
    ∧ (hmacState .finalized (finalCtx 67)).mode = .hmac ∧ (Instr.key 4).wellFormed = true
    ∧ (Instr.add 3).wellFormed = true ∧ Instr.finish.wellFormed = true ∧ Instr.keyclr.wellFormed = true := by decide

/-- A program of 43_hmac.md R295, with one of the two starts: key and message are both "abc". -/
def hmacProgram (start : List Asm) : List HostOp :=
  assemble
    (start ++ onePiece.flatMap (fun x => keyw x.1 x.2) ++ [.reset] ++ threePieces.flatMap (fun x => addw x.1 x.2)
      ++ digest .sha1 ++ hexdigest .sha1)

theorem witness_HmacProgramReadsTheMac :
    (State.reset.busy = false ∧ (∀ x ∈ onePiece ++ threePieces, x.2 ≤ 4) ∧ (carried onePiece).length ≤ lmax
      ∧ 64 + (carried threePieces).length ≤ lmax)
    ∧ ({ State.reset with todo := hmacProgram [.init .sha1 .hmac] }).todo
        = assemble ([.init .sha1 .hmac] ++ onePiece.flatMap (fun x => keyw x.1 x.2) ++ [.reset]
            ++ threePieces.flatMap (fun x => addw x.1 x.2) ++ digest .sha1 ++ hexdigest .sha1) ++ []
    ∧ ({ keyedState 0 with todo := hmacProgram [.keyclr] }).mode = .hmac
    ∧ ({ keyedState 0 with todo := hmacProgram [.keyclr] }).alg = .sha1 :=
  ⟨by decide, (List.append_nil _).symm, rfl, rfl⟩

theorem witness_HmacReuseKeepsTheKey :
    Represents (holding hmacJob) hmacJob ∧ hmacJob.mode = .hmac ∧ hmacJob.phase = .finalized [0x61, 0x62, 0x63]
    ∧ threePieces ≠ [] ∧ (∀ x ∈ threePieces, x.2 ≤ 4) ∧ 64 + (carried threePieces).length ≤ lmax :=
  ⟨hmacJob_represents, rfl, rfl, by decide, by decide, by decide⟩

theorem witness_EseqExactlyInItsCases :
    State.reset.err = .none ∧ (Instr.key 0).wellFormed = true ∧ (hmacState .idle Ctx.idle).err = .none
    ∧ (Instr.add 4).wellFormed = true := by decide

/-- At LMAX and one past it, in both modes and for KEY. -/
theorem witness_ElenExactlyPastLmax :
    (plainState (buffered 61 (lmax - 2)) 0).err = .none
    ∧ seqError (.add 3) (plainState (buffered 61 (lmax - 2)) 0) = false
    ∧ (hmacState .accumulating (buffered 61 (lmax - 2))).err = .none
    ∧ seqError (.add 2) (hmacState .accumulating (buffered 61 (lmax - 2))) = false
    ∧ seqError (.key 2) { hmacState .idle (buffered 62 (lmax - 1)) with klen := lmax - 1 } = false
    ∧ (Instr.add 3).wellFormed = true ∧ (Instr.key 2).wellFormed = true := by decide

/-- Each of the three codes, a word that raises none, and CLRERR. -/
theorem witness_OneErrorInCheckOrder :
    (∀ w d, commandDue (due w d))
    ∧ errorOf 0x06000005 (due 0x06000005 0) = .eill ∧ errorOf 0x06000004 (due 0x06000004 0) = .eseq
    ∧ commandDue { due 0x03000003 0 with ctx0 := buffered 61 (lmax - 2) }
    ∧ errorOf 0x03000003 { due 0x03000003 0 with ctx0 := buffered 61 (lmax - 2) } = .elen
    ∧ errorOf 0x04000000 (due 0x04000000 0) = .none ∧ (0x04000000 : Word) ≠ 0x07000000
    ∧ (due 0x07000000 0).cmdWord = 0x07000000 :=
  ⟨due_commandDue, by decide, by decide, ⟨rfl, rfl⟩, by decide, by decide, by decide, rfl⟩

theorem witness_RejectionIsPrecise :
    commandDue (due 0x05000000 0) ∧ errorOf (due 0x05000000 0).cmdWord (due 0x05000000 0) ≠ .none :=
  ⟨due_commandDue _ _, by decide⟩

theorem witness_ErrIsStickyUntilCleared :
    (∃ t, step { due 0x07000000 0 with err := .elen } = .next t ∧ t.err ≠ .elen)
    ∧ (∃ t, step { asks true (rstPort false) with err := .elen } = .next t ∧ t.err ≠ .elen)
    ∧ commandDue (due 0x07000000 0) ∧ (due 0x07000000 0).cmdWord = 0x07000000
    ∧ hostTurn (asks true (rstPort false)) ∧ (asks true (rstPort false)).todo = .cycle (rstPort false) :: []
    ∧ (rstPort false).rst = true :=
  ⟨⟨_, rfl, by decide⟩, ⟨_, rfl, by decide⟩, due_commandDue _ _, rfl, asks_hostTurn _ _, rfl, rfl⟩

/-- A command of each group of the frame. -/
theorem witness_CommandFrame :
    (∃ t, exec .nop State.reset = .next t) ∧ (∃ t, exec (.add 2) (plainState (buffered 3 3) 0) = .next t)
    ∧ (∃ t, exec (.key 4) (keyedState 0) = .next t) ∧ (∃ t, exec .keyclr (keyedState 0) = .next t)
    ∧ (∃ t, exec .finish (hmacState .idle Ctx.idle) = .next t)
    ∧ ∃ t, exec (.key 0) { State.reset with err := .eill } = .next t :=
  ⟨⟨_, rfl⟩, ⟨_, rfl⟩, ⟨_, rfl⟩, ⟨_, rfl⟩, ⟨_, rfl⟩, ⟨_, rfl⟩⟩

/-- A step that moves each flag: ALG, HM and BUSY; ST; ERR by a rejection; ERR by CLRERR; KLONG; PLEN. -/
theorem witness_FlagsChangeOnlyByNamedCommands :
    (∃ t, step (due 0x01000012 0) = .next t ∧ t.alg ≠ .sha1 ∧ t.mode ≠ .plain ∧ t.busy ≠ (due 0x01000012 0).busy)
    ∧ (∃ t, step (due 0x02000000 0) = .next t ∧ t.life ≠ (due 0x02000000 0).life)
    ∧ (∃ t, step (due 0x08000000 0) = .next t ∧ t.err ≠ .none)
    ∧ (∃ t, step { loading key65 with busy := true, cmdWord := 0x05000000 } = .next t
        ∧ t.klong ≠ (loading key65).klong)
    ∧ (∃ t, step { due 0x07000000 0 with err := .elen } = .next t ∧ t.err ≠ .elen)
    ∧ (∃ t, step (due 0x03000003 0) = .next t ∧ t.plen ≠ (due 0x03000003 0).plen)
    ∧ (due 0x01000012 0).todo = [] :=
  ⟨⟨_, rfl, by decide, by decide, by decide⟩, ⟨_, rfl, by decide⟩, ⟨_, rfl, by decide⟩, ⟨_, rfl, by decide +kernel⟩,
    ⟨_, rfl, by decide⟩, ⟨_, rfl, by decide +kernel⟩, rfl⟩

theorem witness_EveryStepKeepsSound :
    Sound (holding plainJob) ∧ ∃ t, step (holding plainJob) = .next t := ⟨⟨_, plainJob_represents⟩, ⟨_, rfl⟩⟩

theorem witness_CommandsRefineTheInstance :
    Represents (holding plainJob) plainJob ∧ Represents (holding hmacJob) hmacJob :=
  ⟨plainJob_represents, hmacJob_represents⟩

theorem witness_ReadoutShowsTheInstance :
    (Represents (holding hmacJob) hmacJob ∧ hmacJob.phase = .finalized [0x61, 0x62, 0x63])
    ∧ (Represents (holding plainJob) plainJob ∧ plainJob.phase = .accumulating [0x61, 0x62, 0x63]
        ∧ ∀ m, plainJob.phase ≠ .finalized m) :=
  ⟨⟨hmacJob_represents, rfl⟩, ⟨plainJob_represents, rfl, fun _ h => by cases h⟩⟩

theorem witness_SoundStatesAreRegular : Sound (holding hmacJob) := ⟨_, hmacJob_represents⟩

end Sys2Proof.Tests
end

section
/-! SUPPORT. The padding controller computes the closed form of 40_accumulator.md R161, and what a context that has
absorbed a message holds. -/

namespace Sys2Proof.Machine

/-! ### The closed form -/

@[simp] theorem started_st (alg : Alg) : (started alg).st = .accumulating := rfl
@[simp] theorem started_buf (alg : Alg) : (started alg).buf = [] := rfl
@[simp] theorem started_tlen (alg : Alg) : (started alg).tlen = 0 := rfl
@[simp] theorem started_h (alg : Alg) : (started alg).h = iv alg := rfl

theorem ctxReset_eq_started (alg : Alg) (c : Ctx) : ctxReset alg c = started alg := rfl

/-- The padding depends on the bytes of the last block alone (R147). -/
theorem padded_append (xs ys : List Byte) (total : Nat) (h : xs.length % 64 = 0) :
    padded (xs ++ ys) total = xs ++ padded ys total := by
  have hz : zeroCount (xs.length + ys.length) = zeroCount ys.length := by
    simp only [zeroCount]; omega
  simp [padded, hz]

/-- Byte-serial absorption and the padding controller give `Hash` (R161). -/
theorem extract_ctxFinalize_absorbAll (alg : Alg) (m : List Byte) :
    extract alg (ctxFinalize alg (absorbAll alg (started alg) m)).h = hash alg m := by
  obtain ⟨q, hq⟩ : ∃ q, m.length / 64 = q := ⟨_, rfl⟩
  obtain ⟨xs, hxs⟩ : ∃ xs, m.take (64 * q) = xs := ⟨_, rfl⟩
  obtain ⟨ys, hys⟩ : ∃ ys, m.drop (64 * q) = ys := ⟨_, rfl⟩
  have hm : m = xs ++ ys := by rw [← hxs, ← hys, List.take_append_drop]
  have hlen : xs.length = 64 * q := by rw [← hxs, List.length_take]; omega
  have hpad : padded m m.length = xs ++ padded ys m.length := by
    conv => lhs; rw [hm]
    rw [padded_append _ _ _ (by omega), ← hm]
  have hblocks : (padded m m.length).length / 64 = q + (padded ys m.length).length / 64 := by
    rw [hpad, List.length_append]; omega
  have hfirst : compressBlocks alg q (iv alg) m = compressBlocks alg q (iv alg) xs := by
    rw [hm, compressBlocks_append _ _ _ _ _ (by omega)]
  simp only [hash, blockSize, hblocks, compressBlocks_add]
  rw [hpad, compressBlocks_append _ _ _ _ _ (by omega), List.drop_left' hlen,
    absorbAll_blocks _ _ _ (started_buf alg), hq, hys]
  simp [ctxFinalize, blockSize, hfirst]

/-- The outer digest of a finished HMAC is the closed form of 43_hmac.md R280. -/
theorem extract_outerDigest (alg : Alg) (k : Vector Byte 64) (c : Ctx) (inner : List Byte) :
    extract alg (outerDigest alg k c inner).h = hash alg (xorPad k opadByte ++ inner) := by
  rw [outerDigest, ← absorbAll_append, ctxReset_eq_started, extract_ctxFinalize_absorbAll]

/-! ### Regular contexts (10_state.md R51) -/

theorem Ctx.idle_regular : Ctx.idle.regular := by simp [Ctx.regular, Ctx.idle]

theorem absorbAll_started_regular (alg : Alg) (m : List Byte) (h : m.length ≤ lmax) :
    (absorbAll alg (started alg) m).regular := by
  have hbuf := absorbAll_buf_length alg (started alg) m (started_buf alg)
  refine ⟨by omega, by simpa using h, ?_, ?_, ?_⟩ <;> simp [hbuf]

theorem ctxFinalize_regular (alg : Alg) (c : Ctx) (h : c.tlen ≤ lmax) : (ctxFinalize alg c).regular := by
  simpa [Ctx.regular] using h

end Sys2Proof.Machine
end

section
/-! SUPPORT. What a state that represents a job holds, and the changes of the lifecycle that keep the representation
(40_accumulator.md R149-R161, 43_hmac.md R280-R299). -/

namespace Sys2Proof.Machine

/-! ### The abstract machine's operations -/

theorem Job.padLength_plain {j : Job} (hm : j.mode = .plain) : j.padLength = 0 := by simp [Job.padLength, hm]

theorem Job.padLength_hmac {j : Job} (hm : j.mode = .hmac) : j.padLength = 64 := by simp [Job.padLength, hm]

theorem Job.padLength_le (j : Job) : j.padLength ≤ lmax := by
  unfold Job.padLength; split <;> decide

theorem Job.stream_length (j : Job) (m : List Byte) : (j.stream m).length = j.padLength + m.length := by
  unfold Job.stream Job.padLength; split <;> simp

theorem Job.stream_append (j : Job) (m bytes : List Byte) : j.stream (m ++ bytes) = j.stream m ++ bytes := by
  unfold Job.stream; split <;> simp

theorem Phase.life_idle_iff {p : Phase} : p.life = .idle ↔ p = .idle := by
  cases p <;> simp [Phase.life]

theorem Phase.life_accumulating_iff {p : Phase} : p.life = .accumulating ↔ ∃ m, p = .accumulating m := by
  cases p <;> simp [Phase.life]

theorem Phase.life_finalized_iff {p : Phase} : p.life = .finalized ↔ ∃ m, p = .finalized m := by
  cases p <;> simp [Phase.life]

/-- In a message under way the bytes are appended (R154, R292). -/
theorem Job.append_continues {j : Job} {m : List Byte} (hp : j.phase = .accumulating m) (bytes : List Byte) :
    j.append bytes = if j.padLength + m.length + bytes.length > lmax then j.reject .elen
      else { j with phase := .accumulating (m ++ bytes) } := by
  simp [Job.append, hp, Nat.add_assoc]

/-- Otherwise a new message starts with them (R159, R298). -/
theorem Job.append_starts {j : Job} (hp : j.phase.life ≠ .accumulating) (bytes : List Byte) :
    j.append bytes = if j.padLength + bytes.length > lmax then j.reject .elen
      else { j with phase := .accumulating bytes } := by
  cases h : j.phase <;> simp [Job.append, Phase.life, h] at hp ⊢

theorem Job.command_add {j : Job} (h : ¬ (j.mode = .hmac ∧ j.phase = .idle)) (n : Nat) (d : Word) :
    j.command (.add n) d = j.append (data d n) := by
  simp only [Job.command]; split <;> simp_all

theorem Job.command_finish {j : Job} (h : ¬ (j.mode = .hmac ∧ j.phase = .idle)) (d : Word) :
    j.command .finish d = { j with phase := .finalized j.phase.message } := by
  simp only [Job.command]; split <;> simp_all

theorem Job.command_key {j : Job} (h : ¬ (j.mode = .hmac ∧ j.phase = .idle)) (n : Nat) (d : Word) :
    j.command (.key n) d = j.reject .eseq := by
  simp only [Job.command]; split <;> simp_all

/-! ### What a representing state holds -/

section
variable {s : State} {j : Job}

/-- What the bus alone moves is no part of the job. -/
theorem Represents.with_bus (h : Represents s j) (din : Word) (busy : Bool) (w d : Word) (cp lat draws : Nat)
    (todo : List HostOp) (got : List Word) :
    Represents { s with
      din := din, busy := busy, cmdWord := w, cmdData := d, cp := cp, latLeft := lat, draws := draws,
      todo := todo, got := got } j :=
  ⟨h.alg, h.mode, h.ctx0, h.ctx1, h.hst, h.kb, h.klen, h.k0, h.err, h.plainKey, h.keyBound, h.lengthBound⟩

theorem Represents.hst_hmac (h : Represents s j) (hm : j.mode = .hmac) : s.hst = j.phase.life := by
  simp [h.hst, Job.hst, hm]

theorem Represents.ctx0_idle (h : Represents s j) (hp : j.phase = .idle) (hk : j.key.length ≤ 64) :
    s.ctx0 = Ctx.idle := by
  simp [h.ctx0, Job.inner, hp, Nat.not_lt.mpr hk]

theorem Represents.ctx0_accumulating {m : List Byte} (h : Represents s j) (hp : j.phase = .accumulating m) :
    s.ctx0 = absorbAll j.alg (started j.alg) (j.stream m) := by
  simp [h.ctx0, Job.inner, hp]

theorem Represents.ctx0_finalized {m : List Byte} (h : Represents s j) (hp : j.phase = .finalized m) :
    s.ctx0 = ctxFinalize j.alg (absorbAll j.alg (started j.alg) (j.stream m)) := by
  simp [h.ctx0, Job.inner, hp]

theorem Represents.ctx1_idle (h : Represents s j) (hp : ¬ (j.mode = .hmac ∧ j.phase.life = .finalized)) :
    s.ctx1 = Ctx.idle := by
  rw [h.ctx1, Job.outer]; split <;> simp_all [Phase.life]

/-- In plain mode CTX0 shows the lifecycle (10_state.md R25). -/
theorem Represents.ctx0_st_plain (h : Represents s j) (hm : j.mode = .plain) : s.ctx0.st = j.phase.life := by
  cases hp : j.phase with
  | idle => rw [h.ctx0_idle hp (by simp [h.plainKey hm])]; rfl
  | accumulating m => rw [h.ctx0_accumulating hp]; simp [Phase.life]
  | finalized m => rw [h.ctx0_finalized hp]; simp [Phase.life]

/-- CTX0 counts the message and the pad (10_state.md R27, 43_hmac.md R292). -/
theorem Represents.ctx0_tlen (h : Represents s j) (hp : j.phase ≠ .idle) :
    s.ctx0.tlen = j.padLength + j.phase.message.length := by
  cases hq : j.phase with
  | idle => exact absurd hq hp
  | accumulating m => rw [h.ctx0_accumulating hq]; simp [Job.stream_length, Phase.message]
  | finalized m => rw [h.ctx0_finalized hq]; simp [Job.stream_length, Phase.message]

theorem Represents.ctx0_tlen_accumulating {m : List Byte} (h : Represents s j) (hp : j.phase = .accumulating m) :
    s.ctx0.tlen = j.padLength + m.length := by
  simpa [hp, Phase.message] using h.ctx0_tlen (by simp [hp])

theorem Represents.k0_plain (h : Represents s j) (hm : j.mode = .plain) : s.k0 = zeroKey := by
  simp [h.k0, Job.normalKey, hm]

/-- Once a message has begun K0 is the normalised key (43_hmac.md R297). -/
theorem Represents.k0_hmac (h : Represents s j) (hm : j.mode = .hmac) (hp : j.phase ≠ .idle) :
    s.k0 = normkey j.alg j.key := by
  rw [h.k0, Job.normalKey]; split <;> simp_all

theorem Represents.lengthBound_accumulating {m : List Byte} (h : Represents s j) (hp : j.phase = .accumulating m) :
    j.padLength + m.length ≤ lmax := by
  have hl := h.lengthBound (by simp [hp])
  rwa [hp] at hl

/-! ### The changes of the lifecycle -/

theorem Represents.after_reject (h : Represents s j) (c : ErrCode) : Represents (s.reject c) (j.reject c) :=
  ⟨h.alg, h.mode, h.ctx0, h.ctx1, h.hst, h.kb, h.klen, h.k0, by simp [Job.reject, h.err], h.plainKey, h.keyBound,
    h.lengthBound⟩

theorem Represents.after_clearErr (h : Represents s j) : Represents s.clearErr { j with err := .none } :=
  ⟨h.alg, h.mode, h.ctx0, h.ctx1, h.hst, h.kb, h.klen, h.k0, rfl, h.plainKey, h.keyBound, h.lengthBound⟩

/-- A cleared job has no key and no message (R150, R284). -/
theorem represents_fresh (s : State) :
    Represents s.fresh { alg := s.alg, mode := s.mode, key := [], phase := .idle, err := s.err } where
  alg := rfl
  mode := rfl
  ctx0 := rfl
  ctx1 := by cases hm : s.mode <;> rfl
  hst := by cases hm : s.mode <;> rfl
  kb := padKey_nil.symm
  klen := rfl
  k0 := by cases hm : s.mode <;> rfl
  err := rfl
  plainKey _ := rfl
  keyBound := Nat.zero_le _
  lengthBound hp := absurd rfl hp

/-- A plain message begins (R152). -/
theorem Represents.begin_plain (h : Represents s j) (hm : j.mode = .plain) (c : Ctx) :
    Represents (s.withCtx0 (ctxReset s.alg c)) { j with phase := .accumulating [] } where
  alg := h.alg
  mode := h.mode
  ctx0 := by simp [Job.inner, Job.stream, hm, h.alg, ctxReset_eq_started]
  ctx1 := by simp [h.ctx1, Job.outer, hm]
  hst := by simp [h.hst, Job.hst, hm]
  kb := h.kb
  klen := h.klen
  k0 := by simp [h.k0, Job.normalKey, hm]
  err := h.err
  plainKey := h.plainKey
  keyBound := h.keyBound
  lengthBound _ := j.padLength_le

/-- A keyed message begins from K0, whatever CTX0 held (R289). -/
theorem Represents.begin_hmac (h : Represents s j) (hm : j.mode = .hmac) (c : Ctx) {k : Vector Byte 64}
    (hk : k = normkey j.alg j.key) :
    Represents (rekey { s with ctx0 := c, k0 := k }) { j with phase := .accumulating [] } where
  alg := h.alg
  mode := h.mode
  ctx0 := by simp [Job.inner, Job.stream, hm, h.alg, hk, ctxReset_eq_started]
  ctx1 := by simp [Job.outer, hm, ctxClear]
  hst := by simp [Job.hst, hm, Phase.life]
  kb := h.kb
  klen := h.klen
  k0 := by simp [Job.normalKey, hm, hk]
  err := h.err
  plainKey := h.plainKey
  keyBound := h.keyBound
  lengthBound _ := j.padLength_le

/-- A message goes on (R154, R292). -/
theorem Represents.after_absorb {m bytes : List Byte} (h : Represents s j) (hp : j.phase = .accumulating m)
    (hl : j.padLength + m.length + bytes.length ≤ lmax) :
    Represents (s.withCtx0 (absorbAll s.alg s.ctx0 bytes)) { j with phase := .accumulating (m ++ bytes) } where
  alg := h.alg
  mode := h.mode
  ctx0 := by
    rw [State.withCtx0_ctx0, h.ctx0_accumulating hp, h.alg, ← absorbAll_append, ← j.stream_append]; rfl
  ctx1 := by simp [h.ctx1, Job.outer, hp]
  hst := by simp [h.hst, Job.hst, hp, Phase.life]
  kb := h.kb
  klen := h.klen
  k0 := by cases hm : j.mode <;> simp [h.k0, Job.normalKey, hm, hp]
  err := h.err
  plainKey := h.plainKey
  keyBound := h.keyBound
  lengthBound _ := by
    change j.padLength + (m ++ bytes).length ≤ lmax
    rw [List.length_append]; omega

/-- A plain message ends (R156). -/
theorem Represents.finish_plain {m : List Byte} (h : Represents s j) (hm : j.mode = .plain)
    (hp : j.phase = .accumulating m) :
    Represents (s.withCtx0 (ctxFinalize s.alg s.ctx0)) { j with phase := .finalized m } where
  alg := h.alg
  mode := h.mode
  ctx0 := by rw [State.withCtx0_ctx0, h.ctx0_accumulating hp, h.alg]; rfl
  ctx1 := by simp [h.ctx1, Job.outer, hm]
  hst := by simp [h.hst, Job.hst, hm]
  kb := h.kb
  klen := h.klen
  k0 := by simp [h.k0, Job.normalKey, hm]
  err := h.err
  plainKey := h.plainKey
  keyBound := h.keyBound
  lengthBound _ := h.lengthBound_accumulating hp

/-- A keyed message ends with the outer digest of the inner one (R294). -/
theorem Represents.finish_hmac {m : List Byte} (h : Represents s j) (hm : j.mode = .hmac)
    (hp : j.phase = .accumulating m) :
    Represents
      { s with
        ctx0 := ctxFinalize s.alg s.ctx0
        ctx1 := outerDigest s.alg s.k0 s.ctx1 (extract s.alg (ctxFinalize s.alg s.ctx0).h)
        hst := .finalized }
      { j with phase := .finalized m } where
  alg := h.alg
  mode := h.mode
  ctx0 := by simp only [h.ctx0_accumulating hp, h.alg]; rfl
  ctx1 := by
    simp only [h.ctx0_accumulating hp, h.alg, extract_ctxFinalize_absorbAll, h.k0_hmac hm (by simp [hp]),
      h.ctx1_idle (by simp [hp, Phase.life]), Job.outer, hm]
    simp [Job.stream, hm]
  hst := by simp [Job.hst, hm, Phase.life]
  kb := h.kb
  klen := h.klen
  k0 := by simp [h.k0_hmac hm (by simp [hp]), Job.normalKey, hm]
  err := h.err
  plainKey := h.plainKey
  keyBound := h.keyBound
  lengthBound _ := h.lengthBound_accumulating hp

/-! ### The key -/

theorem keyAbsorb_of_lt {s : State} (h : s.klen < 64) (b : Byte) :
    keyAbsorb s b = { s with kb := s.kb.setIfInBounds s.klen b, klen := s.klen + 1 } := by
  simp [keyAbsorb, blockSize, h]

theorem keyAbsorb_of_eq {s : State} (h : s.klen = 64) (b : Byte) :
    keyAbsorb s b
      = { s with ctx0 := absorbAll s.alg (started s.alg) (s.kb.toList ++ [b]), klen := s.klen + 1 } := by
  simp [keyAbsorb, blockSize, h, absorbAll_append, ctxReset_eq_started]

theorem keyAbsorb_of_gt {s : State} (h : 64 < s.klen) (b : Byte) :
    keyAbsorb s b = { s with ctx0 := absorbAll s.alg s.ctx0 [b], klen := s.klen + 1 } := by
  simp [keyAbsorb, blockSize, h.not_gt, h.ne']

/-- One more key byte: into KB while there is room, into the hash of the key after that (R285). -/
theorem Represents.after_keyAbsorb (h : Represents s j) (hm : j.mode = .hmac) (hp : j.phase = .idle)
    (hl : j.key.length + 1 ≤ lmax) (b : Byte) : Represents (keyAbsorb s b) { j with key := j.key ++ [b] } where
  alg := by simp [h.alg]
  mode := by simp [h.mode]
  ctx0 := by
    rcases lt_trichotomy s.klen 64 with hk | hk | hk <;> have hj := h.klen ▸ hk
    · rw [keyAbsorb_of_lt hk, h.ctx0_idle hp (by omega)]
      simp [Job.inner, hp, Nat.not_lt.mpr hj]
    · rw [keyAbsorb_of_eq hk, h.kb, padKey_toList_of_full _ hj, h.alg]
      simp [Job.inner, hp, hj]
    · rw [keyAbsorb_of_gt hk, h.ctx0, h.alg]
      simp [Job.inner, hp, hj, hj.le, absorbAll_append]
  ctx1 := by simp [h.ctx1, Job.outer, hp]
  hst := by simp [h.hst, Job.hst]
  kb := by
    rcases lt_trichotomy s.klen 64 with hk | hk | hk <;> have hj := h.klen ▸ hk
    · rw [keyAbsorb_of_lt hk, h.kb, h.klen]
      exact padKey_set _ _ hj
    · rw [keyAbsorb_of_eq hk, padKey_append_of_full _ _ hj.ge]
      exact h.kb
    · rw [keyAbsorb_of_gt hk, padKey_append_of_full _ _ hj.le]
      exact h.kb
  klen := by simp [h.klen]
  k0 := by simp [h.k0, Job.normalKey, hm, hp]
  err := by simp [h.err]
  plainKey hq := by simp [hm] at hq
  keyBound := by simpa using hl
  lengthBound hq := absurd hp hq

/-- Key bytes in order (R286). -/
theorem Represents.after_keyAbsorbAll {bytes : List Byte} (h : Represents s j) (hm : j.mode = .hmac)
    (hp : j.phase = .idle) (hl : j.key.length + bytes.length ≤ lmax) :
    Represents (keyAbsorbAll s bytes) { j with key := j.key ++ bytes } := by
  induction bytes generalizing s j with
  | nil => simpa using h
  | cons b bs ih =>
    rw [List.length_cons] at hl
    simpa using ih (h.after_keyAbsorb hm hp (by omega) b) hm hp (by simp; omega)

/-- RESET leaves KB and the counters, and takes K0 from the loaded key (R288). -/
theorem normalise_frame (s : State) :
    normalise s = { s with ctx0 := (normalise s).ctx0, k0 := (normalise s).k0 } := by
  unfold normalise; split <;> rfl

/-- `normalise()` computes `normkey` of the loaded key (R282, R288). -/
theorem Represents.normalise_k0 (h : Represents s j) (hp : j.phase = .idle) :
    (normalise s).k0 = normkey j.alg j.key := by
  unfold normalise normkey
  rw [h.klen]
  split
  · exact h.kb
  · rename_i hk
    have hc : s.ctx0 = absorbAll j.alg (started j.alg) j.key := by
      rw [h.ctx0, Job.inner, hp]
      exact if_pos (by simpa [blockSize] using hk)
    simp only [hc, h.alg, extract_ctxFinalize_absorbAll]

end

end Sys2Proof.Machine
end

section
/-! SUPPORT. Each command takes a state that represents a job to one that represents what the command makes of it. -/

namespace Sys2Proof.Machine

/-! ### The arms of `exec` that choose a form by the mode -/

theorem exec_add_cases {n : Nat} {s t : State} (h : exec (.add n) s = .next t) :
    (s.mode = .plain ∧ plainAdd (data s.cmdData n) s = .next t)
    ∨ (s.mode = .hmac ∧ hmacAdd (data s.cmdData n) s = .next t) := by
  simp only [exec, execAdd] at h
  split at h
  · exact .inl ⟨by assumption, h⟩
  · exact .inr ⟨by assumption, h⟩

theorem exec_finish_cases {s t : State} (h : exec .finish s = .next t) :
    (s.mode = .plain ∧ plainFinish s = .next t) ∨ (s.mode = .hmac ∧ hmacFinish s = .next t) := by
  simp only [exec, execFinish] at h
  split at h
  · exact .inl ⟨by assumption, h⟩
  · exact .inr ⟨by assumption, h⟩

/-- An HMAC command that comes before a key is set is rejected (60_exceptions.md R332). -/
theorem hmacAdd_of_idle {s : State} (hi : s.hst = .idle) (bytes : List Byte) :
    hmacAdd bytes s = .next (s.reject .eseq) := by
  simp [hmacAdd, hi]

theorem hmacFinish_of_idle {s : State} (hi : s.hst = .idle) : hmacFinish s = .next (s.reject .eseq) := by
  simp [hmacFinish, hi]

section
variable {s t : State} {j : Job}

theorem Represents.after_exec_init (h : Represents s j) {alg : Alg} {mode : Mode}
    (he : exec (.init alg mode) s = .next t) : Represents t (j.command (.init alg mode) s.cmdData) := by
  cases he
  simpa [Job.command, h.err] using represents_fresh (s.select alg mode)

theorem Represents.after_exec_reset (h : Represents s j) (he : exec .reset s = .next t) :
    Represents t (j.command .reset s.cmdData) := by
  rcases execReset_cases he with ⟨hm, rfl⟩ | ⟨hm, hi, rfl⟩ | ⟨hm, hi, rfl⟩ <;> rw [h.mode] at hm
  · exact h.begin_plain hm s.ctx0
  · rw [h.hst_hmac hm, Phase.life_idle_iff] at hi
    rw [normalise_frame]
    exact h.begin_hmac hm _ (h.normalise_k0 hi)
  · rw [h.hst_hmac hm, ne_eq, Phase.life_idle_iff] at hi
    exact h.begin_hmac hm s.ctx0 (h.k0_hmac hm hi)

/-! ### ADD -/

theorem Represents.append_continues (h : Represents s j) (ha : j.phase.life = .accumulating) {bytes : List Byte}
    (hl : s.ctx0.tlen + bytes.length ≤ lmax) :
    Represents (s.withCtx0 (absorbAll s.alg s.ctx0 bytes)) (j.append bytes) := by
  obtain ⟨m, hp⟩ := Phase.life_accumulating_iff.mp ha
  rw [h.ctx0_tlen_accumulating hp] at hl
  rw [Job.append_continues hp, if_neg (Nat.not_lt.mpr hl)]
  exact h.after_absorb hp hl

theorem Represents.append_continues_elen (h : Represents s j) (ha : j.phase.life = .accumulating)
    {bytes : List Byte} (hl : s.ctx0.tlen + bytes.length > lmax) :
    Represents (s.reject .elen) (j.append bytes) := by
  obtain ⟨m, hp⟩ := Phase.life_accumulating_iff.mp ha
  rw [h.ctx0_tlen_accumulating hp] at hl
  rw [Job.append_continues hp, if_pos hl]
  exact h.after_reject _

/-- `s` is the state in which the new message has just begun. -/
theorem Represents.append_starts (h : Represents s { j with phase := .accumulating [] })
    (ha : j.phase.life ≠ .accumulating) {bytes : List Byte} (hl : j.padLength + bytes.length ≤ lmax) :
    Represents (s.withCtx0 (absorbAll s.alg s.ctx0 bytes)) (j.append bytes) := by
  rw [Job.append_starts ha, if_neg (Nat.not_lt.mpr hl)]
  exact h.after_absorb rfl hl

theorem Represents.append_starts_elen (h : Represents s j) (ha : j.phase.life ≠ .accumulating)
    {bytes : List Byte} (hl : j.padLength + bytes.length > lmax) :
    Represents (s.reject .elen) (j.append bytes) := by
  rw [Job.append_starts ha, if_pos hl]
  exact h.after_reject _

theorem Represents.after_plainAdd (h : Represents s j) (hm : j.mode = .plain) {bytes : List Byte}
    (he : plainAdd bytes s = .next t) : Represents t (j.append bytes) := by
  have hpad := Job.padLength_plain hm
  rcases plainAdd_cases he with ⟨ha, hl, rfl⟩ | ⟨ha, hl, rfl⟩ | ⟨ha, hl, rfl⟩ | ⟨ha, hl, rfl⟩ <;>
    rw [h.ctx0_st_plain hm] at ha
  · exact h.append_continues_elen ha hl
  · exact h.append_starts_elen ha (by omega)
  · exact h.append_continues ha hl
  · exact (h.begin_plain hm s.ctx0).append_starts ha (by omega)

theorem Represents.after_hmacAdd (h : Represents s j) (hm : j.mode = .hmac) (hp : j.phase ≠ .idle) {bytes : List Byte}
    (he : hmacAdd bytes s = .next t) : Represents t (j.append bytes) := by
  have hpad := Job.padLength_hmac hm
  rcases hmacAdd_cases he with ⟨ha, rfl⟩ | ⟨ha, hl, rfl⟩ | ⟨ha, hl, rfl⟩ | ⟨ha, hl, rfl⟩ | ⟨ha, hl, rfl⟩ <;>
    rw [h.hst_hmac hm] at ha
  · exact absurd (Phase.life_idle_iff.mp ha) hp
  · exact h.append_continues_elen ha hl
  · exact h.append_starts_elen (by simp [ha]) (by omega)
  · exact h.append_continues ha hl
  · exact (h.begin_hmac hm s.ctx0 (h.k0_hmac hm hp)).append_starts (by simp [ha]) (by omega)

theorem Represents.after_exec_add (h : Represents s j) {n : Nat} (he : exec (.add n) s = .next t) :
    Represents t (j.command (.add n) s.cmdData) := by
  rcases exec_add_cases he with ⟨hm, he⟩ | ⟨hm, he⟩ <;> rw [h.mode] at hm
  · rw [Job.command_add (by simp [hm])]
    exact h.after_plainAdd hm he
  · by_cases hp : j.phase = .idle
    · rw [hmacAdd_of_idle (by rw [h.hst_hmac hm, hp]; rfl)] at he
      cases he
      simpa [Job.command, hm, hp] using h.after_reject .eseq
    · rw [Job.command_add (by simp [hp])]
      exact h.after_hmacAdd hm hp he

/-! ### FINISH -/

/-- Nothing is left to do for a message that has ended (R156, R294). -/
theorem Represents.finish_again (h : Represents s j) (ha : j.phase.life = .finalized) :
    Represents s { j with phase := .finalized j.phase.message } := by
  obtain ⟨m, hp⟩ := Phase.life_finalized_iff.mp ha
  rw [show Phase.finalized j.phase.message = j.phase by simp [hp, Phase.message]]
  exact h

theorem Represents.after_plainFinish (h : Represents s j) (hm : j.mode = .plain) (he : plainFinish s = .next t) :
    Represents t { j with phase := .finalized j.phase.message } := by
  rcases plainFinish_cases he with ⟨ha, rfl⟩ | ⟨ha, rfl⟩ | ⟨ha, rfl⟩ <;> rw [h.ctx0_st_plain hm] at ha
  · exact h.finish_again ha
  · rw [Phase.life_idle_iff.mp ha]
    exact (h.begin_plain hm s.ctx0).finish_plain hm rfl
  · obtain ⟨m, hp⟩ := Phase.life_accumulating_iff.mp ha
    rw [hp]
    exact h.finish_plain hm hp

theorem Represents.after_hmacFinish (h : Represents s j) (hm : j.mode = .hmac) (hp : j.phase ≠ .idle)
    (he : hmacFinish s = .next t) : Represents t { j with phase := .finalized j.phase.message } := by
  rcases hmacFinish_cases he with ⟨ha, rfl⟩ | ⟨ha, rfl⟩ | ⟨ha, rfl⟩ <;> rw [h.hst_hmac hm] at ha
  · exact absurd (Phase.life_idle_iff.mp ha) hp
  · exact h.finish_again ha
  · obtain ⟨m, hp⟩ := Phase.life_accumulating_iff.mp ha
    rw [hp]
    exact h.finish_hmac hm hp

theorem Represents.after_exec_finish (h : Represents s j) (he : exec .finish s = .next t) :
    Represents t (j.command .finish s.cmdData) := by
  rcases exec_finish_cases he with ⟨hm, he⟩ | ⟨hm, he⟩ <;> rw [h.mode] at hm
  · rw [Job.command_finish (by simp [hm])]
    exact h.after_plainFinish hm he
  · by_cases hp : j.phase = .idle
    · rw [hmacFinish_of_idle (by rw [h.hst_hmac hm, hp]; rfl)] at he
      cases he
      simpa [Job.command, hm, hp] using h.after_reject .eseq
    · rw [Job.command_finish (by simp [hp])]
      exact h.after_hmacFinish hm hp he

/-! ### KEYCLR and KEY -/

theorem Represents.after_exec_keyclr (h : Represents s j) (he : exec .keyclr s = .next t) :
    Represents t (j.command .keyclr s.cmdData) := by
  rcases execKeyclr_cases he with ⟨hm, rfl⟩ | ⟨hm, rfl⟩ <;> rw [h.mode] at hm
  · simpa [Job.command, hm] using h.after_reject .eseq
  · simpa [Job.command, hm, h.alg, h.mode, h.err] using represents_fresh s

theorem Represents.after_exec_key (h : Represents s j) {n : Nat} (he : exec (.key n) s = .next t) :
    Represents t (j.command (.key n) s.cmdData) := by
  rcases execKey_cases he with ⟨hm, rfl⟩ | ⟨hm, hi, rfl⟩ | ⟨hm, hi, hl, rfl⟩ | ⟨hm, hi, hl, rfl⟩ <;>
    rw [h.mode] at hm
  · rw [Job.command_key (by simp [hm])]
    exact h.after_reject _
  · rw [h.hst_hmac hm, ne_eq, Phase.life_idle_iff] at hi
    rw [Job.command_key (by simp [hi])]
    exact h.after_reject _
  all_goals
    rw [h.hst_hmac hm, Phase.life_idle_iff] at hi
    rw [h.klen, operandBytes_eq] at hl
  · simpa [Job.command, hm, hi, hl] using h.after_reject .elen
  · simpa [Job.command, hm, hi, Nat.not_lt.mpr hl] using h.after_keyAbsorbAll hm hi hl

/-! ### All commands, and all steps -/

/-- A command takes what the state holds to what the command makes of it (R149-R161, R280-R299). -/
theorem Represents.after_exec (h : Represents s j) {i : Instr} (he : exec i s = .next t) :
    Represents t (j.command i s.cmdData) := by
  cases i with
  | nop => cases he; exact h
  | init alg mode => exact h.after_exec_init he
  | reset => exact h.after_exec_reset he
  | add n => exact h.after_exec_add he
  | finish => exact h.after_exec_finish he
  | keyclr => exact h.after_exec_keyclr he
  | key n => exact h.after_exec_key he
  | clrerr => cases he; exact h.after_clearErr

end
end Sys2Proof.Machine
end

section
/-! SUPPORT. What one step does to the fields of the state, said once: a completion, or a bus cycle that resets SHC,
accepts a command word, writes DIN, or leaves all that is SHC's as it is. -/

namespace Sys2Proof.Machine

/-- The host's bus cycle (20_memory.md R72-R75). -/
theorem hostCycle_moves (s : State) :
    (∃ d l g, hostCycle s = { s with draws := d, todo := l, got := g })
    ∨ (∃ p rest g, s.todo = .cycle p :: rest ∧ p.rst = true
        ∧ hostCycle s = { State.reset with draws := s.draws, todo := rest, got := g })
    ∨ (∃ p rest lat, s.todo = .cycle p :: rest ∧ p.rst = false ∧ s.busy = false
        ∧ hostCycle s = { s with
            cmdWord := p.wdata, cmdData := s.din, busy := true, cp := s.cp + 1, latLeft := lat,
            draws := s.draws + 1, todo := rest })
    ∨ (∃ p rest, s.todo = .cycle p :: rest ∧ p.rst = false ∧ p.rd = false ∧ p.wr = true
        ∧ Reg.ofAddr p.addr = .din ∧ hostCycle s = { s with din := p.wdata, todo := rest }) := by
  rcases hostCycle_cases s with ⟨_, e⟩ | ⟨rest, _, e⟩ | ⟨_, _, _, _, e⟩ | ⟨p, rest, ht, hrst, e⟩
    | ⟨p, rest, ht, hrst, hrd, e⟩ | ⟨p, rest, ht, hrst, hrd, hwr, hready, e⟩ | ⟨p, rest, _, _, _, _, e⟩ <;> rw [e]
  · exact .inl ⟨_, _, _, rfl⟩
  · left
    rw [afterRead_eq]
    split <;> exact ⟨_, _, _, rfl⟩
  · exact .inl ⟨_, _, _, rfl⟩
  · refine .inr (.inl ⟨p, rest, if p.rd then s.got ++ [0] else s.got, ht, hrst, ?_⟩)
    cases p.rd <;> rfl
  · left
    rw [afterRead_eq]
    exact ⟨_, _, _, rfl⟩
  · rcases busWrite_cases (s.advance rest) (Reg.ofAddr p.addr) p.wdata with ⟨hr, e⟩ | ⟨hr, e⟩ | ⟨_, _, e⟩ <;> rw [e]
    · have hb : s.busy = false := by simpa [ready, hrst, hrd, hwr, hr] using hready
      exact .inr (.inr (.inl ⟨p, rest, _, ht, hrst, hb, rfl⟩))
    · exact .inr (.inr (.inr ⟨p, rest, ht, hrst, hrd, hwr, hr, rfl⟩))
    · exact .inl ⟨_, _, _, rfl⟩
  · exact .inl ⟨_, _, _, rfl⟩

/-- One step (10_state.md R20). -/
theorem step_moves {s t : State} (h : step s = .next t) :
    (commandDue s ∧ complete s = .next t)
    ∨ (∃ lat d l g, t = { s with latLeft := lat, draws := d, todo := l, got := g })
    ∨ (∃ p rest g, s.todo = .cycle p :: rest ∧ p.rst = true
        ∧ t = { State.reset with draws := s.draws, todo := rest, got := g })
    ∨ (∃ p rest lat, s.todo = .cycle p :: rest ∧ p.rst = false ∧ s.busy = false
        ∧ t = { s with
            cmdWord := p.wdata, cmdData := s.din, busy := true, cp := s.cp + 1, latLeft := lat,
            draws := s.draws + 1, todo := rest })
    ∨ (∃ p rest lat, s.todo = .cycle p :: rest ∧ p.rst = false ∧ p.rd = false ∧ p.wr = true
        ∧ Reg.ofAddr p.addr = .din ∧ t = { s with din := p.wdata, latLeft := lat, todo := rest }) := by
  rcases step_cases h with hd | ⟨_, rfl⟩
  · exact .inl hd
  · right
    obtain ⟨lat, hlat⟩ : ∃ lat, (if s.busy then s.tick else s) = { s with latLeft := lat } := by
      split <;> exact ⟨_, rfl⟩
    rw [hlat]
    rcases hostCycle_moves { s with latLeft := lat } with ⟨d, l, g, e⟩ | ⟨p, rest, g, ht, hrst, e⟩
      | ⟨p, rest, lat', ht, hrst, hb, e⟩ | ⟨p, rest, ht, hrst, hrd, hwr, hr, e⟩ <;> rw [e]
    · exact .inl ⟨lat, d, l, g, rfl⟩
    · exact .inr (.inl ⟨p, rest, g, ht, hrst, rfl⟩)
    · exact .inr (.inr (.inl ⟨p, rest, lat', ht, hrst, hb, rfl⟩))
    · exact .inr (.inr (.inr ⟨p, rest, lat, ht, hrst, hrd, hwr, hr, rfl⟩))

end Sys2Proof.Machine
end

section
/-! SUPPORT. The invariant Sound holds after reset and every step keeps it (10_state.md R51). -/

namespace Sys2Proof.Machine

/-- Settles O56: every field of the reset state is the idle SHA-1 job's. -/
theorem resetIsSound : Obligations.ResetIsSound where
  alg := rfl
  mode := rfl
  ctx0 := rfl
  ctx1 := rfl
  hst := rfl
  kb := padKey_nil.symm
  klen := rfl
  k0 := rfl
  err := rfl
  plainKey _ := rfl
  keyBound := Nat.zero_le _
  lengthBound hp := absurd rfl hp

theorem Represents.after_complete {s t : State} {j : Job} (h : Represents s j) (hc : complete s = .next t) :
    Sound t := by
  rcases complete_cases hc with ⟨_, rfl⟩ | ⟨i, u, _, hu, rfl⟩
  · exact ⟨_, (h.after_reject .eill).with_bus ..⟩
  · exact ⟨_, (h.after_exec hu).with_bus ..⟩

/-- Settles O57: a completion is a command of the job or EILL, a reset begins the job of O56, and no other bus cycle
changes what a job consists of. -/
theorem everyStepKeepsSound : Obligations.EveryStepKeepsSound := by
  rintro s t ⟨j, h⟩ hstep
  rcases step_moves hstep with ⟨_, hc⟩ | ⟨_, _, _, _, rfl⟩ | ⟨_, _, _, _, _, rfl⟩ | ⟨_, _, _, _, _, _, rfl⟩
    | ⟨_, _, _, _, _, _, _, _, rfl⟩
  · exact h.after_complete hc
  · exact ⟨j, h.with_bus ..⟩
  · exact ⟨_, resetIsSound.with_bus ..⟩
  · exact ⟨j, h.with_bus ..⟩
  · exact ⟨j, h.with_bus ..⟩

end Sys2Proof.Machine
end

section
/-! SUPPORT. What each command leaves unchanged, as one record update with the fields it may write, and the error it
raises (60_exceptions.md R332-R336). -/

namespace Sys2Proof.Machine

section
variable {s t : State}

/-! ### One record update for each command -/

theorem exec_reset_frame (h : exec .reset s = .next t) :
    ∃ c0 c1 l k, t = { s with ctx0 := c0, ctx1 := c1, hst := l, k0 := k }
      ∧ (s.mode = .plain → c1 = s.ctx1 ∧ l = s.hst)
      ∧ (¬ (s.mode = .hmac ∧ s.hst = .idle) → k = s.k0) := by
  rcases execReset_cases h with ⟨hm, rfl⟩ | ⟨hm, hi, rfl⟩ | ⟨hm, hi, rfl⟩
  · exact ⟨_, _, _, _, rfl, fun _ => ⟨rfl, rfl⟩, fun _ => rfl⟩
  · rw [normalise_frame]
    exact ⟨_, _, _, _, rfl, by simp [hm], by simp [hm, hi]⟩
  · exact ⟨_, _, _, _, rfl, by simp [hm], fun _ => rfl⟩

/-- What ADD and FINISH write: CTX0, in HMAC mode CTX1 and HST, and ERR where it held no error. -/
def lifecycleFrame (s t : State) : Prop :=
  ∃ c0 c1 l e, t = { s with ctx0 := c0, ctx1 := c1, hst := l, err := e }
    ∧ (s.mode = .plain → c1 = s.ctx1 ∧ l = s.hst)
    ∧ (s.err ≠ .none → e = s.err)

theorem lifecycleFrame_refl (s : State) : lifecycleFrame s s :=
  ⟨_, _, _, _, rfl, fun _ => ⟨rfl, rfl⟩, fun _ => rfl⟩

theorem lifecycleFrame_reject (s : State) (c : ErrCode) : lifecycleFrame s (s.reject c) :=
  ⟨_, _, _, _, rfl, fun _ => ⟨rfl, rfl⟩, fun h => if_neg h⟩

theorem lifecycleFrame_withCtx0 (s : State) (c : Ctx) : lifecycleFrame s (s.withCtx0 c) :=
  ⟨_, _, _, _, rfl, fun _ => ⟨rfl, rfl⟩, fun _ => rfl⟩

theorem lifecycleFrame_hmac (hm : s.mode = .hmac) (c0 c1 : Ctx) (l : Lifecycle) :
    lifecycleFrame s { s with ctx0 := c0, ctx1 := c1, hst := l } :=
  ⟨_, _, _, _, rfl, by simp [hm], fun _ => rfl⟩

theorem exec_add_frame {n : Nat} (h : exec (.add n) s = .next t) : lifecycleFrame s t := by
  rcases exec_add_cases h with ⟨hm, h⟩ | ⟨hm, h⟩
  · rcases plainAdd_cases h with ⟨_, _, rfl⟩ | ⟨_, _, rfl⟩ | ⟨_, _, rfl⟩ | ⟨_, _, rfl⟩
    · exact lifecycleFrame_reject ..
    · exact lifecycleFrame_reject ..
    · exact lifecycleFrame_withCtx0 ..
    · exact lifecycleFrame_withCtx0 ..
  · rcases hmacAdd_cases h with ⟨_, rfl⟩ | ⟨_, _, rfl⟩ | ⟨_, _, rfl⟩ | ⟨_, _, rfl⟩ | ⟨_, _, rfl⟩
    · exact lifecycleFrame_reject ..
    · exact lifecycleFrame_reject ..
    · exact lifecycleFrame_reject ..
    · exact lifecycleFrame_withCtx0 ..
    · exact lifecycleFrame_hmac hm ..

theorem exec_finish_frame (h : exec .finish s = .next t) : lifecycleFrame s t := by
  rcases exec_finish_cases h with ⟨hm, h⟩ | ⟨hm, h⟩
  · rcases plainFinish_cases h with ⟨_, rfl⟩ | ⟨_, rfl⟩ | ⟨_, rfl⟩
    · exact lifecycleFrame_refl _
    · exact lifecycleFrame_withCtx0 ..
    · exact lifecycleFrame_withCtx0 ..
  · rcases hmacFinish_cases h with ⟨_, rfl⟩ | ⟨_, rfl⟩ | ⟨_, rfl⟩
    · exact lifecycleFrame_reject ..
    · exact lifecycleFrame_refl _
    · exact lifecycleFrame_hmac hm ..

theorem exec_keyclr_frame (h : exec .keyclr s = .next t) :
    (s.mode = .plain ∧ ∃ e, t = { s with err := e } ∧ (s.err ≠ .none → e = s.err))
    ∨ (s.mode = .hmac ∧ t = s.fresh) := by
  rcases execKeyclr_cases h with ⟨hm, rfl⟩ | ⟨hm, rfl⟩
  · exact .inl ⟨hm, _, rfl, fun h => if_neg h⟩
  · exact .inr ⟨hm, rfl⟩

theorem exec_key_frame {n : Nat} (h : exec (.key n) s = .next t) :
    ∃ c0 kb l e, t = { s with ctx0 := c0, kb := kb, klen := l, err := e }
      ∧ (s.mode = .plain → c0 = s.ctx0 ∧ kb = s.kb ∧ l = s.klen)
      ∧ (s.err ≠ .none → e = s.err) := by
  have rejected (c : ErrCode) : ∃ c0 kb l e, s.reject c = { s with ctx0 := c0, kb := kb, klen := l, err := e }
      ∧ (s.mode = .plain → c0 = s.ctx0 ∧ kb = s.kb ∧ l = s.klen) ∧ (s.err ≠ .none → e = s.err) :=
    ⟨_, _, _, _, rfl, fun _ => ⟨rfl, rfl, rfl⟩, fun h => if_neg h⟩
  rcases execKey_cases h with ⟨_, rfl⟩ | ⟨_, _, rfl⟩ | ⟨_, _, _, rfl⟩ | ⟨hm, _, _, rfl⟩
  · exact rejected _
  · exact rejected _
  · exact rejected _
  · rw [keyAbsorbAll_frame]
    exact ⟨_, _, _, _, rfl, by simp [hm], fun _ => rfl⟩

end

end Sys2Proof.Machine
end

section
/-! SUPPORT. The frame of the commands (10_state.md R21-R37). -/

namespace Sys2Proof.Machine

/-- Settles O54: each clause is read off the one record update of each command. -/
theorem commandFrame : Obligations.CommandFrame := by
  intro s t i h
  cases i with
  | nop => cases h; simp
  | init alg mode => cases h; simp
  | reset =>
    obtain ⟨c0, c1, l, k, rfl, hplain, hk⟩ := exec_reset_frame h
    have hplain' (hm : s.mode = .plain) : c1 = s.ctx1 ∧ l = s.hst ∧ k = s.k0 :=
      ⟨(hplain hm).1, (hplain hm).2, hk (by simp [hm])⟩
    simpa using ⟨fun hi => hk (not_and.mpr hi), hplain'⟩
  | add n =>
    obtain ⟨c0, c1, l, e, rfl, hplain, he⟩ := exec_add_frame h
    simpa using ⟨hplain, he⟩
  | finish =>
    obtain ⟨c0, c1, l, e, rfl, hplain, he⟩ := exec_finish_frame h
    simpa using ⟨hplain, he⟩
  | keyclr =>
    rcases exec_keyclr_frame h with ⟨_, e, rfl, he⟩ | ⟨hm, rfl⟩
    · simpa using he
    · simp [hm]
  | key n =>
    obtain ⟨c0, kb, l, e, rfl, hplain, he⟩ := exec_key_frame h
    simpa using ⟨fun hm => (hplain hm).2, he⟩
  | clrerr => cases h; simp

end Sys2Proof.Machine
end

section
/-! SUPPORT. The error that a command raises, by the tables of 60_exceptions.md R332 and R333. -/

namespace Sys2Proof.Machine

/-- The code that a legal command raises: ESEQ, then ELEN, the first check that fails (R334). -/
def commandError (i : Instr) (s : State) : ErrCode :=
  if seqError i s then .eseq else if lenError i s then .elen else .none

theorem errorOf_ok {w : Word} {i : Instr} (h : decode w = .ok i) (s : State) : errorOf w s = commandError i s := by
  simp [errorOf, h, commandError]

theorem errorOf_error {w : Word} {e : DecodeError} (h : decode w = .error e) (s : State) : errorOf w s = .eill := by
  simp [errorOf, h]

section
variable {s t : State}

theorem commandError_add_plain (hm : s.mode = .plain) (n : Nat) :
    commandError (.add n) s
      = if (if s.ctx0.st = .accumulating then s.ctx0.tlen else 0) + n > lmax then .elen else .none := by
  simp [commandError, seqError, lenError, addBase, hm]

theorem commandError_add_hmac (hm : s.mode = .hmac) (n : Nat) :
    commandError (.add n) s
      = if s.hst = .idle then .eseq
        else if (if s.hst = .accumulating then s.ctx0.tlen else 64) + n > lmax then .elen else .none := by
  simp [commandError, seqError, lenError, addBase, hm]

theorem commandError_key (n : Nat) :
    commandError (.key n) s
      = if s.mode = .plain ∨ s.hst ≠ .idle then .eseq else if s.klen + n > lmax then .elen else .none := by
  simp [commandError, seqError, lenError]

/-- A command with an error code is rejected with it, and one without leaves ERR as it is (R336). -/
def rejectsExactly (c : ErrCode) (s t : State) : Prop :=
  (c ≠ .none ∧ t = s.reject c) ∨ (c = .none ∧ t.err = s.err)

theorem rejectsExactly_reject {c d : ErrCode} (h : d = c) (hc : c ≠ .none) : rejectsExactly d s (s.reject c) :=
  .inl ⟨h ▸ hc, h ▸ rfl⟩

theorem exec_add_error {n : Nat} (hn : n ≤ 4) (h : exec (.add n) s = .next t) :
    rejectsExactly (commandError (.add n) s) s t := by
  have hlen := data_length s.cmdData n hn
  rcases exec_add_cases h with ⟨hm, h⟩ | ⟨hm, h⟩
  · rw [commandError_add_plain hm, ← hlen]
    rcases plainAdd_cases h with ⟨ha, hl, rfl⟩ | ⟨ha, hl, rfl⟩ | ⟨ha, hl, rfl⟩ | ⟨ha, hl, rfl⟩
    · exact rejectsExactly_reject (by simp [ha, hl]) (by decide)
    · exact rejectsExactly_reject (by simp [ha, hl]) (by decide)
    · exact .inr ⟨by simp [ha, hl], rfl⟩
    · exact .inr ⟨by simp [ha, hl], rfl⟩
  · rw [commandError_add_hmac hm, ← hlen]
    rcases hmacAdd_cases h with ⟨ha, rfl⟩ | ⟨ha, hl, rfl⟩ | ⟨ha, hl, rfl⟩ | ⟨ha, hl, rfl⟩ | ⟨ha, hl, rfl⟩
    · exact rejectsExactly_reject (by simp [ha]) (by decide)
    · exact rejectsExactly_reject (by simp [ha, hl]) (by decide)
    · exact rejectsExactly_reject (by simp [ha, hl]) (by decide)
    · exact .inr ⟨by simp [ha, hl], rfl⟩
    · exact .inr ⟨by simp [ha, hl], rfl⟩

theorem exec_finish_error (h : exec .finish s = .next t) : rejectsExactly (commandError .finish s) s t := by
  rcases exec_finish_cases h with ⟨hm, h⟩ | ⟨hm, h⟩
  · rcases plainFinish_cases h with ⟨_, rfl⟩ | ⟨_, rfl⟩ | ⟨_, rfl⟩ <;>
      exact .inr ⟨by simp [commandError, seqError, lenError, hm], rfl⟩
  · rcases hmacFinish_cases h with ⟨ha, rfl⟩ | ⟨ha, rfl⟩ | ⟨ha, rfl⟩
    · exact rejectsExactly_reject (by simp [commandError, seqError, hm, ha]) (by decide)
    · exact .inr ⟨by simp [commandError, seqError, lenError, ha], rfl⟩
    · exact .inr ⟨by simp [commandError, seqError, lenError, ha], rfl⟩

theorem exec_keyclr_error (h : exec .keyclr s = .next t) : rejectsExactly (commandError .keyclr s) s t := by
  rcases execKeyclr_cases h with ⟨hm, rfl⟩ | ⟨hm, rfl⟩
  · exact rejectsExactly_reject (by simp [commandError, seqError, hm]) (by decide)
  · exact .inr ⟨by simp [commandError, seqError, lenError, hm], rfl⟩

theorem exec_key_error {n : Nat} (hn : n ≤ 4) (h : exec (.key n) s = .next t) :
    rejectsExactly (commandError (.key n) s) s t := by
  rw [commandError_key]
  have hlen : (operandBytes s n).length = n := data_length s.cmdData n hn
  rcases execKey_cases h with ⟨hm, rfl⟩ | ⟨hm, hi, rfl⟩ | ⟨hm, hi, hl, rfl⟩ | ⟨hm, hi, hl, rfl⟩
  · exact rejectsExactly_reject (by simp [hm]) (by decide)
  · exact rejectsExactly_reject (by simp [hi]) (by decide)
  · rw [hlen] at hl
    exact rejectsExactly_reject (by simp [hm, hi, hl]) (by decide)
  · rw [hlen] at hl
    refine .inr ⟨by simp [hm, hi, hl], ?_⟩
    rw [keyAbsorbAll_frame]

/-- A well-formed command other than CLRERR is rejected exactly with the code of R332 and R333. -/
theorem exec_error {i : Instr} (hw : i.wellFormed = true) (hi : i ≠ .clrerr) (h : exec i s = .next t) :
    rejectsExactly (commandError i s) s t := by
  cases i with
  | nop => cases h; exact .inr ⟨rfl, rfl⟩
  | init alg mode => cases h; exact .inr ⟨rfl, rfl⟩
  | reset =>
    obtain ⟨_, _, _, _, rfl, _⟩ := exec_reset_frame h
    exact .inr ⟨rfl, rfl⟩
  | add n => exact exec_add_error (by simpa [Instr.wellFormed, legalCount] using hw) h
  | finish => exact exec_finish_error h
  | keyclr => exact exec_keyclr_error h
  | key n => exact exec_key_error (by simpa [Instr.wellFormed, legalCount] using hw) h
  | clrerr => exact absurd rfl hi

/-- CLRERR has one word (30_encoding.md R105). -/
theorem decode_clrerr {w : Word} (h : decode w = .ok .clrerr) : w = 0x07000000 := by
  have ho : opField w = 0x07 := (wellFormed_of_decode h).2
  have hz : decodeZ .clrerr w = .ok .clrerr := by simpa [decode, ho] using h
  rw [← word_eq_fields w, ho, (decodeZ_ok_iff.mp hz).1]
  rfl

/-- ERR changes by CLRERR, or to the word's code where it held no error (R336, R338). -/
theorem complete_err (h : complete s = .next t) (he : t.err ≠ s.err) :
    (s.cmdWord = 0x07000000 ∧ t.err = .none)
    ∨ (s.err = .none ∧ errorOf s.cmdWord s ≠ .none ∧ t.err = errorOf s.cmdWord s) := by
  have rejected {c : ErrCode} (hc : c ≠ .none) (hr : t.err = (s.reject c).err) :
      s.err = .none ∧ c ≠ .none ∧ t.err = c := by
    by_cases hs : s.err = .none <;> simp_all
  rcases complete_cases h with ⟨⟨e, hd⟩, rfl⟩ | ⟨i, u, hd, hu, rfl⟩
  · rw [errorOf_error hd]
    exact .inr (rejected (by decide) rfl)
  · rw [errorOf_ok hd]
    by_cases hi : i = .clrerr
    · subst hi
      cases hu
      exact .inl ⟨decode_clrerr hd, rfl⟩
    · rcases exec_error (wellFormed_of_decode hd).1 hi hu with ⟨hc, rfl⟩ | ⟨_, hk⟩
      · exact .inr (rejected hc rfl)
      · exact absurd hk he

end
end Sys2Proof.Machine
end

section
/-! SUPPORT. What moves a flag: no bus cycle but reset does, and a completion only by its command (10_state.md R49). -/

namespace Sys2Proof.Machine

/-! ### Steps -/

/-- What `f` shows does not depend on what bus cycles other than reset move. -/
def ignoresBus {α : Type} (f : State → α) : Prop :=
  ∀ (s : State) (din : Word) (busy : Bool) (w d : Word) (cp lat draws : Nat) (todo : List HostOp) (got : List Word),
    f { s with
      din := din, busy := busy, cmdWord := w, cmdData := d, cp := cp, latLeft := lat, draws := draws,
      todo := todo, got := got } = f s

section
variable {α : Type} {f : State → α} {s t : State} {i : Instr}

/-- Reset apart, such a value changes at a completion only. -/
theorem step_changes_due (hf : ignoresBus f) (h : step s = .next t)
    (hrst : ∀ p rest, s.todo = .cycle p :: rest → p.rst = false) (hc : f t ≠ f s) :
    commandDue s ∧ complete s = .next t := by
  rcases step_moves h with hd | ⟨_, _, _, _, rfl⟩ | ⟨p, rest, _, ht, hp, rfl⟩ | ⟨_, _, _, _, _, _, rfl⟩
    | ⟨_, _, _, _, _, _, _, _, rfl⟩
  · exact hd
  · exact absurd (hf s ..) hc
  · exact absurd (hrst p rest ht) (by simp [hp])
  · exact absurd (hf s ..) hc
  · exact absurd (hf s ..) hc

/-- If it does not depend on ERR either, then only by a legal command, whose opcode is the latched word's. -/
theorem step_changes_exec (hf : ignoresBus f) (hr : ∀ (u : State) (c : ErrCode), f (u.reject c) = f u)
    (h : step s = .next t) (hrst : ∀ p rest, s.todo = .cycle p :: rest → p.rst = false) (hc : f t ≠ f s) :
    commandDue s ∧ ∃ i u, opField s.cmdWord = i.opcode ∧ exec i s = .next u ∧ f u ≠ f s := by
  obtain ⟨hd, hcomp⟩ := step_changes_due hf h hrst hc
  rcases complete_cases hcomp with ⟨_, rfl⟩ | ⟨i, u, hi, hu, rfl⟩
  · exact absurd ((hf (s.reject .eill) ..).trans (hr s .eill)) hc
  · exact ⟨hd, i, u, (wellFormed_of_decode hi).2, hu, fun he => hc ((hf u ..).trans he)⟩

/-! ### Commands -/

theorem exec_klong (h : exec i s = .next t) (hc : t.klong ≠ s.klong) :
    i.opcode = 0x06 ∨ i.opcode = 0x05 ∨ i.opcode = 0x01 := by
  cases i with
  | init | keyclr | key => simp [Instr.opcode]
  | nop => cases h; exact absurd rfl hc
  | clrerr => cases h; exact absurd rfl hc
  | reset => obtain ⟨_, _, _, _, rfl, _⟩ := exec_reset_frame h; exact absurd rfl hc
  | add n => obtain ⟨_, _, _, _, rfl, _⟩ := exec_add_frame h; exact absurd rfl hc
  | finish => obtain ⟨_, _, _, _, rfl, _⟩ := exec_finish_frame h; exact absurd rfl hc

theorem exec_alg_mode (h : exec i s = .next t) (hc : (t.alg, t.mode) ≠ (s.alg, s.mode)) : i.opcode = 0x01 := by
  by_contra hi
  have hinit (alg : Alg) (mode : Mode) : i ≠ .init alg mode := by rintro rfl; exact hi rfl
  obtain ⟨-, hframe, -⟩ := commandFrame s t i h
  obtain ⟨ha, hm⟩ := hframe hinit
  exact hc (by rw [ha, hm])

theorem exec_life (h : exec i s = .next t) (hc : t.life ≠ s.life) :
    i.opcode = 0x01 ∨ i.opcode = 0x02 ∨ i.opcode = 0x03 ∨ i.opcode = 0x04 ∨ i.opcode = 0x05 := by
  cases i with
  | init | reset | add | finish | keyclr => simp [Instr.opcode]
  | nop => cases h; exact absurd rfl hc
  | clrerr => cases h; exact absurd rfl hc
  | key n =>
    obtain ⟨c0, _, _, _, rfl, hplain, _⟩ := exec_key_frame h
    cases hm : s.mode with
    | plain => exact absurd (by simp [hm, hplain hm]) hc
    | hmac => exact absurd (by simp [hm]) hc

theorem exec_plen (h : exec i s = .next t) (hc : t.plen ≠ s.plen) :
    i.opcode = 0x01 ∨ i.opcode = 0x02 ∨ i.opcode = 0x03 ∨ i.opcode = 0x04 ∨ i.opcode = 0x05 ∨ i.opcode = 0x06 := by
  cases i with
  | init | reset | add | finish | keyclr | key => simp [Instr.opcode]
  | nop => cases h; exact absurd rfl hc
  | clrerr => cases h; exact absurd rfl hc

end

theorem step_busy {s t : State} (h : step s = .next t) (hrst : ∀ p rest, s.todo = .cycle p :: rest → p.rst = false)
    (hc : t.busy ≠ s.busy) : commandDue s ∨ (s.busy = false ∧ t.cp = s.cp + 1) := by
  rcases step_moves h with ⟨hd, _⟩ | ⟨_, _, _, _, rfl⟩ | ⟨p, rest, _, ht, hp, rfl⟩ | ⟨_, _, _, _, _, hb, rfl⟩
    | ⟨_, _, _, _, _, _, _, _, rfl⟩
  · exact .inl hd
  · exact absurd rfl hc
  · exact absurd (hrst p rest ht) (by simp [hp])
  · exact .inr ⟨hb, rfl⟩
  · exact absurd rfl hc

theorem life_ne_of_dv_ne {s t : State} (h : t.life ≠ s.life ∨ t.dv ≠ s.dv) : t.life ≠ s.life :=
  h.elim id fun hdv he => hdv (by rw [State.dv, State.dv, he])

/-- Settles O55: reset apart a flag moves at a completion, and there by the opcodes named. -/
theorem flagsChangeOnlyByNamedCommands : Obligations.FlagsChangeOnlyByNamedCommands := by
  intro s t h hrst
  refine ⟨fun hc => ?_, fun hc => ?_, fun hc => ?_, fun hc => ?_, fun hc => ?_, step_busy h hrst⟩
  · obtain ⟨hd, i, u, ho, hu, hc⟩ :=
      step_changes_exec (f := State.klong) (fun _ _ _ _ _ _ _ _ _ _ => rfl) (fun _ _ => rfl) h hrst hc
    exact ⟨hd, ho ▸ exec_klong hu hc⟩
  · obtain ⟨hd, i, u, ho, hu, hc⟩ :=
      step_changes_exec (f := fun u => (u.alg, u.mode)) (fun _ _ _ _ _ _ _ _ _ _ => rfl) (fun _ _ => rfl) h hrst
        (by simpa [Classical.or_iff_not_imp_left] using hc)
    exact ⟨hd, ho ▸ exec_alg_mode hu hc⟩
  · obtain ⟨hd, i, u, ho, hu, hc⟩ :=
      step_changes_exec (f := State.life) (fun _ _ _ _ _ _ _ _ _ _ => rfl) (fun _ _ => rfl) h hrst
        (life_ne_of_dv_ne hc)
    exact ⟨hd, ho ▸ exec_life hu hc⟩
  · obtain ⟨hd, i, u, ho, hu, hc⟩ :=
      step_changes_exec (f := State.plen) (fun _ _ _ _ _ _ _ _ _ _ => rfl) (fun _ _ => rfl) h hrst hc
    exact ⟨hd, ho ▸ exec_plen hu hc⟩
  · obtain ⟨hd, hcomp⟩ := step_changes_due (f := State.err) (fun _ _ _ _ _ _ _ _ _ _ => rfl) h hrst hc
    exact ⟨hd, complete_err hcomp hc⟩

end Sys2Proof.Machine
end

section
/-! SUPPORT. What moves cp (10_state.md R22) and DIN (R36). No command reads DIN: replacing it commutes with every
command. -/

namespace Sys2Proof.Machine

/-- A completion moves neither cp nor what the host does next (10_state.md R22). -/
theorem complete_frame {s t : State} (h : complete s = .next t) : t.todo = s.todo ∧ t.cp = s.cp := by
  rcases complete_cases h with ⟨_, rfl⟩ | ⟨i, u, _, hu, rfl⟩
  · exact ⟨rfl, rfl⟩
  · obtain ⟨⟨_, _, hcp, _, _, _, _, htodo, _⟩, _⟩ := commandFrame s u i hu
    exact ⟨htodo, hcp⟩

/-- Settles O14: of the moves of a step only acceptance and reset touch cp. -/
theorem cpCountsAcceptedWords : Obligations.CpCountsAcceptedWords := by
  refine ⟨fun s t h => ?_, fun s t h hs ht => ?_, fun s n r => by cases r <;> rfl, fun s t hd h => ?_⟩
  · rcases step_moves h with ⟨_, hc⟩ | ⟨_, _, _, _, rfl⟩ | ⟨p, rest, _, ht, hp, rfl⟩ | ⟨_, _, _, _, _, hb, rfl⟩
      | ⟨_, _, _, _, _, _, _, _, rfl⟩
    · exact .inl (complete_frame hc).2
    · exact .inl rfl
    · exact .inr (.inr ⟨rfl, p, rest, ht, hp⟩)
    · exact .inr (.inl ⟨rfl, hb, rfl⟩)
    · exact .inl rfl
  · rcases step_moves h with ⟨hd, _⟩ | ⟨_, _, _, _, rfl⟩ | ⟨_, _, _, _, _, rfl⟩ | ⟨_, _, _, _, _, _, rfl⟩
      | ⟨_, _, _, _, _, _, _, _, rfl⟩
    · exact absurd hd.1 (by simp [hs])
    · exact absurd ht (by simp [hs])
    · exact absurd ht Bool.false_ne_true
    · rfl
    · exact absurd ht (by simp [hs])
  · exact complete_frame (step_of_due hd ▸ h)

/-! ### DIN -/

section
variable {s t : State} (v : Word)

theorem reject_writeDin (c : ErrCode) : (s.writeDin v).reject c = (s.reject c).writeDin v := rfl

theorem withCtx0_writeDin (c : Ctx) : (s.writeDin v).withCtx0 c = (s.withCtx0 c).writeDin v := rfl

theorem fresh_writeDin : (s.writeDin v).fresh = s.fresh.writeDin v := rfl

theorem rekey_writeDin : rekey (s.writeDin v) = (rekey s).writeDin v := rfl

theorem normalise_writeDin : normalise (s.writeDin v) = (normalise s).writeDin v := by
  unfold normalise
  rw [State.writeDin_klen]
  split <;> rfl

theorem keyAbsorb_writeDin (b : Byte) : keyAbsorb (s.writeDin v) b = (keyAbsorb s b).writeDin v := by
  rcases lt_trichotomy s.klen 64 with h | h | h
  · rw [keyAbsorb_of_lt h, keyAbsorb_of_lt (by exact h)]; rfl
  · rw [keyAbsorb_of_eq h, keyAbsorb_of_eq (by exact h)]; rfl
  · rw [keyAbsorb_of_gt h, keyAbsorb_of_gt (by exact h)]; rfl

theorem keyAbsorbAll_writeDin (bytes : List Byte) :
    keyAbsorbAll (s.writeDin v) bytes = (keyAbsorbAll s bytes).writeDin v := by
  induction bytes generalizing s with
  | nil => rfl
  | cons b bs ih => rw [keyAbsorbAll_cons, keyAbsorbAll_cons, keyAbsorb_writeDin, ih]

theorem exec_reset_writeDin (h : exec .reset s = .next t) : exec .reset (s.writeDin v) = .next (t.writeDin v) := by
  rcases execReset_cases h with ⟨hm, rfl⟩ | ⟨hm, hi, rfl⟩ | ⟨hm, hi, rfl⟩
  · simp [exec, execReset, hm, withCtx0_writeDin]
  · simp [exec, execReset, hmacReset, hm, hi, normalise_writeDin, rekey_writeDin]
  · simp [exec, execReset, hmacReset, hm, hi, rekey_writeDin]

theorem exec_add_writeDin {n : Nat} (h : exec (.add n) s = .next t) :
    exec (.add n) (s.writeDin v) = .next (t.writeDin v) := by
  rcases exec_add_cases h with ⟨hm, h⟩ | ⟨hm, h⟩
  · rcases plainAdd_cases h with ⟨ha, hl, rfl⟩ | ⟨ha, hl, rfl⟩ | ⟨ha, hl, rfl⟩ | ⟨ha, hl, rfl⟩ <;>
      simp [exec, execAdd, plainAdd, hm, ha, hl, reject_writeDin, withCtx0_writeDin]
  · rcases hmacAdd_cases h with ⟨ha, rfl⟩ | ⟨ha, hl, rfl⟩ | ⟨ha, hl, rfl⟩ | ⟨ha, hl, rfl⟩ | ⟨ha, hl, rfl⟩
    · simp [exec, execAdd, hmacAdd, hm, ha, reject_writeDin]
    · simp [exec, execAdd, hmacAdd, hm, ha, hl, reject_writeDin]
    · simp [exec, execAdd, hmacAdd, hm, ha, hl, reject_writeDin]
    · simp [exec, execAdd, hmacAdd, hm, ha, hl, withCtx0_writeDin]
    · simp [exec, execAdd, hmacAdd, hm, ha, hl, withCtx0_writeDin, rekey_writeDin]

theorem exec_finish_writeDin (h : exec .finish s = .next t) : exec .finish (s.writeDin v) = .next (t.writeDin v) := by
  rcases exec_finish_cases h with ⟨hm, h⟩ | ⟨hm, h⟩
  · rcases plainFinish_cases h with ⟨ha, rfl⟩ | ⟨ha, rfl⟩ | ⟨ha, rfl⟩ <;>
      simp [exec, execFinish, plainFinish, hm, ha, withCtx0_writeDin]
  · rcases hmacFinish_cases h with ⟨ha, rfl⟩ | ⟨ha, rfl⟩ | ⟨ha, rfl⟩
    · simp [exec, execFinish, hmacFinish, hm, ha, reject_writeDin]
    · simp [exec, execFinish, hmacFinish, hm, ha]
    · simp [exec, execFinish, hmacFinish, hm, ha, State.writeDin]

theorem exec_keyclr_writeDin (h : exec .keyclr s = .next t) : exec .keyclr (s.writeDin v) = .next (t.writeDin v) := by
  rcases execKeyclr_cases h with ⟨hm, rfl⟩ | ⟨hm, rfl⟩
  · simp [exec, execKeyclr, hm, reject_writeDin]
  · simp [exec, execKeyclr, hm, fresh_writeDin]

theorem exec_key_writeDin {n : Nat} (h : exec (.key n) s = .next t) :
    exec (.key n) (s.writeDin v) = .next (t.writeDin v) := by
  rcases execKey_cases h with ⟨hm, rfl⟩ | ⟨hm, hi, rfl⟩ | ⟨hm, hi, hl, rfl⟩ | ⟨hm, hi, hl, rfl⟩
  · simp [exec, execKey, hm, reject_writeDin]
  · simp [exec, execKey, hm, hi, reject_writeDin]
  · rw [operandBytes_eq] at hl
    simp [exec, execKey, hm, hi, hl, reject_writeDin]
  · rw [operandBytes_eq] at hl
    simp [exec, execKey, hm, hi, Nat.not_lt.mpr hl, keyAbsorbAll_writeDin]

/-- What DIN holds when a command executes changes nothing that the command does. -/
theorem exec_writeDin {i : Instr} (h : exec i s = .next t) : exec i (s.writeDin v) = .next (t.writeDin v) := by
  cases i with
  | nop => cases h; rfl
  | init alg mode => cases h; rfl
  | reset => exact exec_reset_writeDin v h
  | add n => exact exec_add_writeDin v h
  | finish => exact exec_finish_writeDin v h
  | keyclr => exact exec_keyclr_writeDin v h
  | key n => exact exec_key_writeDin v h
  | clrerr => cases h; rfl

end

theorem exec_din {i : Instr} {s t : State} (h : exec i s = .next t) : t.din = s.din := by
  obtain ⟨⟨hdin, _⟩, _⟩ := commandFrame s t i h
  exact hdin

theorem complete_din {s t : State} (h : complete s = .next t) : t.din = s.din := by
  rcases complete_cases h with ⟨_, rfl⟩ | ⟨i, u, _, hu, rfl⟩
  · rfl
  · rw [State.release_din, exec_din hu]

/-- A host write of DIN completes at once, whatever BUSY is (20_memory.md R74). -/
theorem step_write_din {s : State} {v : Word} {rest : List HostOp} (hh : hostTurn s)
    (ht : s.todo = memWrite 0x04 v :: rest) : ∃ t, step s = .next t ∧ t.din = v ∧ t.todo = rest := by
  rw [step_of_hostTurn hh]
  cases hb : s.busy <;>
    exact ⟨_, rfl, by simp [hostCycle, ht, memWrite, ready, portCycle, busWrite]⟩

/-- Settles O15: of the moves of a step only a write of DIN and reset touch it, and no command reads it. -/
theorem dinIsTheHostsAlone : Obligations.DinIsTheHostsAlone := by
  refine ⟨fun s t h hne => ?_, fun s v rest => step_write_din, fun s => by simp [busRead, Reg.masked, regRead],
    fun _ _ _ => rfl, fun i s v => ?_⟩
  · rcases step_moves h with ⟨_, hc⟩ | ⟨_, _, _, _, rfl⟩ | ⟨p, rest, _, ht, hp, rfl⟩ | ⟨_, _, _, _, _, _, rfl⟩
      | ⟨p, rest, _, ht, _, hrd, hwr, hr, rfl⟩
    · exact absurd (complete_din hc) hne
    · exact absurd rfl hne
    · exact ⟨p, rest, ht, .inl ⟨hp, rfl⟩⟩
    · exact absurd rfl hne
    · exact ⟨p, rest, ht, .inr ⟨hrd, hwr, hr, rfl⟩⟩
  · obtain ⟨t, h⟩ := exec_answers i s
    exact ⟨t, h, exec_writeDin v h, exec_din h⟩

end Sys2Proof.Machine
end

section
/-! SUPPORT. The readout registers (10_state.md R41-R46): DOUT and HEX word by word, and what they spell. -/

namespace Sys2Proof.Machine

section
variable {s : State}

/-! ### DOUT -/

theorem dout_of_not_dv (h : s.dv = false) (i : Nat) : dout s i = 0 := by simp [dout, h]

theorem dout_of_le {i : Nat} (h : digestSize s.alg / 4 ≤ i) : dout s i = 0 := by
  simp [dout, Nat.not_lt.mpr h]

/-- A valid DOUT word is the digest word (R45). -/
theorem dout_of_dv (h : s.dv = true) (i : Nat) : dout s i = (digestWords s.alg s.hsel).getD i 0 := by
  by_cases hi : i < digestSize s.alg / 4
  · simp [dout, h, hi, digestWords]
  · simp [dout, hi, digestWords]

theorem digestWords_length (alg : Alg) (h : HashState) : (digestWords alg h).length = digestSize alg / 4 := by
  simp only [digestWords, List.length_take, HashState.words_length]
  cases alg <;> decide

/-- The valid DOUT words in order are the digest words (R45). -/
theorem dout_words (h : s.dv = true) :
    ((List.finRange 8).take (digestSize s.alg / 4)).map (fun i => dout s i.val) = digestWords s.alg s.hsel := by
  have hle : digestSize s.alg / 4 ≤ 8 := by have := digestSize_le s.alg; omega
  apply List.ext_getElem
  · simp [digestWords_length, hle]
  · intro i h1 h2
    simp [dout_of_dv h, h2]

/-- Settles O20: the valid DOUT words are the digest words. -/
theorem doutSpellsTheDigest : Obligations.DoutSpellsTheDigest := by
  refine fun s => ⟨fun h => ⟨?_, extract_length .., fun i hi => dout_of_le hi⟩, fun h i => dout_of_not_dv h i⟩
  change (((List.finRange 8).take (digestSize s.alg / 4)).map fun i => dout s i.val).flatMap bytes32
    = extract s.alg s.hsel
  rw [dout_words h, extract]

/-! ### HEX -/

/-- The two lowercase hex characters of a byte, the most significant nibble first (R46). -/
def hexPair (b : Byte) : List Byte := [hexc (b.extractLsb' 4 4), hexc (b.extractLsb' 0 4)]

theorem flatMap_hexPair_length (bytes : List Byte) : (bytes.flatMap hexPair).length = 2 * bytes.length := by
  simp [List.length_flatMap, hexPair, Nat.mul_comm]

theorem hexc_toNat (n : BitVec 4) :
    (hexc n).toNat = if n.toNat < 10 then 0x30 + n.toNat else 0x61 + (n.toNat - 10) := by
  revert n; decide

/-- A field of a field is a field. -/
theorem extractLsb'_extractLsb' {w start len start' len' : Nat} (x : BitVec w) (h : start + len ≤ len') :
    (x.extractLsb' start' len').extractLsb' start len = x.extractLsb' (start' + start) len := by
  ext i hi
  have hlt : start + i < len' := by omega
  simp [hlt, Nat.add_assoc]

/-- Two HEX words spell the four bytes of a digest word. -/
theorem hexWord_halves (w : Word) :
    bytes32 (hexWord (w.extractLsb' 16 16)) ++ bytes32 (hexWord (w.extractLsb' 0 16))
      = (bytes32 w).flatMap hexPair := by
  have hbytes (h : BitVec 16) : bytes32 (hexWord h) = hexPair (h.extractLsb' 8 8) ++ hexPair (h.extractLsb' 0 8) :=
    (bytes32_be32 ..).trans (by simp [hexPair, extractLsb'_extractLsb'])
  rw [hbytes, hbytes]
  simp [bytes32, extractLsb'_extractLsb']

theorem hex_of_not_dv (h : s.dv = false) (j : Nat) : hex s j = 0 := by simp [hex, h]

theorem hex_of_le {j : Nat} (h : digestSize s.alg / 2 ≤ j) : hex s j = 0 := by
  simp [hex, Nat.not_lt.mpr h]

theorem hex_even (h : s.dv = true) {i : Nat} (hi : i < digestSize s.alg / 4) :
    hex s (2 * i) = hexWord ((dout s i).extractLsb' 16 16) := by
  have : 2 * i < digestSize s.alg / 2 := by omega
  simp [hex, h, this]

theorem hex_odd (h : s.dv = true) {i : Nat} (hi : i < digestSize s.alg / 4) :
    hex s (2 * i + 1) = hexWord ((dout s i).extractLsb' 0 16) := by
  have h1 : 2 * i + 1 < digestSize s.alg / 2 := by omega
  have h2 : (2 * i + 1) / 2 = i := by omega
  simp [hex, h, h1, h2]

/-- The valid HEX registers are two for each valid DOUT register (R46). -/
theorem hex_registers (alg : Alg) :
    ((List.finRange 16).take (digestSize alg / 2)).map Fin.val
      = ((List.finRange 8).take (digestSize alg / 4)).flatMap fun i => [2 * i.val, 2 * i.val + 1] := by
  cases alg <;> decide

theorem mem_take_finRange {n k : Nat} {i : Fin n} (h : i ∈ (List.finRange n).take k) : i.val < k := by
  obtain ⟨l, hl, rfl⟩ := List.mem_take_iff_getElem.mp h
  simp at hl ⊢
  omega

/-- The valid HEX words in order spell the digest bytes (R46). -/
theorem hex_words (h : s.dv = true) :
    (((List.finRange 16).take (digestSize s.alg / 2)).map fun j => hex s j.val).flatMap bytes32
      = (extract s.alg s.hsel).flatMap hexPair := by
  have hpair : ∀ i ∈ (List.finRange 8).take (digestSize s.alg / 4),
      bytes32 (hex s (2 * i.val)) ++ bytes32 (hex s (2 * i.val + 1)) = (bytes32 (dout s i.val)).flatMap hexPair := by
    intro i hi
    rw [hex_even h (mem_take_finRange hi), hex_odd h (mem_take_finRange hi), hexWord_halves]
  calc (((List.finRange 16).take (digestSize s.alg / 2)).map fun j => hex s j.val).flatMap bytes32
      = (((List.finRange 16).take (digestSize s.alg / 2)).map Fin.val).flatMap fun j => bytes32 (hex s j) := by
        rw [List.flatMap_map, List.flatMap_map]
    _ = ((List.finRange 8).take (digestSize s.alg / 4)).flatMap
          fun i => bytes32 (hex s (2 * i.val)) ++ bytes32 (hex s (2 * i.val + 1)) := by
        rw [hex_registers, List.flatMap_assoc]; simp
    _ = ((List.finRange 8).take (digestSize s.alg / 4)).flatMap fun i => (bytes32 (dout s i.val)).flatMap hexPair :=
        List.flatMap_congr hpair
    _ = (extract s.alg s.hsel).flatMap hexPair := by
        rw [extract, ← dout_words h, List.flatMap_assoc, List.flatMap_map]

/-- Settles O21: two HEX words spell each digest word. -/
theorem hexSpellsTheDigest : Obligations.HexSpellsTheDigest := by
  refine ⟨hexc_toNat, fun s => ⟨fun h => ⟨hex_words h, ?_, fun j hj => hex_of_le hj⟩, fun h j => hex_of_not_dv h j⟩⟩
  have hlen := congrArg List.length (hex_words h)
  rw [flatMap_hexPair_length, extract_length, List.flatMap_map] at hlen
  exact hlen

end
end Sys2Proof.Machine
end

section
/-! SUPPORT. STATUS, the length registers, and what reads depend on (10_state.md R34, R41-R43). -/

namespace Sys2Proof.Machine

/-! ### Noninterference -/

section
variable {s t : State}

theorem dv_congr (h : s.life = t.life) : s.dv = t.dv := by simp [State.dv, h]

theorem statusWord_congr (halg : s.alg = t.alg) (hmode : s.mode = t.mode) (hlife : s.life = t.life)
    (herr : s.err = t.err) (hbusy : s.busy = t.busy) (hklong : s.klong = t.klong)
    (hplen : s.ctx0.buf.length = t.ctx0.buf.length) : statusWord s = statusWord t := by
  simp only [statusWord, halg, hmode, hlife, herr, hbusy, hklong, dv_congr hlife, State.plen, hplen]

theorem dout_congr (hlife : s.life = t.life)
    (hdigest : s.dv = true → digestWords s.alg s.hsel = digestWords t.alg t.hsel) (i : Nat) : dout s i = dout t i := by
  cases hdv : s.dv with
  | false => rw [dout_of_not_dv hdv, dout_of_not_dv (dv_congr hlife ▸ hdv)]
  | true => rw [dout_of_dv hdv, dout_of_dv (dv_congr hlife ▸ hdv), hdigest hdv]

theorem hex_congr (halg : s.alg = t.alg) (hlife : s.life = t.life) (hdout : ∀ i, dout s i = dout t i) (j : Nat) :
    hex s j = hex t j := by
  simp only [hex, halg, dv_congr hlife, hdout]

end

/-- Settles O22: each register is a function of the fields that agree. -/
theorem internalStorageIsNotReadable : Obligations.InternalStorageIsNotReadable := by
  intro s t halg hmode hlife herr hdin hbusy hdraws hklong hplen htlen hdigest r
  have hdout := dout_congr hlife hdigest
  have hreg : regRead s r = regRead t r := by
    cases r with
    | cmd | id | reserved => rfl
    | din => exact hdin
    | status => exact statusWord_congr halg hmode hlife herr hbusy hklong hplen
    | lenLo => simp only [regRead, lenLo, htlen]
    | lenHi => simp only [regRead, lenHi, htlen]
    | dout i => exact hdout i.val
    | hex j => exact hex_congr halg hlife hdout j.val
  simp only [busRead, hbusy, hdraws, hreg]

/-! ### The length registers -/

/-- Settles O19: TLEN within LMAX has 61 bits. -/
theorem lengthRegisters : Obligations.LengthRegisters := by
  intro s h
  have hbound : s.ctx0.tlen / 2 ^ 32 < 2 ^ 29 := by
    simp only [lmax] at h
    omega
  refine ⟨by simp [regRead, lenLo], ?_, ?_⟩
  · simp only [regRead, lenHi, Nat.shiftRight_eq_div_pow, BitVec.toNat_setWidth, BitVec.toNat_ofNat]
    omega
  · ext i hi
    simp [regRead, lenHi]

/-! ### STATUS -/

section
variable (s : State)

/-- A field of STATUS is found by dropping the fields beside it. -/
theorem statusWord_fields :
    (statusWord s).extractLsb' 1 2 = s.life.code
    ∧ (statusWord s).extractLsb' 4 2 = s.alg.code
    ∧ (statusWord s).extractLsb' 8 6 = s.plen
    ∧ (statusWord s).extractLsb' 16 4 = s.err.code := by
  refine ⟨?_, ?_, ?_, ?_⟩ <;>
    simp (disch := decide) only [statusWord, BitVec.extractLsb'_append_eq_of_le,
      BitVec.extractLsb'_append_eq_of_add_le] <;>
    exact BitVec.extractLsb'_eq_self

/-- The reserved bits of STATUS read 0 (R41). -/
theorem statusWord_reserved :
    (statusWord s).extractLsb' 6 2 = 0 ∧ (statusWord s).extractLsb' 14 2 = 0
    ∧ (statusWord s).extractLsb' 22 10 = 0 := by
  refine ⟨?_, ?_, ?_⟩ <;>
    simp (disch := decide) only [statusWord, BitVec.extractLsb'_append_eq_of_le,
      BitVec.extractLsb'_append_eq_of_add_le] <;>
    exact BitVec.extractLsb'_eq_self

theorem statusWord_flags :
    (statusWord s).getLsbD 0 = s.busy ∧ (statusWord s).getLsbD 3 = s.mode.bit
    ∧ (statusWord s).getLsbD 20 = s.dv ∧ (statusWord s).getLsbD 21 = s.klong := by
  refine ⟨?_, ?_, ?_, ?_⟩ <;>
    · simp only [statusWord, BitVec.getLsbD_append]
      simp

theorem plen_toNat (h : s.ctx0.buf.length < 64) : s.plen.toNat = s.ctx0.buf.length := by
  simp [State.plen, Nat.mod_eq_of_lt h]

theorem klong_iff : s.klong = true ↔ s.mode = .hmac ∧ s.klen > 64 := by simp [State.klong]

end

/-- Settles O18: STATUS read exactly, masked, and field by field (`statusFields` itself is the model's mask). -/
theorem statusFields_hold : Obligations.StatusFields := by
  intro s
  obtain ⟨hst, halg, hplen, herr⟩ := statusWord_fields s
  obtain ⟨hbusy, hhm, hdv, hklong⟩ := statusWord_flags s
  obtain ⟨h6, h14, h22⟩ := statusWord_reserved s
  refine ⟨fun hb => ⟨busRead_of_idle hb .status, afterRead_of_idle hb .status⟩, fun hb => ?_, hbusy, ?_, hhm, halg, h6,
    fun hl => hplen ▸ plen_toNat s hl, h14, herr, ?_, hklong ▸ klong_iff s, h22⟩
  · simpa [busRead, hb, Reg.masked] using maskedRead_status (Config.busyRead s.draws)
  · rw [hst, State.life]
    cases s.mode <;> rfl
  · rw [hdv, State.dv, State.life]
    cases s.mode <;> rfl

/-! ### Reset -/

theorem reset_dv : State.reset.dv = false := rfl

/-- Settles O11: BUSY = 0 after reset, so that every read is exact, and DV = 0. -/
theorem resetStateAndReads : Obligations.ResetStateAndReads := by
  refine ⟨rfl, rfl, rfl, rfl, rfl, Vector.toList_replicate, rfl, Vector.toList_replicate, rfl, rfl, rfl, rfl, rfl,
    fun r hr => ?_⟩
  rw [busRead_of_idle rfl]
  cases r with
  | id => exact absurd rfl hr
  | cmd | din | lenLo | lenHi | reserved => rfl
  | status => decide
  | dout i => exact dout_of_not_dv reset_dv i.val
  | hex j => exact hex_of_not_dv reset_dv j.val

end Sys2Proof.Machine
end

section
/-! SUPPORT. What a state that represents a job shows in its registers, and the invariants of 10_state.md R51. -/

namespace Sys2Proof.Machine

section
variable {s : State} {j : Job}

/-- ST shows the job's lifecycle (R41). -/
theorem Represents.life (h : Represents s j) : s.life = j.phase.life := by
  cases hm : j.mode with
  | plain => rw [State.life_plain s (h.mode.trans hm), h.ctx0_st_plain hm]
  | hmac => rw [State.life_hmac s (h.mode.trans hm), h.hst_hmac hm]

/-- The readout of a finalized message is its digest (R45, 40_accumulator.md R161, 43_hmac.md R280). -/
theorem Represents.extract_hsel {m : List Byte} (h : Represents s j) (hp : j.phase = .finalized m) :
    extract j.alg s.hsel = j.digestOf m := by
  cases hm : j.mode with
  | plain =>
    rw [State.hsel_plain s (h.mode.trans hm), h.ctx0_finalized hp, extract_ctxFinalize_absorbAll]
    simp [Job.stream, Job.digestOf, hm]
  | hmac =>
    rw [State.hsel_hmac s (h.mode.trans hm), h.ctx1]
    simp [Job.outer, Job.stream, Job.digestOf, hmac, hm, hp, extract_outerDigest]

/-- PLEN is what the message has beyond its whole blocks: the pad is one block (R41). -/
theorem Represents.buf_length {m : List Byte} (h : Represents s j) (hp : j.phase = .accumulating m) :
    s.ctx0.buf.length = m.length % 64 := by
  rw [h.ctx0_accumulating hp, absorbAll_buf_length _ _ _ (started_buf _), Job.stream_length]
  cases hm : j.mode <;> simp [Job.padLength, hm]

/-- Settles O59: each register is read off the contexts of the job. -/
theorem readoutShowsTheInstance : Obligations.ReadoutShowsTheInstance := by
  intro s j h
  have hdv : s.dv = true ↔ ∃ m, j.phase = .finalized m := by
    rw [State.dv_iff, h.life, Phase.life_finalized_iff]
  refine ⟨fun m hp => ⟨hdv.mpr ⟨m, hp⟩, ?_⟩, fun hp => ?_, h.life, h.ctx0_tlen, fun m hp => ?_, ?_⟩
  · have hwords := dout_words (hdv.mpr ⟨m, hp⟩)
    rw [h.alg] at hwords
    rw [← h.extract_hsel hp, extract, ← hwords]
    rfl
  · exact Bool.eq_false_iff.mpr fun hd => (hdv.mp hd).elim hp
  · rw [plen_toNat s (by rw [h.buf_length hp]; omega), h.buf_length hp]
  · rw [klong_iff, h.mode, h.klen]

/-! ### The invariants of R51 -/

theorem Represents.ctx0_regular (h : Represents s j) : s.ctx0.regular := by
  cases hp : j.phase with
  | idle =>
    by_cases hk : 64 < j.key.length
    · simpa [h.ctx0, Job.inner, hp, hk] using absorbAll_started_regular j.alg j.key h.keyBound
    · rw [h.ctx0_idle hp (Nat.not_lt.mp hk)]
      exact Ctx.idle_regular
  | accumulating m =>
    rw [h.ctx0_accumulating hp]
    exact absorbAll_started_regular _ _ (by rw [Job.stream_length]; exact h.lengthBound_accumulating hp)
  | finalized m =>
    have hl := h.lengthBound (by simp [hp])
    rw [← h.ctx0_tlen (by simp [hp]), h.ctx0_finalized hp] at hl
    rw [h.ctx0_finalized hp]
    exact ctxFinalize_regular _ _ hl

theorem outerDigest_regular (alg : Alg) (k : Vector Byte 64) (c : Ctx) (m : List Byte) :
    (outerDigest alg k c (hash alg m)).regular := by
  have hle := digestSize_le alg
  apply ctxFinalize_regular
  simp only [absorbAll_tlen, ctxReset_tlen, xorPad_length, hash_length, lmax]
  omega

theorem Represents.ctx1_regular (h : Represents s j) : s.ctx1.regular := by
  rw [h.ctx1, Job.outer]
  split
  · exact outerDigest_regular ..
  · exact Ctx.idle_regular

/-- Settles O60, with the key of the job that the state represents. -/
theorem soundStatesAreRegular : Obligations.SoundStatesAreRegular := by
  rintro s ⟨j, h⟩
  refine ⟨j.key, h.kb, h.ctx0_regular, h.ctx1_regular, h.klen, h.klen ▸ h.keyBound, fun hm => ?_, fun hm hi => ?_⟩
  · rw [h.mode] at hm
    have hkey := h.plainKey hm
    refine ⟨?_, ?_, ?_, ?_, h.k0_plain hm⟩
    · rw [h.ctx1_idle (by simp [hm])]; rfl
    · simp [h.hst, Job.hst, hm]
    · simp [h.klen, hkey]
    · rw [h.kb, hkey, padKey_nil]
  · rw [h.mode] at hm
    rw [h.hst_hmac hm, ne_eq, Phase.life_idle_iff] at hi
    rw [h.alg, h.k0_hmac hm hi]

end

end Sys2Proof.Machine
end

section
/-! SUPPORT. The bus seen from one step (20_memory.md R72-R75, R78): what a cycle of the host does whatever BUSY is,
that no run stops, and the address decoder (R73). -/

namespace Sys2Proof.Machine

/-! ### A cycle of the host -/

/-- A bus cycle takes one cycle off the BUSY window, if there is one (assumption 2). -/
theorem tick_if_busy (s : State) : (if s.busy then s.tick else s) = { s with latLeft := windowLeft s } := by
  unfold windowLeft
  split <;> rfl

section
variable {s : State} {p : Port} {rest : List HostOp}

theorem step_cycle (hh : hostTurn s) (ht : s.todo = .cycle p :: rest) :
    step s = .next
      (if ready s p then portCycle { s with latLeft := windowLeft s, todo := rest } p
        else { s with latLeft := windowLeft s }) := by
  rw [step_of_hostTurn hh, tick_if_busy, hostCycle, ht]
  rfl

theorem ready_of_read (hrd : p.rd = true) : ready s p = true := by simp [ready, hrd]

/-- Only a CMD write waits, and only while BUSY = 1 (R74). -/
theorem ready_of_write (hrst : p.rst = false) (hrd : p.rd = false) (hwr : p.wr = true) :
    ready s p = true ↔ (Reg.ofAddr p.addr = .cmd → s.busy = false) := by
  simp [ready, hrst, hrd, hwr, Decidable.imp_iff_not_or]

theorem step_read (hh : hostTurn s) (ht : s.todo = .cycle p :: rest) (hrst : p.rst = false) (hrd : p.rd = true) :
    step s = .next
      ((State.afterRead { s with latLeft := windowLeft s, todo := rest } (Reg.ofAddr p.addr)).receive
        (busRead s (Reg.ofAddr p.addr))) := by
  have hread : busRead { s with latLeft := windowLeft s, todo := rest } (Reg.ofAddr p.addr)
      = busRead s (Reg.ofAddr p.addr) := by cases Reg.ofAddr p.addr <;> rfl
  rw [step_cycle hh ht, if_pos (ready_of_read hrd), portCycle, hread]
  simp [hrst, hrd]

theorem step_write (hh : hostTurn s) (ht : s.todo = .cycle p :: rest) (hrst : p.rst = false) (hrd : p.rd = false)
    (hwr : p.wr = true) (hr : Reg.ofAddr p.addr = .cmd → s.busy = false) :
    step s = .next
      (busWrite { s with latLeft := windowLeft s, todo := rest } (Reg.ofAddr p.addr) p.wdata) := by
  rw [step_cycle hh ht, if_pos ((ready_of_write hrst hrd hwr).mpr hr), portCycle]
  simp [hrst, hrd, hwr]

theorem step_held_write (hh : hostTurn s) (ht : s.todo = .cycle p :: rest) (hrst : p.rst = false)
    (hrd : p.rd = false) (hwr : p.wr = true) (hr : Reg.ofAddr p.addr = .cmd) (hb : s.busy = true) :
    step s = .next { s with latLeft := s.latLeft - 1 } := by
  have hwait : ready s p ≠ true := by simp [ready_of_write hrst hrd hwr, hr, hb]
  rw [step_cycle hh ht, if_neg hwait, windowLeft, if_pos hb]

end

theorem busWrite_ignored (s : State) {r : Reg} (v : Word) (hc : r ≠ .cmd) (hd : r ≠ .din) : busWrite s r v = s := by
  rcases busWrite_cases s r v with ⟨h, _⟩ | ⟨h, _⟩ | ⟨_, _, h⟩
  · exact absurd h hc
  · exact absurd h hd
  · exact h

/-- Settles O8: the cycle is a held CMD write, a write of one of the three kinds of register, or a read. -/
theorem onlyCommandWritesWait : Obligations.OnlyCommandWritesWait := by
  intro s p rest hh ht hrst
  refine ⟨fun hrd hwr hr hb => ?_, fun hrd hwr hr hb => ?_, fun hrd hwr hr => ?_, fun hrd hwr hc hd => ?_, fun hrd => ?_⟩
  · exact step_held_write hh ht hrst hrd hwr hr hb
  · rw [step_write hh ht hrst hrd hwr fun _ => hb, hr]
    exact ⟨_, rfl⟩
  · rw [step_write hh ht hrst hrd hwr (by simp [hr]), hr]
    rfl
  · rw [step_write hh ht hrst hrd hwr (absurd · hc), busWrite_ignored _ _ hc hd]
  · rw [step_read hh ht hrst hrd, afterRead_eq]
    exact ⟨_, _, rfl⟩

/-! ### Runs -/

/-- Settles O13, by induction on the number of steps: each step answers a next state. -/
theorem noRunEverStops : Obligations.NoRunEverStops := by
  intro s k
  induction k generalizing s with
  | zero => exact ⟨s, rfl⟩
  | succ k ih =>
    obtain ⟨u, hu⟩ := step_answers s
    obtain ⟨t, ht⟩ := ih u
    exact ⟨t, runsTo_succ hu ht⟩

/-! ### Address decoding -/

theorem ofAddr_clear_low (a : BitVec 7) : Reg.ofAddr (a &&& 0x7C) = Reg.ofAddr a := by
  have hfield : (a &&& 0x7C).extractLsb' 2 5 = a.extractLsb' 2 5 := by
    rw [BitVec.extractLsb'_and]
    exact BitVec.and_allOnes
  rw [Reg.ofAddr, hfield, ← Reg.ofAddr]

theorem ofAddr_addr (r : Reg) : Reg.ofAddr r.addr = r := by
  cases r with
  | cmd | din | status | id | lenLo | lenHi => decide
  | reserved i => revert i; decide
  | dout i => exact ofAddr_dout i
  | hex j => exact ofAddr_hex j

theorem addr_ofAddr : ∀ a : BitVec 7, (Reg.ofAddr a).addr = a &&& 0x7C := by decide

/-- Settles O17: the decoder reads addr[6:2] alone and inverts the map. -/
theorem addressDecoding : Obligations.AddressDecoding := by
  exact ⟨fun a => (ofAddr_clear_low a).symm, ofAddr_addr, addr_ofAddr, by decide, by decide, by decide,
    fun s r v => busWrite_ignored s v⟩

end Sys2Proof.Machine
end

section
/-! SUPPORT. The decoder and the encoder agree: a word decodes to a command exactly when the command is well formed and
the word is its encoding (30_encoding.md R100-R106), and it decodes to none exactly when it is illegal (R111, R113). -/

namespace Sys2Proof

/-! ### The decoder of a command's format -/

/-- The format's decoder that reads the words with the opcode of `i` (R105). -/
def Instr.reader : Instr → Word → Except DecodeError Instr
  | .nop => decodeZ .nop
  | .init _ _ => decodeI
  | .reset => decodeZ .reset
  | .add _ => decodeD .add
  | .finish => decodeZ .finish
  | .keyclr => decodeZ .keyclr
  | .key _ => decodeD .key
  | .clrerr => decodeZ .clrerr

section
variable {w : Word} {i : Instr}

theorem decode_of_opField (h : opField w = i.opcode) : decode w = i.reader w := by
  cases i <;> simp [decode, h, Instr.opcode, Instr.reader]

theorem decode_ok_iff_reader : decode w = .ok i ↔ opField w = i.opcode ∧ i.reader w = .ok i := by
  constructor
  · intro h
    have ho := (wellFormed_of_decode h).2
    exact ⟨ho, decode_of_opField ho ▸ h⟩
  · rintro ⟨ho, h⟩
    rw [decode_of_opField ho, h]

/-! ### Operand fields -/

theorem and_eq_of_and_not_eq_zero {x m : BitVec 24} (h : x &&& ~~~m = 0) : x &&& m = x := by
  calc x &&& m = x &&& m ||| x &&& ~~~m := by rw [h]; exact BitVec.or_zero.symm
    _ = x &&& (m ||| ~~~m) := BitVec.and_or_distrib_left.symm
    _ = x := by rw [BitVec.or_not_self, BitVec.and_allOnes]

theorem and_lowBits (x : BitVec 24) (k : Nat) :
    x &&& (BitVec.allOnes k).setWidth 24 = (x.extractLsb' 0 k).setWidth 24 := by
  ext i hi
  simp [BitVec.getLsbD_eq_getElem hi, Bool.and_comm]

/-- With no reserved bit set, the operand field of format I is ALG and HM (R102, R103). -/
theorem formatI_operand {x : BitVec 24} (h : x &&& ~~~0x000013 = 0) :
    (x.extractLsb' 0 2).setWidth 24 ||| (if x.getLsbD 4 then 0x000010 else 0) = x := by
  calc (x.extractLsb' 0 2).setWidth 24 ||| (if x.getLsbD 4 then 0x000010 else 0)
      = x &&& (BitVec.allOnes 2).setWidth 24 ||| x &&& BitVec.twoPow 24 4 := by
        rw [and_lowBits, BitVec.and_twoPow]; rfl
    _ = x &&& 0x000013 := BitVec.and_or_distrib_left.symm
    _ = x := and_eq_of_and_not_eq_zero h

/-- With no reserved bit set, the operand field of format D is CNT (R102, R104). -/
theorem formatD_operand {x : BitVec 24} (h : x &&& ~~~0x000007 = 0) : (x.extractLsb' 0 3).setWidth 24 = x := by
  rw [← and_lowBits]
  exact and_eq_of_and_not_eq_zero h

theorem decodeI_ok_iff_operand {alg : Alg} {mode : Mode} :
    decodeI w = .ok (.init alg mode) ↔ opndField w = (Instr.init alg mode).operand := by
  rw [decodeI_ok_iff, algField_eq, hmField_eq]
  constructor
  · rintro ⟨hr, _, ha, ⟨⟩⟩
    rw [Instr.operand, code_of_ofCode ha, bit_ofBit, formatI_operand hr]
  · intro h
    rw [h]
    cases alg <;> cases mode <;> exact ⟨by decide, _, rfl, rfl⟩

theorem decodeD_ok_iff_operand {mk : Nat → Instr} (hmk : mk.Injective) {n : Nat} :
    decodeD mk w = .ok (mk n) ↔ n ≤ 4 ∧ opndField w = BitVec.ofNat 24 n := by
  rw [decodeD_ok_iff, cntField_eq]
  constructor
  · rintro ⟨hr, hc, hn⟩
    rw [hmk hn, BitVec.ofNat_toNat, formatD_operand hr]
    exact ⟨hc, rfl⟩
  · rintro ⟨hn, h⟩
    rw [h]
    interval_cases n <;> exact ⟨by decide, by decide, rfl⟩

theorem reader_ok_iff : i.reader w = .ok i ↔ i.wellFormed = true ∧ opndField w = i.operand := by
  cases i with
  | nop | reset | finish | keyclr | clrerr => simp [Instr.reader, decodeZ_ok_iff, Instr.wellFormed, Instr.operand]
  | init alg mode => simp [Instr.reader, decodeI_ok_iff_operand, Instr.wellFormed]
  | add n | key n =>
    simp [Instr.reader, Instr.wellFormed, legalCount, Instr.operand,
      decodeD_ok_iff_operand (fun _ _ => Instr.add.inj), decodeD_ok_iff_operand (fun _ _ => Instr.key.inj)]

theorem eq_encode_iff : w = encode i ↔ opField w = i.opcode ∧ opndField w = i.operand := by
  constructor
  · rintro rfl
    exact ⟨opField_encode i, opndField_encode i⟩
  · rintro ⟨ho, hx⟩
    rw [← word_eq_fields w, ho, hx, encode]

/-- The decoder reads a command exactly from the one word of a well-formed command. -/
theorem decode_ok_iff : decode w = .ok i ↔ i.wellFormed = true ∧ w = encode i := by
  rw [decode_ok_iff_reader, reader_ok_iff, eq_encode_iff]
  exact and_left_comm

theorem decode_of_fields (hw : i.wellFormed = true) (ho : opField w = i.opcode) (hx : opndField w = i.operand) :
    decode w = .ok i :=
  decode_ok_iff.mpr ⟨hw, eq_encode_iff.mpr ⟨ho, hx⟩⟩

end

/-- Settles O2: the word of a well-formed command is the word that decodes to it. -/
theorem decodeOfEncodeIsTheCommand : Obligations.DecodeOfEncodeIsTheCommand := by
  intro i hw
  exact decode_ok_iff.mpr ⟨hw, rfl⟩

/-! ### Illegal words -/

section
variable {w : Word}

theorem illegal_formatZ
    (ho : opField w = 0x00 ∨ opField w = 0x02 ∨ opField w = 0x04 ∨ opField w = 0x05 ∨ opField w = 0x07) :
    illegal w = false ↔ opndField w = 0 := by
  rcases ho with ho | ho | ho | ho | ho <;> simp [illegal, ho]

theorem illegal_formatI (ho : opField w = 0x01) :
    illegal w = false ↔ opndField w &&& ~~~0x000013 = 0 ∧ algField w ≠ 3 := by
  simp [illegal, ho]

theorem illegal_formatD (ho : opField w = 0x03 ∨ opField w = 0x06) :
    illegal w = false ↔ opndField w &&& ~~~0x000007 = 0 ∧ cntField w ≤ 4 := by
  rcases ho with ho | ho <;> simp [illegal, ho]

theorem illegal_reserved (ho : 0x08 ≤ opField w) : illegal w = true := by
  simp only [illegal, ge_iff_le, ho, decide_true, Bool.true_or]

theorem opcode_cases : ∀ op : BitVec 8, 0x08 ≤ op ∨ op = 0x00 ∨ op = 0x01 ∨ op = 0x02 ∨ op = 0x03 ∨ op = 0x04
    ∨ op = 0x05 ∨ op = 0x06 ∨ op = 0x07 := by decide

theorem illegal_encode {i : Instr} (hw : i.wellFormed = true) : illegal (encode i) = false := by
  cases i with
  | nop => exact (Laws.EncodedWord.nop hw).1
  | init alg mode => exact (Laws.EncodedWord.init alg mode hw).1
  | reset => exact (Laws.EncodedWord.reset hw).1
  | add n => exact (Laws.EncodedWord.add n hw).1
  | finish => exact (Laws.EncodedWord.finish hw).1
  | keyclr => exact (Laws.EncodedWord.keyclr hw).1
  | key n => exact (Laws.EncodedWord.key n hw).1
  | clrerr => exact (Laws.EncodedWord.clrerr hw).1

/-- The decoder accepts a word that is not illegal, format by format. -/
theorem decode_of_legal (h : illegal w = false) : ∃ i, decode w = .ok i := by
  rcases opcode_cases (opField w) with ho | ho | ho | ho | ho | ho | ho | ho | ho
  · simp [illegal_reserved ho] at h
  · exact ⟨.nop, decode_of_fields rfl ho ((illegal_formatZ (by simp [ho])).mp h)⟩
  · obtain ⟨hr, ha⟩ := (illegal_formatI ho).mp h
    obtain ⟨alg, halg⟩ := Option.ne_none_iff_exists'.mp (mt (ofCode_none_iff _).mp ha)
    exact ⟨.init alg (.ofBit (hmField w)), decode_ok_iff_reader.mpr ⟨ho, decodeI_ok_iff.mpr ⟨hr, alg, halg, rfl⟩⟩⟩
  · exact ⟨.reset, decode_of_fields rfl ho ((illegal_formatZ (by simp [ho])).mp h)⟩
  · obtain ⟨hr, hc⟩ := (illegal_formatD (.inl ho)).mp h
    exact ⟨.add (cntField w).toNat, decode_ok_iff_reader.mpr ⟨ho, decodeD_ok_iff.mpr ⟨hr, hc, rfl⟩⟩⟩
  · exact ⟨.finish, decode_of_fields rfl ho ((illegal_formatZ (by simp [ho])).mp h)⟩
  · exact ⟨.keyclr, decode_of_fields rfl ho ((illegal_formatZ (by simp [ho])).mp h)⟩
  · obtain ⟨hr, hc⟩ := (illegal_formatD (.inr ho)).mp h
    exact ⟨.key (cntField w).toNat, decode_ok_iff_reader.mpr ⟨ho, decodeD_ok_iff.mpr ⟨hr, hc, rfl⟩⟩⟩
  · exact ⟨.clrerr, decode_of_fields rfl ho ((illegal_formatZ (by simp [ho])).mp h)⟩

/-- The legal words are the words of the well-formed commands (R113). -/
theorem legal_iff : illegal w = false ↔ ∃ i, i.wellFormed = true ∧ encode i = w := by
  constructor
  · intro h
    obtain ⟨i, hi⟩ := decode_of_legal h
    obtain ⟨hw, rfl⟩ := decode_ok_iff.mp hi
    exact ⟨i, hw, rfl⟩
  · rintro ⟨i, hw, rfl⟩
    exact illegal_encode hw

theorem decode_of_illegal (h : illegal w = true) : ∃ e, decode w = .error e := by
  cases hd : decode w with
  | error e => exact ⟨e, rfl⟩
  | ok i =>
    obtain ⟨hw, rfl⟩ := decode_ok_iff.mp hd
    simp [illegal_encode hw] at h

end

/-! ### The 21 legal words -/

/-- The well-formed commands of format Z (R105). -/
def commandsZ : List Instr := [.nop, .reset, .finish, .keyclr, .clrerr]

/-- The well-formed commands of format I (R103, R105). -/
def commandsI : List Instr :=
  [.init .sha1 .plain, .init .sha256 .plain, .init .sha224 .plain,
   .init .sha1 .hmac, .init .sha256 .hmac, .init .sha224 .hmac]

/-- The well-formed commands of format D (R104, R105). -/
def commandsD : List Instr := (List.range 5).map .add ++ (List.range 5).map .key

theorem opcode_of_mem_commandsZ : ∀ i ∈ commandsZ,
    i.opcode = 0x00 ∨ i.opcode = 0x02 ∨ i.opcode = 0x04 ∨ i.opcode = 0x05 ∨ i.opcode = 0x07 := by decide

theorem opcode_of_mem_commandsI : ∀ i ∈ commandsI, i.opcode = 0x01 := by decide

theorem opcode_of_mem_commandsD : ∀ i ∈ commandsD, i.opcode = 0x03 ∨ i.opcode = 0x06 := by decide

theorem mem_commands_iff {i : Instr} : i ∈ commandsZ ++ commandsI ++ commandsD ↔ i.wellFormed = true := by
  cases i with
  | nop | reset | finish | keyclr | clrerr => decide
  | init alg mode => cases alg <;> cases mode <;> decide
  | add n | key n =>
    simp [commandsZ, commandsI, commandsD, Instr.wellFormed, legalCount, Nat.lt_succ_iff]

/-- Settles O3: the legal words are those of the well-formed commands, which are listed. -/
theorem decodingIsTotalAndExact : Obligations.DecodingIsTotalAndExact := by
  refine ⟨fun w => ?_, fun w w' i h h' => ?_, commandsZ.map encode, commandsI.map encode, commandsD.map encode,
    rfl, rfl, rfl, by decide, ?_, ?_, ?_, fun w => ?_⟩
  · cases hl : illegal w with
    | true => exact .inl ⟨rfl, decode_of_illegal hl⟩
    | false =>
      obtain ⟨i, hw, he⟩ := legal_iff.mp hl
      exact .inr ⟨rfl, i, decode_ok_iff.mpr ⟨hw, he.symm⟩, hw, he⟩
  · exact (decode_ok_iff.mp h).2.trans (decode_ok_iff.mp h').2.symm
  · simpa only [List.forall_mem_map, opField_encode] using opcode_of_mem_commandsZ
  · simpa only [List.forall_mem_map, opField_encode] using opcode_of_mem_commandsI
  · simpa only [List.forall_mem_map, opField_encode] using opcode_of_mem_commandsD
  · simp only [← List.map_append, List.mem_map, mem_commands_iff, legal_iff]

/-- Settles O4: the word is the encoding of the command, whose fields are its operands. -/
theorem operandsAreTheRawFields : Obligations.OperandsAreTheRawFields := by
  intro w i h
  obtain ⟨hw, rfl⟩ := decode_ok_iff.mp h
  cases i with
  | nop | reset | finish | keyclr | clrerr => rfl
  | init alg mode => cases alg <;> cases mode <;> decide
  | add n | key n =>
    have hn : n ≤ 4 := by simpa [Instr.wellFormed, legalCount] using hw
    interval_cases n <;> rfl

/-- Settles O1: the table of R122 is a list of fixed words. -/
theorem specWordsDecodeAsListed : Obligations.SpecWordsDecodeAsListed := by
  unfold Obligations.SpecWordsDecodeAsListed
  decide

end Sys2Proof
end

section
/-! SUPPORT. What a command word does when its BUSY window is over (30_encoding.md R110, R111), and the bytes that it
carries (R104). -/

namespace Sys2Proof.Machine

/-! ### Completion -/

section
variable {s : State}

theorem complete_of_ok {i : Instr} {t : State} (hd : decode s.cmdWord = .ok i) (he : exec i s = .next t) :
    complete s = .next t.release := by
  simp [complete, hd, he]

theorem complete_of_error {e : DecodeError} (hd : decode s.cmdWord = .error e) :
    complete s = .next (s.reject .eill).release := by
  simp [complete, hd]

end

/-- Settles O6: the completion is `exec`, which answers a next state, and BUSY = 0. -/
theorem stepRunsTheDecodedCommand : Obligations.StepRunsTheDecodedCommand := by
  intro s i hdue hd _
  obtain ⟨t, he⟩ := exec_answers i s
  exact ⟨t, he, (step_of_due hdue).trans (complete_of_ok hd he)⟩

/-- Settles O7: the decoder rejects an illegal word, and the completion is EILL and BUSY = 0. -/
theorem illegalWordRaisesEill : Obligations.IllegalWordRaisesEill := by
  intro s hdue hl
  obtain ⟨e, hd⟩ := decode_of_illegal hl
  exact (step_of_due hdue).trans (complete_of_error hd)

/-! ### The data bytes of ADD and KEY -/

theorem cntField_toNat (w : Word) : (cntField w).toNat = w.toNat % 8 := by
  simp [cntField]

/-- Bits 23..3 of a word are the reserved bits of format D (R102). -/
theorem formatD_reserved {w : Word} (h : w.extractLsb' 3 21 = 0) : opndField w &&& ~~~0x000007 = 0 := by
  have hsplit : opndField w = (0 : BitVec 21) ++ cntField w := by
    rw [← h]
    exact (BitVec.extractLsb'_append_extractLsb'_eq_extractLsb' (len₂ := 21) (Nat.zero_add 3).symm).symm
  calc opndField w &&& ~~~0x000007
      = ((0 : BitVec 21) ++ cntField w) &&& (BitVec.allOnes 21 ++ (0 : BitVec 3)) := by rw [hsplit]; rfl
    _ = (0 : BitVec 21) ++ (0 : BitVec 3) := by
        rw [BitVec.and_append]
        exact congrArg₂ _ BitVec.zero_and BitVec.and_zero

theorem data_getElem? (d : Word) {n i : Nat} (hn : n ≤ 4) (hi : i < n) :
    (data d n)[i]? = some (d.extractLsb' (24 - 8 * i) 8) := by
  rw [data, List.getElem?_take_of_lt hi]
  have hi4 : i < 4 := by omega
  interval_cases i <;> rfl

/-- Settles O5: CNT is legal by R111 exactly up to 4, and the bytes are the first CNT of the latched DIN. -/
theorem dataBytesComeFromLatchedDin : Obligations.DataBytesComeFromLatchedDin := by
  refine ⟨fun w ho hr => ?_, fun s n hn => ⟨data_length _ _ hn, fun i hi => data_getElem? _ hn hi⟩, fun s => rfl⟩
  rw [illegal_formatD ho, and_iff_right (formatD_reserved hr), BitVec.le_def, cntField_toNat]
  rfl

end Sys2Proof.Machine
end

section
/-! SUPPORT. The pseudo-instructions of 30_encoding.md R121. -/

namespace Sys2Proof.Machine

/-- The pieces that `addbytes` and `keybytes` cut a byte sequence into: the DIN word of each group of four bytes and the
number of its bytes (R121). -/
def bytePieces : List Byte → List (Word × Nat)
  | s0 :: s1 :: s2 :: s3 :: rest => (be32 s0 s1 s2 s3, 4) :: bytePieces rest
  | [s0, s1, s2] => [(be32 s0 s1 s2 0, 3)]
  | [s0, s1] => [(be32 s0 s1 0 0, 2)]
  | [s0] => [(be32 s0 0 0 0, 1)]
  | [] => []

theorem byteGroups_eq_flatMap (line : Word → Nat → List Asm) (b : List Byte) :
    byteGroups line b = (bytePieces b).flatMap fun x => line x.1 x.2 := by
  fun_induction bytePieces b with
  | case1 s0 s1 s2 s3 rest ih => simp [byteGroups, ih]
  | case2 | case3 | case4 | case5 => simp [byteGroups]

theorem bytePieces_length (b : List Byte) : (bytePieces b).length = (b.length + 3) / 4 := by
  fun_induction bytePieces b with
  | case1 s0 s1 s2 s3 rest ih => simp [ih]; omega
  | case2 | case3 | case4 | case5 => simp

/-- `x` holds the bytes of `b` from the front, up to four of them, in a DIN word filled with zeros behind them. -/
def leads (x : Word × Nat) (b : List Byte) : Prop :=
  x.2 = min 4 b.length ∧ 0 < x.2 ∧ bytes32 x.1 = b.take x.2 ++ List.replicate (4 - x.2) 0

theorem bytePieces_getElem? {b : List Byte} {k : Nat} {x : Word × Nat} (h : (bytePieces b)[k]? = some x) :
    leads x (b.drop (4 * k)) := by
  fun_induction bytePieces b generalizing k with
  | case1 s0 s1 s2 s3 rest ih =>
    cases k with
    | zero =>
      cases h
      exact ⟨by simp, by simp, bytes32_be32 ..⟩
    | succ k => exact ih h
  | case2 | case3 | case4 =>
    cases k with
    | zero =>
      cases h
      exact ⟨rfl, by simp, bytes32_be32 ..⟩
    | succ k => cases h
  | case5 => cases h

/-- Settles O16: `bytePieces` are the pieces that both byte lines expand to. -/
theorem pseudoInstructionsExpand : Obligations.PseudoInstructionsExpand := by
  refine ⟨fun v n => ⟨rfl, rfl⟩, fun b => ⟨bytePieces b, byteGroups_eq_flatMap .., byteGroups_eq_flatMap ..,
    bytePieces_length b, fun k x h => ?_⟩, fun k => rfl, fun alg => ?_⟩
  · simpa [leads] using bytePieces_getElem? h
  · cases alg <;> decide

end Sys2Proof.Machine
end

section
/-! SUPPORT. The refinement: each command answers, with what the abstract machine makes of it. -/

namespace Sys2Proof.Machine

/-- Settles O58: every command answers, and what it answers represents what the command makes of the job. -/
theorem commandsRefineTheInstance : Obligations.CommandsRefineTheInstance := by
  intro s j i h
  obtain ⟨t, he⟩ := exec_answers i s
  exact ⟨t, he, h.after_exec he⟩

end Sys2Proof.Machine
end

section
/-! SUPPORT. The padding of 40_accumulator.md R147 and R148, and the closed form of R161. -/

namespace Sys2Proof.Machine

section
variable {buf : List Byte} (total : Nat)

theorem padded_of_le_55 (h : buf.length ≤ 55) :
    padded buf total
      = (buf ++ [0x80] ++ List.replicate (55 - buf.length) 0) ++ bytes64 (BitVec.ofNat 64 (8 * total)) := by
  have hz : zeroCount buf.length = 55 - buf.length := by simp only [zeroCount]; omega
  rw [padded, hz]

/-- From 56 bytes on the zeros fill the first block and 56 bytes of the second (R148). -/
theorem padded_of_ge_56 (h : 56 ≤ buf.length) (h64 : buf.length < 64) :
    padded buf total
      = (buf ++ [0x80] ++ List.replicate (63 - buf.length) 0)
        ++ (List.replicate 56 0 ++ bytes64 (BitVec.ofNat 64 (8 * total))) := by
  have hz : zeroCount buf.length = (63 - buf.length) + 56 := by simp only [zeroCount]; omega
  rw [padded, hz, ← List.replicate_append_replicate]
  simp only [List.append_assoc]

/-- The padding controller compresses one block up to 55 buffered bytes and two from 56 (R148). -/
theorem padded_blocks (h64 : buf.length < 64) :
    (padded buf total).length = 64 * if buf.length ≤ 55 then 1 else 2 := by
  rw [padded_length, zeroCount]
  split <;> omega

end

/-- Settles O28: the zeros are counted on each side of 55, and the blocks are those of the padded length. -/
theorem paddingShape : Obligations.PaddingShape := by
  intro buf total h64 hl
  refine ⟨fun h => ⟨?_, ?_, ?_⟩, fun h => ⟨?_, ?_, ?_, ?_⟩, ?_, ?_, fun alg c hb ht => ?_⟩
  · rw [padded_blocks total h64, if_pos h]
  · simp only [zeroCount]; omega
  · rw [padded_of_le_55 total h]
    exact List.drop_left' (by simp; omega)
  · rw [padded_blocks total h64, if_neg (by omega)]
  · simp only [zeroCount]; omega
  · rw [padded_of_ge_56 total h h64]
    simp
  · rw [padded_of_ge_56 total h h64]
    exact List.drop_left' (by simp; omega)
  · rintro rfl
    exact padded_of_le_55 total (Nat.zero_le 55)
  · rw [BitVec.toNat_ofNat, Nat.mod_eq_of_lt]
    simp only [lmax] at hl
    omega
  · subst hb ht
    rw [ctxFinalize, padded_blocks c.tlen h64, blockSize, Nat.mul_div_cancel_left _ (by decide)]

/-- Settles O29: byte-serial absorption and the padding controller compute the closed form. -/
theorem streamingEqualsClosedForm : Obligations.StreamingEqualsClosedForm := by
  refine fun alg c m _ => ⟨Nat.mod_eq_zero_of_dvd (padded_length_dvd m m.length), ?_, by simp, rfl⟩
  rw [ctxReset_eq_started, extract_ctxFinalize_absorbAll]

end Sys2Proof.Machine
end

section
/-! SUPPORT. The lifecycle commands in plain mode (40_accumulator.md R152-R161): one equation for each, by the context
that an ADD continues or a FINISH closes. -/

namespace Sys2Proof.Machine

/-! ### The contexts of the plain lifecycle -/

/-- The context that an ADD continues: one that is not Accumulating is reset first (R154). -/
def Ctx.begun (alg : Alg) (c : Ctx) : Ctx := if c.st = .accumulating then c else started alg

/-- The context that a FINISH leaves (R156). -/
def Ctx.ended (alg : Alg) (c : Ctx) : Ctx := if c.st = .finalized then c else ctxFinalize alg (c.begun alg)

section
variable (alg : Alg) {c : Ctx}

@[simp] theorem Ctx.begun_st (c : Ctx) : (c.begun alg).st = .accumulating := by
  unfold Ctx.begun
  split <;> simp_all

@[simp] theorem Ctx.begun_of_accumulating (h : c.st = .accumulating) : c.begun alg = c := if_pos h

@[simp] theorem Ctx.begun_of_ne (h : c.st ≠ .accumulating) : c.begun alg = started alg := if_neg h

theorem Ctx.begun_tlen (c : Ctx) :
    (c.begun alg).tlen = if c.st = .accumulating then c.tlen else 0 := by
  unfold Ctx.begun
  split <;> rfl

@[simp] theorem Ctx.ended_st (c : Ctx) : (c.ended alg).st = .finalized := by
  unfold Ctx.ended
  split <;> simp_all

theorem Ctx.ended_of_finalized (h : c.st = .finalized) : c.ended alg = c := if_pos h

theorem Ctx.ended_of_ne (h : c.st ≠ .finalized) : c.ended alg = ctxFinalize alg (c.begun alg) := if_neg h

theorem Ctx.ended_of_accumulating (h : c.st = .accumulating) : c.ended alg = ctxFinalize alg c := by
  rw [ended_of_ne alg (by simp [h]), begun_of_accumulating alg h]

theorem Ctx.ended_of_idle (h : c.st = .idle) : c.ended alg = ctxFinalize alg (started alg) := by
  rw [ended_of_ne alg (by simp [h]), begun_of_ne alg (by simp [h])]

/-- Closing a context that has absorbed `m` gives the digest of `m` (R161). -/
theorem ctxFinalize_absorbAll_started (alg : Alg) (m : List Byte) :
    (ctxFinalize alg (absorbAll alg (started alg) m)).st = .finalized
    ∧ (ctxFinalize alg (absorbAll alg (started alg) m)).buf = []
    ∧ (ctxFinalize alg (absorbAll alg (started alg) m)).tlen = m.length
    ∧ extract alg (ctxFinalize alg (absorbAll alg (started alg) m)).h = hash alg m :=
  ⟨rfl, rfl, by simp, extract_ctxFinalize_absorbAll alg m⟩

/-- Bytes that take the buffer to a block or past it: it is compressed once, and the rest is buffered (R146). -/
theorem absorbAll_wraps (c : Ctx) (bs : List Byte) (hc : c.buf.length < 64) (h : 64 ≤ c.buf.length + bs.length)
    (hb : bs.length < 64) :
    absorbAll alg c bs
      = { c with
          buf := (c.buf ++ bs).drop 64
          tlen := c.tlen + bs.length
          h := compress alg c.h ((c.buf ++ bs).take 64) } := by
  obtain ⟨k, hk⟩ : ∃ k, 64 - c.buf.length = k := ⟨_, rfl⟩
  have htake : (c.buf ++ bs).take 64 = c.buf ++ bs.take k := by
    rw [List.take_append, List.take_of_length_le hc.le, hk]
  have hdrop : (c.buf ++ bs).drop 64 = bs.drop k := by
    rw [List.drop_append, List.drop_of_length_le hc.le, hk, List.nil_append]
  have hlen : (bs.take k).length = k := by rw [List.length_take]; omega
  have hne : bs.take k ≠ [] := by
    rw [← List.length_pos_iff]; omega
  conv => lhs; rw [← List.take_append_drop k bs]
  rw [absorbAll_append, absorbAll_fills alg c _ (by omega) hne, absorbAll_short _ _ _ (by simp; omega), htake, hdrop]
  simp only [hlen, List.length_drop, List.nil_append, Ctx.mk.injEq, true_and, and_true]
  omega

end

/-! ### The commands -/

section
variable {s : State}

theorem exec_reset_plain (hm : s.mode = .plain) : exec .reset s = .next (s.withCtx0 (started s.alg)) := by
  simp [exec, execReset, hm, ctxReset_eq_started]

theorem exec_add_of_plain (hm : s.mode = .plain) (n : Nat) : exec (.add n) s = plainAdd (data s.cmdData n) s := by
  simp [exec, execAdd, hm]

theorem exec_add_plain (hm : s.mode = .plain) {n : Nat}
    (hl : (s.ctx0.begun s.alg).tlen + (data s.cmdData n).length ≤ lmax) :
    exec (.add n) s = .next (s.withCtx0 (absorbAll s.alg (s.ctx0.begun s.alg) (data s.cmdData n))) := by
  rw [exec_add_of_plain hm, plainAdd, if_neg (by rw [← Ctx.begun_tlen s.alg]; omega)]
  rfl

theorem exec_add_plain_elen (hm : s.mode = .plain) {n : Nat}
    (hl : (s.ctx0.begun s.alg).tlen + (data s.cmdData n).length > lmax) :
    exec (.add n) s = .next (s.reject .elen) := by
  rw [exec_add_of_plain hm, plainAdd, if_pos (by rwa [← Ctx.begun_tlen s.alg])]

theorem exec_finish_plain (hm : s.mode = .plain) :
    exec .finish s = .next (s.withCtx0 (s.ctx0.ended s.alg)) := by
  cases ha : s.ctx0.st with
  | finalized => rw [Ctx.ended_of_finalized _ ha]; simp [exec, execFinish, plainFinish, hm, ha]; rfl
  | idle => simp [exec, execFinish, plainFinish, hm, ha, Ctx.ended_of_idle, ctxReset_eq_started]
  | accumulating => simp [exec, execFinish, plainFinish, hm, ha, Ctx.ended_of_accumulating]

theorem data_length_le_lmax (d : Word) (n : Nat) : (data d n).length ≤ lmax :=
  (data_length_le d n).trans (by decide)

theorem exec_add_plain_starts (hm : s.mode = .plain) (ha : s.ctx0.st ≠ .accumulating) (n : Nat) :
    exec (.add n) s = .next (s.withCtx0 (absorbAll s.alg (started s.alg) (data s.cmdData n))) := by
  have hb := Ctx.begun_of_ne s.alg ha
  have hl := data_length_le_lmax s.cmdData n
  rw [exec_add_plain hm (by simpa [hb] using hl), hb]

theorem exec_add_plain_continues (hm : s.mode = .plain) (ha : s.ctx0.st = .accumulating) {n : Nat}
    (hl : s.ctx0.tlen + (data s.cmdData n).length ≤ lmax) :
    exec (.add n) s = .next (s.withCtx0 (absorbAll s.alg s.ctx0 (data s.cmdData n))) := by
  have hb := Ctx.begun_of_accumulating s.alg ha
  rw [exec_add_plain hm (by rwa [hb]), hb]

/-- Settles O30: a short ADD is buffered, and one that reaches the end of the block wraps. -/
theorem plainAddResult : Obligations.PlainAddResult := by
  intro s n hn hm
  have hlen := data_length s.cmdData n hn
  refine ⟨fun ha => ?_, fun ha hb hl => ⟨fun h => ?_, fun h => ?_⟩, fun ha hl => ?_⟩
  · rw [exec_add_plain_starts hm ha, absorbAll_short _ _ _ (by simp; omega), hlen]
    simp [State.withCtx0, started, ctxReset]
  · rw [exec_add_plain_continues hm ha (by omega), absorbAll_short _ _ _ (by omega), hlen]
    rfl
  · rw [exec_add_plain_continues hm ha (by omega), absorbAll_wraps _ _ _ hb (by omega) (by omega), hlen]
    rfl
  · exact exec_add_plain_elen hm (by rw [Ctx.begun_of_accumulating _ ha]; omega)

/-- Settles O32: FINISH closes the context by its lifecycle, and a message closes with its digest. -/
theorem plainFinishResult : Obligations.PlainFinishResult := by
  intro s hm
  have hf := exec_finish_plain hm
  refine ⟨fun ha => ?_, fun ha => ?_, fun m hc _ => ?_⟩
  · rw [hf, Ctx.ended_of_finalized _ ha]
    rfl
  · rw [hf, Ctx.ended_of_idle _ ha]
    exact ⟨_, rfl, ctxFinalize_absorbAll_started s.alg []⟩
  · rw [hf, Ctx.ended_of_accumulating _ (by simp [hc])]
    exact ⟨_, rfl, hc ▸ ctxFinalize_absorbAll_started s.alg m⟩

/-- Settles O33: the readout is not valid in Accumulating, and TLEN is 0. -/
theorem plainResetResult : Obligations.PlainResetResult := by
  intro s hm
  have hdv : (s.withCtx0 (started s.alg)).dv = false := by simp [State.dv, State.life, hm]
  refine ⟨_, exec_reset_plain hm, rfl, rfl, ?_, fun i => dout_of_not_dv hdv i, fun j => hex_of_not_dv hdv j⟩
  simp [regRead, lenHi]

/-- The row of ADD in the table of R160. -/
theorem plain_add_row (hm : s.mode = .plain) {n : Nat} (hn : n ≤ 4) :
    ∃ t, exec (.add n) s = .next t ∧ t.ctx0.st = .accumulating
      ∧ (s.ctx0.st ≠ .accumulating →
          t.ctx0 = absorbAll s.alg (started s.alg) (operandBytes s n) ∧ t.err = s.err)
      ∧ (t.err ≠ s.err → s.ctx0.tlen + n > lmax ∧ t.err = .elen ∧ t.ctx0 = s.ctx0) := by
  have hlen := data_length s.cmdData n hn
  by_cases ha : s.ctx0.st = .accumulating
  · by_cases hl : s.ctx0.tlen + n ≤ lmax
    · exact ⟨_, exec_add_plain_continues hm ha (by omega), by simp [ha], by simp [ha], by simp⟩
    · have he := exec_add_plain_elen (n := n) hm (by rw [Ctx.begun_of_accumulating _ ha]; omega)
      exact ⟨_, he, ha, by simp [ha], fun hne => ⟨Nat.not_le.mp hl, by simp_all, rfl⟩⟩
  · exact ⟨_, exec_add_plain_starts hm ha n, by simp, by simp, by simp⟩

/-- Settles O34: each row of the table is the command's equation. -/
theorem plainLifecycleTable : Obligations.PlainLifecycleTable := by
  intro s i hm hw
  cases i with
  | nop => exact ⟨_, rfl, rfl⟩
  | clrerr => exact ⟨_, rfl, rfl⟩
  | init alg mode => exact ⟨_, rfl, rfl⟩
  | reset => exact ⟨_, exec_reset_plain hm, rfl, rfl⟩
  | add n => exact plain_add_row hm (by simpa [Instr.wellFormed, legalCount] using hw)
  | finish =>
    refine ⟨_, exec_finish_plain hm, by simp, Ctx.ended_of_idle _, Ctx.ended_of_accumulating _, fun ha => ?_⟩
    rw [Ctx.ended_of_finalized _ ha]
    rfl
  | keyclr => exact ⟨s.reject .eseq, by simp [exec, execKeyclr, hm], rfl⟩
  | key n => exact ⟨s.reject .eseq, by simp [exec, execKey, hm], rfl⟩

end

/-! ### Sequences of ADDs -/

theorem carried_cons (x : Word × Nat) (p : List (Word × Nat)) : carried (x :: p) = data x.1 x.2 ++ carried p := by
  simp [carried]

/-- A sequence of ADDs, with one at least unless CTX0 is Accumulating, absorbs its bytes in the context that the first
begins or continues (R154, R155, R159). -/
theorem feed_add_plain (p : List (Word × Nat)) {s : State} (hm : s.mode = .plain)
    (hp : s.ctx0.st = .accumulating ∨ p ≠ []) (hl : (s.ctx0.begun s.alg).tlen + (carried p).length ≤ lmax) :
    ∃ d, feed .add p s
      = .next { s with ctx0 := absorbAll s.alg (s.ctx0.begun s.alg) (carried p), cmdData := d } := by
  induction p generalizing s with
  | nil =>
    rw [Ctx.begun_of_accumulating _ (hp.resolve_right (· rfl))]
    exact ⟨s.cmdData, rfl⟩
  | cons x p ih =>
    obtain ⟨d, n⟩ := x
    simp only [carried_cons, List.length_append] at hl
    have he : exec (.add n) { s with cmdData := d }
        = .next { s with ctx0 := absorbAll s.alg (s.ctx0.begun s.alg) (data d n), cmdData := d } :=
      exec_add_plain (s := { s with cmdData := d }) hm (by dsimp only; omega)
    obtain ⟨d', hf⟩ := ih (s := { s with ctx0 := absorbAll s.alg (s.ctx0.begun s.alg) (data d n), cmdData := d }) hm
      (.inl (by simp)) (by simp; omega)
    exact ⟨d', by simp [feed, he, hf, carried_cons, absorbAll_append]⟩

/-- Settles O31: either sequence leaves the bytes it carries in the same context, and the latch shows in no register. -/
theorem addChunkingInvariance : Obligations.AddChunkingInvariance := by
  intro s t u p q hm hpq _ hcarried hl ht hu
  rw [← Ctx.begun_tlen s.alg] at hl
  obtain ⟨d, hp⟩ := feed_add_plain p hm (hpq.imp_right And.left) hl
  obtain ⟨d', hq⟩ := feed_add_plain q hm (hpq.imp_right And.right) (hcarried ▸ hl)
  obtain rfl := Host.Outcome.next.inj (ht.symm.trans hp)
  obtain rfl := Host.Outcome.next.inj (hu.symm.trans hq)
  rw [hcarried] at hl ⊢
  refine ⟨rfl, rfl, rfl, ⟨_, _, exec_finish_plain hm, exec_finish_plain hm, rfl, fun i => rfl, fun j => rfl⟩, ?_⟩
  exact exec_add_plain_continues
    (s := { s with ctx0 := absorbAll s.alg (s.ctx0.begun s.alg) (carried q), cmdData := d }) hm (by simp) (by simpa [data] using hl)

/-- Settles O37: the ADDs begin a context of their own, and FINISH closes it. -/
theorem plainReuseStartsAfresh : Obligations.PlainReuseStartsAfresh := by
  intro s p hm ha hp _ hl
  have hb := Ctx.begun_of_ne s.alg (c := s.ctx0) (by simp [ha])
  obtain ⟨d, hf⟩ := feed_add_plain p hm (.inr hp) (by simpa [hb] using hl)
  refine ⟨_, _, hf, exec_finish_plain hm, ?_, ?_, rfl⟩
  · simp [State.dv, State.life, hm]
  · simp only [State.withCtx0_ctx0, State.withCtx0_alg]
    rw [Ctx.ended_of_accumulating _ (by simp), hb, extract_ctxFinalize_absorbAll]

/-! ### The readout of a finished digest -/

/-- FINISH has nothing left to do once DV = 1 (40_accumulator.md R156, 43_hmac.md R294). -/
theorem exec_finish_of_dv {s : State} (hdv : s.dv = true) : exec .finish s = .next s := by
  rw [State.dv_iff] at hdv
  cases hm : s.mode with
  | plain =>
    rw [State.life_plain s hm] at hdv
    simp [exec, execFinish, plainFinish, hm, hdv]
  | hmac =>
    rw [State.life_hmac s hm] at hdv
    simp [exec, execFinish, hmacFinish, hm, hdv]

/-- With DV = 1 the commands that R158 leaves over write ERR at most. -/
theorem exec_keeps_digest {s t : State} {i : Instr} (hdv : s.dv = true) (h : exec i s = .next t)
    (hi : i = .nop ∨ i = .finish ∨ (∃ n, i = .key n) ∨ i = .clrerr) : ∃ e, t = { s with err := e } := by
  rcases hi with rfl | rfl | ⟨n, rfl⟩ | rfl
  · cases h; exact ⟨_, rfl⟩
  · cases (exec_finish_of_dv hdv).symm.trans h
    exact ⟨_, rfl⟩
  · have hidle (hm : s.mode = .hmac) : s.hst ≠ .idle := by
      rw [State.dv_iff, State.life_hmac s hm] at hdv
      simp [hdv]
    rcases execKey_cases h with ⟨_, rfl⟩ | ⟨_, _, rfl⟩ | ⟨hm, hi, _⟩ | ⟨hm, hi, _⟩
    · exact ⟨_, rfl⟩
    · exact ⟨_, rfl⟩
    · exact absurd hi (hidle hm)
    · exact absurd hi (hidle hm)
  · cases h; exact ⟨_, rfl⟩

/-- Settles O35: DOUT and HEX depend neither on ERR nor on what a read moves. -/
theorem digestStaysUntilItsContextChanges : Obligations.DigestStaysUntilItsContextChanges := by
  refine ⟨fun s t i hdv h hi => ?_, fun s t p rest hh ht hrst hrd h => ?_⟩
  · obtain ⟨e, rfl⟩ := exec_keeps_digest hdv h (by cases i <;> simp_all)
    exact ⟨hdv, fun _ => rfl, fun _ => rfl⟩
  · rw [step_read hh ht hrst hrd, afterRead_eq] at h
    cases h
    exact ⟨fun _ => rfl, fun _ => rfl⟩

end Sys2Proof.Machine
end

section
/-! SUPPORT. The control commands NOP, INIT and CLRERR (40_accumulator.md R149-R151) and their illegal words. -/

namespace Sys2Proof.Machine

section
variable {s : State}

/-- A due word that is a command's encoding is run, and BUSY is 0 after it (30_encoding.md R110). -/
theorem step_of_encode {i : Instr} {t : State} (hd : commandDue s) (hi : i.wellFormed = true)
    (hw : s.cmdWord = encode i) (he : exec i s = .next t) : step s = .next t.release :=
  (step_of_due hd).trans (complete_of_ok (decode_ok_iff.mpr ⟨hi, hw⟩) he)

/-- Format Z has no operand bit (30_encoding.md R102, R111). -/
theorem illegal_of_operand_ne_zero {w : Word}
    (ho : opField w = 0x00 ∨ opField w = 0x02 ∨ opField w = 0x04 ∨ opField w = 0x05 ∨ opField w = 0x07)
    (hx : opndField w ≠ 0) : illegal w = true :=
  Bool.eq_true_of_not_eq_false (mt (illegal_formatZ ho).mp hx)

/-- INIT with a reserved operand bit or with ALG = 3 (30_encoding.md R103, R111). -/
theorem illegal_of_reserved_init {w : Word} (ho : opField w = 0x01)
    (hx : opndField w &&& ~~~0x000013 ≠ 0 ∨ algField w = 3) : illegal w = true :=
  Bool.eq_true_of_not_eq_false fun h => by
    obtain ⟨hr, ha⟩ := (illegal_formatI ho).mp h
    exact hx.elim (absurd hr) ha

/-- Settles O38: NOP is the identity, and its word is 0. -/
theorem nopChangesNothing : Obligations.NopChangesNothing := by
  refine ⟨fun s => rfl, fun s hd hw => ?_, fun s hd ho hx => ?_⟩
  · exact step_of_encode hd rfl (hw.trans (by decide : 0x00000000 = encode .nop)) rfl
  · exact illegalWordRaisesEill s hd (illegal_of_operand_ne_zero (by simp [ho]) hx)

/-- What INIT clears shows no digest, no length and no lifecycle (10_state.md R41-R46). -/
theorem fresh_reads (hk : s.klen = 0) (h0 : s.ctx0 = Ctx.idle) (hh : s.hst = .idle) :
    regRead s .lenLo = 0 ∧ regRead s .lenHi = 0
    ∧ (∀ i, regRead s (.dout i) = 0) ∧ (∀ j, regRead s (.hex j) = 0)
    ∧ (regRead s .status).extractLsb' 1 2 = 0 ∧ (regRead s .status).getLsbD 20 = false
    ∧ (regRead s .status).extractLsb' 8 6 = 0 ∧ (regRead s .status).getLsbD 21 = false := by
  have hlife : s.life = .idle := by
    unfold State.life
    split
    · rw [h0]; rfl
    · exact hh
  have hdv : s.dv = false := by simp [State.dv, hlife]
  obtain ⟨hst, -, hplen, -⟩ := statusWord_fields s
  obtain ⟨-, -, hd, hklong⟩ := statusWord_flags s
  refine ⟨by simp [regRead, lenLo, h0, Ctx.idle], by simp [regRead, lenHi, h0, Ctx.idle],
    fun i => dout_of_not_dv hdv i, fun j => hex_of_not_dv hdv j, hst.trans (by rw [hlife]; rfl), hd.trans hdv,
    hplen.trans (by rw [State.plen, h0]; rfl), hklong.trans (by simp [State.klong, hk])⟩

theorem encode_init (alg : Alg) (mode : Mode) :
    encode (.init alg mode) = 0x01000000 ||| (if mode.bit then 1 <<< 4 else 0) ||| alg.code.setWidth 32 := by
  cases alg <;> cases mode <;> decide

end

/-- Settles O39: `fresh` writes the reset values of the contexts and of the key state. -/
theorem initGivesAFreshInstance : Obligations.InitGivesAFreshInstance := by
  refine ⟨fun s alg mode => ?_, fun s hd ho hx => illegalWordRaisesEill s hd (illegal_of_reserved_init ho hx)⟩
  obtain ⟨h1, h2, h3, h4, h5, h6, h7, h8⟩ := fresh_reads (s := (s.select alg mode).fresh) rfl rfl rfl
  refine ⟨_, rfl, rfl, h1, h2, h3, h4, h5, h6, h7, h8, encode_init alg mode, ?_⟩
  rintro rfl rfl
  rfl

/-- Settles O40: CLRERR writes ERR alone, and its illegal words are EILL. -/
theorem clrerrClearsErrAlone : Obligations.ClrerrClearsErrAlone := by
  refine ⟨by decide, fun s => ⟨_, rfl, rfl, ?_⟩, fun s hd ho hx => ?_⟩
  · obtain ⟨-, -, -, herr⟩ := statusWord_fields s.clearErr
    exact herr
  · refine ⟨_, illegalWordRaisesEill s hd (illegal_of_operand_ne_zero (by simp [ho]) hx), ?_, ?_, ?_⟩ <;>
      by_cases he : s.err = .none <;> simp [he]

end Sys2Proof.Machine
end

section
/-! SUPPORT. Host programs on the bus (30_encoding.md R120, R121): what holds of the state once the command in progress
is done, whatever the host does in its BUSY window (20_memory.md R74). -/

namespace Sys2Proof.Machine

/-- One step more at the end of an execution. -/
theorem reaches_snoc {s u t : State} (h : reaches s u) (hstep : step u = .next t) : reaches s t :=
  reaches_trans h (reaches_step hstep (reaches_refl t))

/-! ### What holds once a command is done -/

/-- A property of the state that nothing of what the bus moves by itself can change. -/
structure Fact where
  holds : State → Prop
  unmoved : ignoresBus holds

/-- With the DIN value `d` latched, the command takes a state with `pre` to one with `post`. -/
def establishes (pre : Fact) (i : Instr) (d : Word) (post : Fact) : Prop :=
  ∀ s t, pre.holds s → s.cmdData = d → exec i s = .next t → post.holds t

/-- `post` holds, or will hold when the command in progress is done. -/
def settles (post : Fact) (s : State) : Prop :=
  (s.busy = false ∧ post.holds s)
  ∨ (s.busy = true ∧ ∃ pre i, decode s.cmdWord = .ok i ∧ pre.holds s ∧ establishes pre i s.cmdData post)

/-- The host's next action has to wait for BUSY = 0: a CMD write, or a poll (20_memory.md R74, 30_encoding.md R120). -/
def waits (s : State) : Prop := (∃ w rest, s.todo = memWrite 0x00 w :: rest) ∨ ∃ rest, s.todo = .poll :: rest

section
variable {s : State} {pre post : Fact}

theorem Fact.of_bus (h : post.holds s) (din : Word) (busy : Bool) (w d : Word) (cp lat draws : Nat)
    (todo : List HostOp) (got : List Word) :
    post.holds { s with
      din := din, busy := busy, cmdWord := w, cmdData := d, cp := cp, latLeft := lat, draws := draws,
      todo := todo, got := got } :=
  (post.unmoved s ..).mpr h

theorem settles.of_idle (h : settles post s) (hb : s.busy = false) : post.holds s := by
  rcases h with ⟨_, h⟩ | ⟨hb', _⟩
  · exact h
  · simp [hb] at hb'

theorem settles.mono (h : settles pre s) (hi : ∀ u, pre.holds u → post.holds u) : settles post s := by
  rcases h with ⟨hb, h⟩ | ⟨hb, pre, i, hd, h, he⟩
  · exact .inl ⟨hb, hi s h⟩
  · exact .inr ⟨hb, pre, i, hd, h, fun s t hs hw hx => hi t (he s t hs hw hx)⟩

/-- What a bus cycle moves in the BUSY window changes nothing of what the command leaves. -/
theorem settles.of_bus (h : settles post s) (din : Word) (lat draws : Nat) (todo : List HostOp) (got : List Word) :
    settles post { s with din := din, latLeft := lat, draws := draws, todo := todo, got := got } := by
  rcases h with ⟨hb, h⟩ | ⟨hb, pre, i, hd, h, he⟩
  · exact .inl ⟨hb, Fact.of_bus h ..⟩
  · exact .inr ⟨hb, pre, i, hd, Fact.of_bus h .., he⟩

/-! ### Steps -/

theorem settles.complete (h : settles post s) (hdue : commandDue s) :
    ∃ t, step s = .next t ∧ t.busy = false ∧ post.holds t ∧ t.todo = s.todo ∧ t.got = s.got ∧ t.din = s.din := by
  rcases h with ⟨hb, _⟩ | ⟨_, pre, i, hd, h, he⟩
  · simp [hdue.1] at hb
  · obtain ⟨u, hu⟩ := exec_answers i s
    obtain ⟨⟨hdin, _, _, _, _, _, _, htodo, hgot⟩, _⟩ := commandFrame s u i hu
    exact ⟨u.release, (step_of_due hdue).trans (complete_of_ok hd hu), rfl, Fact.of_bus (he s u h rfl hu) ..,
      htodo, hgot, hdin⟩

/-- The host's turn comes, after a completion that is due. -/
theorem settles.turn (h : settles post s) :
    ∃ t, reaches s t ∧ hostTurn t ∧ settles post t ∧ t.todo = s.todo ∧ t.got = s.got := by
  rcases due_or_hostTurn s with hd | hh
  · obtain ⟨t, hstep, hb, ht, htodo, hgot, _⟩ := h.complete hd
    exact ⟨t, reaches_snoc (reaches_refl s) hstep, .inl hb, .inl ⟨hb, ht⟩, htodo, hgot⟩
  · exact ⟨s, reaches_refl s, hh, h, rfl, rfl⟩

/-- BUSY reads exactly at any time (10_state.md R41). -/
theorem busRead_status_busy (s : State) : (busRead s .status).getLsbD 0 = s.busy := by
  cases hb : s.busy with
  | false =>
    obtain ⟨hbusy, _⟩ := statusWord_flags s
    rw [busRead_of_idle hb]
    exact hbusy.trans hb
  | true =>
    obtain ⟨hbusy, _⟩ := maskedRead_status (Config.busyRead s.draws)
    simpa [busRead, hb, Reg.masked] using hbusy

theorem step_poll {rest : List HostOp} (hh : hostTurn s) (ht : s.todo = .poll :: rest) :
    ∃ d, step s = .next
      { s with latLeft := windowLeft s, draws := d, todo := if s.busy then s.todo else rest } := by
  rw [step_of_hostTurn hh, tick_if_busy, hostCycle, ht]
  simp only [busRead_status_busy]
  rw [afterRead_eq]
  cases hb : s.busy <;> exact ⟨_, rfl⟩

/-- A cycle of the BUSY window in which the host waits. -/
theorem step_waits (hw : waits s) (hb : s.busy = true) (hl : s.latLeft ≠ 0) :
    ∃ d, step s = .next { s with latLeft := s.latLeft - 1, draws := d } := by
  rcases hw with ⟨w, rest, ht⟩ | ⟨rest, ht⟩
  · exact ⟨s.draws, step_held_write (.inr hl) ht rfl rfl rfl ofAddr_cmd hb⟩
  · obtain ⟨d, hstep⟩ := step_poll (.inr hl) ht
    rw [windowLeft, if_pos hb, if_pos hb] at hstep
    exact ⟨d, hstep⟩

/-- A host that waits sees the command done, by induction on what is left of the BUSY window (R385). -/
theorem settles.wait (h : settles post s) (hw : waits s) :
    ∃ t, reaches s t ∧ t.busy = false ∧ post.holds t ∧ t.todo = s.todo ∧ t.got = s.got ∧ t.din = s.din := by
  cases hb : s.busy with
  | false => exact ⟨s, reaches_refl s, hb, h.of_idle hb, rfl, rfl, rfl⟩
  | true =>
    induction hn : s.latLeft generalizing s with
    | zero =>
      obtain ⟨t, hstep, ht⟩ := h.complete ⟨hb, hn⟩
      exact ⟨t, reaches_snoc (reaches_refl s) hstep, ht⟩
    | succ n ih =>
      obtain ⟨d, hstep⟩ := step_waits hw hb (by omega)
      obtain ⟨t, hr, ht⟩ := ih (h.of_bus s.din (s.latLeft - 1) d s.todo s.got) hw hb (by dsimp only; omega)
      exact ⟨t, reaches_step hstep hr, ht⟩

/-! ### The host's actions -/

variable {rest : List HostOp}

theorem settles.write_din {v : Word} (h : settles post s) (ht : s.todo = memWrite 0x04 v :: rest) :
    ∃ t, reaches s t ∧ settles post t ∧ t.din = v ∧ t.todo = rest ∧ t.got = s.got := by
  obtain ⟨t, hr, hh, h, htodo, hgot⟩ := h.turn
  obtain ⟨-, -, hstep, -⟩ := onlyCommandWritesWait t _ rest hh (htodo.trans ht) rfl
  exact ⟨_, reaches_snoc hr (hstep rfl rfl ofAddr_din), h.of_bus v _ _ rest _, rfl, rfl, hgot⟩

theorem settles.command {i : Instr} (h : settles pre s) (ht : s.todo = memWrite 0x00 (encode i) :: rest)
    (hi : i.wellFormed = true) (he : establishes pre i s.din post) :
    ∃ t, reaches s t ∧ settles post t ∧ t.todo = rest ∧ t.got = s.got := by
  obtain ⟨t, hr, hb, h, htodo, hgot, hdin⟩ := h.wait (.inl ⟨_, _, ht⟩)
  obtain ⟨-, haccept, -⟩ := onlyCommandWritesWait t _ rest (.inl hb) (htodo.trans ht) rfl
  obtain ⟨lat, hstep⟩ := haccept rfl rfl ofAddr_cmd hb
  refine ⟨_, reaches_snoc hr hstep, .inr ⟨rfl, pre, i, ?_, Fact.of_bus h .., ?_⟩,
    rfl, hgot⟩
  · exact decodeOfEncodeIsTheCommand i hi
  · change establishes pre i t.din post
    rwa [hdin]

theorem settles.poll (h : settles post s) (ht : s.todo = .poll :: rest) :
    ∃ t, reaches s t ∧ t.busy = false ∧ post.holds t ∧ t.todo = rest ∧ t.got = s.got := by
  obtain ⟨t, hr, hb, h, htodo, hgot, _⟩ := h.wait (.inr ⟨_, ht⟩)
  obtain ⟨d, hstep⟩ := step_poll (.inl hb) (htodo.trans ht)
  exact ⟨_, reaches_snoc hr hstep, hb, Fact.of_bus h .., by simp [hb], hgot⟩

theorem regRead_host (s : State) (todo : List HostOp) (got : List Word) :
    regRead { s with todo := todo, got := got } = regRead s := by
  funext r
  cases r <;> rfl

/-- With BUSY = 0 a list of reads returns the registers as they stand. -/
theorem reaches_reads (rs : List Reg) (hb : s.busy = false) (ht : s.todo = assemble (rs.map .rd) ++ rest) :
    reaches s { s with todo := rest, got := s.got ++ rs.map (regRead s) } := by
  induction rs generalizing s with
  | nil =>
    have ht : s.todo = rest := ht
    rw [List.map_nil, List.append_nil, ← ht]
    exact reaches_refl s
  | cons r rs ih =>
    have hstep := step_read (.inl hb) ht rfl rfl
    have hmore := ih (s := { s with todo := assemble (rs.map .rd) ++ rest, got := s.got ++ [regRead s r] }) hb rfl
    rw [regRead_host, List.append_assoc] at hmore
    refine reaches_step (hstep.trans ?_) hmore
    rw [afterRead_of_idle (by exact hb), ofAddr_addr, busRead_of_idle hb, windowLeft, if_neg (by simp [hb])]
    rfl

end

/-! ### Programs -/

/-- Where `pre` settles the host gets through the lines `l`, reads nothing, and `post` settles. -/
def carriesOut (pre : Fact) (l : List Asm) (post : Fact) : Prop :=
  ∀ s rest, settles pre s → s.todo = assemble l ++ rest →
    ∃ t, reaches s t ∧ settles post t ∧ t.todo = rest ∧ t.got = s.got

section
variable {pre mid post : Fact} {a : Asm} {i : Instr}

theorem assemble_append (l l' : List Asm) : assemble (l ++ l') = assemble l ++ assemble l' := List.map_append

theorem carriesOut_nil (pre : Fact) : carriesOut pre [] pre :=
  fun s _ h ht => ⟨s, reaches_refl s, h, ht, rfl⟩

theorem carriesOut.of_imp {l : List Asm} (h : carriesOut mid l post) (hi : ∀ s, pre.holds s → mid.holds s) :
    carriesOut pre l post :=
  fun s rest hs => h s rest (hs.mono hi)

theorem carriesOut_append {l l' : List Asm} (h : carriesOut pre l mid) (h' : carriesOut mid l' post) :
    carriesOut pre (l ++ l') post := by
  intro s rest hs ht
  rw [assemble_append, List.append_assoc] at ht
  obtain ⟨t, hr, hs, ht, hgot⟩ := h s _ hs ht
  obtain ⟨u, hr', hs', ht', hgot'⟩ := h' t _ hs ht
  exact ⟨u, reaches_trans hr hr', hs', ht', hgot'.trans hgot⟩

/-- A command line, whatever DIN holds. -/
theorem carriesOut_command (ha : a.op = memWrite 0x00 (encode i)) (hi : i.wellFormed = true)
    (he : ∀ d, establishes pre i d post) : carriesOut pre [a] post := by
  intro s rest h ht
  exact h.command (ht.trans (by rw [← ha]; rfl)) hi (he s.din)

/-- A data line: the command takes the DIN value that the line before it writes (30_encoding.md R121). -/
theorem carriesOut_data {v : Word} (ha : a.op = memWrite 0x00 (encode i)) (hi : i.wellFormed = true)
    (he : establishes pre i v post) : carriesOut pre [.din v, a] post := by
  intro s rest h ht
  obtain ⟨t, hr, h, rfl, ht, hgot⟩ := h.write_din (v := v) (rest := a.op :: rest) ht
  obtain ⟨u, hr', hu, ht', hgot'⟩ := h.command (ht.trans (by rw [ha])) hi he
  exact ⟨u, reaches_trans hr hr', hu, ht', hgot'.trans hgot⟩

/-- FINISH, a poll, and the reads of a list of registers (R121). -/
theorem settles.readout {s : State} {rest : List HostOp} (rs : List Reg) (h : settles pre s)
    (he : ∀ d, establishes pre .finish d post)
    (ht : s.todo = assemble ([.finish, .poll] ++ rs.map .rd) ++ rest) :
    ∃ t, reaches s t ∧ t.busy = false ∧ post.holds t ∧ t.todo = rest ∧ t.got = s.got ++ rs.map (regRead t) := by
  obtain ⟨t, hr, h, htodo, hgot⟩ := carriesOut_command op_finish rfl he s _ h ht
  obtain ⟨u, hr', hb, hu, htodo', hgot'⟩ := h.poll htodo
  refine ⟨_, reaches_trans (reaches_trans hr hr') (reaches_reads rs hb htodo'), hb, Fact.of_bus hu .., rfl, ?_⟩
  rw [← hgot, ← hgot']
  exact congrArg (fun f => u.got ++ rs.map f) (regRead_host u _ _).symm

end

/-! ### The readout of a digest -/

/-- The readout shows the digest `out` of an algorithm, with `e` in ERR. -/
def shows (alg : Alg) (out : List Byte) (e : ErrCode) : Fact where
  holds s := s.dv = true ∧ s.alg = alg ∧ extract alg s.hsel = out ∧ s.err = e
  unmoved _ _ _ _ _ _ _ _ _ _ := rfl

theorem shows_finish (alg : Alg) (out : List Byte) (e : ErrCode) (d : Word) :
    establishes (shows alg out e) .finish d (shows alg out e) := by
  intro s t h _ he
  have hdv : s.dv = true := h.1
  cases (exec_finish_of_dv hdv).symm.trans he
  exact h

section
variable {alg : Alg} {out : List Byte} {e : ErrCode} {t : State}

theorem shows_dout (h : (shows alg out e).holds t) :
    ((((List.finRange 8).take (digestSize alg / 4)).map Reg.dout).map (regRead t)).flatMap bytes32 = out := by
  obtain ⟨hdv, rfl, rfl, _⟩ := h
  rw [List.map_map, extract, ← dout_words hdv]
  rfl

theorem shows_hex (h : (shows alg out e).holds t) :
    ((((List.finRange 16).take (digestSize alg / 2)).map Reg.hex).map (regRead t)).flatMap bytes32
      = out.flatMap hexPair := by
  obtain ⟨hdv, rfl, rfl, _⟩ := h
  rw [List.map_map, ← hex_words hdv]
  rfl

/-- `digest` and `hexdigest`, one after the other, read the digest as bytes and then in hex (R121). -/
theorem settles.digests {pre : Fact} {s : State} {rest : List HostOp} (h : settles pre s)
    (he : ∀ d, establishes pre .finish d (shows alg out e))
    (ht : s.todo = assemble (digest alg ++ hexdigest alg) ++ rest) :
    ∃ t ws hs, reaches s t ∧ t.busy = false ∧ t.todo = rest ∧ t.got = s.got ++ ws ++ hs
      ∧ ws.flatMap bytes32 = out ∧ hs.flatMap bytes32 = out.flatMap hexPair
      ∧ (regRead t .status).getLsbD 20 = true ∧ t.err = e := by
  rw [assemble_append, List.append_assoc] at ht
  obtain ⟨t, hr, hb, hs, htodo, hgot⟩ :=
    h.readout (((List.finRange 8).take (digestSize alg / 4)).map .dout) he (by rw [ht, digest, List.map_map]; rfl)
  obtain ⟨u, hr', hb', hs', htodo', hgot'⟩ :=
    settles.readout (((List.finRange 16).take (digestSize alg / 2)).map .hex) (.inl ⟨hb, hs⟩) (shows_finish alg out e)
      (by rw [htodo, hexdigest, List.map_map]; rfl)
  obtain ⟨-, -, hflag, -⟩ := statusWord_flags u
  have hhex := shows_hex hs'
  obtain ⟨hdv, -, -, herr⟩ := hs'
  exact ⟨u, _, _, reaches_trans hr hr', hb', htodo', by rw [hgot', hgot], shows_dout hs, hhex,
    hflag.trans hdv, herr⟩

end

end Sys2Proof.Machine
end

section
/-! SUPPORT. The host program for a plain digest (40_accumulator.md R157). -/

namespace Sys2Proof.Machine

/-- Plain mode, with the context that an ADD would continue. -/
def takes (alg : Alg) (c : Ctx) (e : ErrCode) : Fact where
  holds s := s.mode = .plain ∧ s.alg = alg ∧ s.err = e ∧ s.ctx0.begun alg = c
  unmoved _ _ _ _ _ _ _ _ _ _ := rfl

/-- The same, where a FINISH would close that context and not an earlier message. -/
def underWay (alg : Alg) (c : Ctx) (e : ErrCode) : Fact where
  holds s := (takes alg c e).holds s ∧ s.ctx0.st ≠ .finalized
  unmoved _ _ _ _ _ _ _ _ _ _ := rfl

/-- Any mode and contexts, with `e` in ERR. -/
def errHolds (e : ErrCode) : Fact where
  holds s := s.err = e
  unmoved _ _ _ _ _ _ _ _ _ _ := rfl

/-- Plain mode, with any contexts. -/
def plainHolds (alg : Alg) (e : ErrCode) : Fact where
  holds s := s.mode = .plain ∧ s.alg = alg ∧ s.err = e
  unmoved _ _ _ _ _ _ _ _ _ _ := rfl

section
variable {alg : Alg} {c : Ctx} {e : ErrCode}

theorem establishes_init (d : Word) :
    establishes (errHolds e) (.init alg .plain) d (underWay alg (started alg) e) := by
  intro s t h _ he
  cases he
  exact ⟨⟨rfl, rfl, h, rfl⟩, nofun⟩

theorem establishes_reset (d : Word) : establishes (plainHolds alg e) .reset d (underWay alg (started alg) e) := by
  rintro s t ⟨hm, rfl, herr⟩ _ he
  cases (exec_reset_plain hm).symm.trans he
  exact ⟨⟨hm, rfl, herr, rfl⟩, nofun⟩

theorem establishes_add {d : Word} {n : Nat} (hl : c.tlen + (data d n).length ≤ lmax) :
    establishes (takes alg c e) (.add n) d (underWay alg (absorbAll alg c (data d n)) e) := by
  rintro s t ⟨hm, rfl, herr, rfl⟩ rfl he
  cases (exec_add_plain hm hl).symm.trans he
  exact ⟨⟨hm, rfl, herr, by simp⟩, by simp⟩

theorem establishes_finish (m : List Byte) (d : Word) :
    establishes (underWay alg (absorbAll alg (started alg) m) e) .finish d (shows alg (hash alg m) e) := by
  rintro s t ⟨⟨hm, rfl, herr, hc⟩, hf⟩ _ he
  cases (exec_finish_plain hm).symm.trans he
  refine ⟨by simp [State.dv, State.life, hm], rfl, ?_, herr⟩
  rw [State.hsel_plain _ (by exact hm), State.withCtx0_ctx0, Ctx.ended_of_ne _ hf, hc, extract_ctxFinalize_absorbAll]

theorem carriesOut_addw {x : Word × Nat} (hx : x.2 ≤ 4) (hl : c.tlen + (data x.1 x.2).length ≤ lmax) :
    carriesOut (takes alg c e) (addw x.1 x.2) (underWay alg (absorbAll alg c (data x.1 x.2)) e) :=
  carriesOut_data (op_add _ hx) (by simpa [Instr.wellFormed, legalCount] using hx) (establishes_add hl)

/-- ADDs of pieces of any sizes (R155): the first may begin the message, and with no ADD at all it has to be under way
already. -/
theorem carriesOut_adds {p : List (Word × Nat)} {pre : Fact} (hp : ∀ x ∈ p, x.2 ≤ 4)
    (hl : c.tlen + (carried p).length ≤ lmax) (htakes : ∀ s, pre.holds s → (takes alg c e).holds s)
    (hnil : p = [] → ∀ s, pre.holds s → s.ctx0.st ≠ .finalized) :
    carriesOut pre (p.flatMap fun x => addw x.1 x.2) (underWay alg (absorbAll alg c (carried p)) e) := by
  induction p generalizing c pre with
  | nil => exact (carriesOut_nil _).of_imp fun s h => ⟨htakes s h, hnil rfl s h⟩
  | cons x p ih =>
    obtain ⟨hx, hp⟩ := List.forall_mem_cons.mp hp
    rw [carried_cons, List.length_append] at hl
    rw [List.flatMap_cons, carried_cons, absorbAll_append]
    have hfirst := (carriesOut_addw (alg := alg) (e := e) hx (by omega)).of_imp htakes
    exact carriesOut_append hfirst
      (ih hp (by rw [absorbAll_tlen]; omega) (fun _ => And.left) fun _ _ => And.right)

end

/-- Each of the three starts of R157 is the start of the message that the ADDs carry. -/
theorem carriesOut_digest_message {s : State} {alg : Alg} {start : List Asm} {p : List (Word × Nat)}
    (hp : ∀ x ∈ p, x.2 ≤ 4) (hl : (carried p).length ≤ lmax)
    (hstart : start = [.init alg .plain]
      ∨ (start = [.reset] ∧ s.mode = .plain ∧ s.alg = alg)
      ∨ (start = [] ∧ s.mode = .plain ∧ s.alg = alg
          ∧ (s.ctx0.st = .idle ∨ (s.ctx0.st = .finalized ∧ p ≠ [])))) :
    ∃ pre : Fact, pre.holds s ∧ carriesOut pre (start ++ p.flatMap fun x => addw x.1 x.2)
      (underWay alg (absorbAll alg (started alg) (carried p)) s.err) := by
  have hl : (started alg).tlen + (carried p).length ≤ lmax := by simpa using hl
  have hadds : carriesOut (underWay alg (started alg) s.err) (p.flatMap fun x => addw x.1 x.2)
      (underWay alg (absorbAll alg (started alg) (carried p)) s.err) :=
    carriesOut_adds hp hl (fun _ => And.left) fun _ _ => And.right
  rcases hstart with rfl | ⟨rfl, hm, ha⟩ | ⟨rfl, hm, ha, hi | ⟨hf, hne⟩⟩
  · exact ⟨errHolds s.err, rfl, carriesOut_append (carriesOut_command (op_init alg .plain) rfl establishes_init) hadds⟩
  · exact ⟨plainHolds alg s.err, ⟨hm, ha, rfl⟩,
      carriesOut_append (carriesOut_command op_reset rfl establishes_reset) hadds⟩
  · exact ⟨underWay alg (started alg) s.err, ⟨⟨hm, ha, rfl, Ctx.begun_of_ne alg (by simp [hi])⟩, by simp [hi]⟩, hadds⟩
  · exact ⟨takes alg (started alg) s.err, ⟨hm, ha, rfl, Ctx.begun_of_ne alg (by simp [hf])⟩,
      carriesOut_adds hp hl (fun _ => id) fun h => absurd h hne⟩

/-- Settles O36: the lines before `digest` leave the message under way, and FINISH closes it with its hash. -/
theorem digestProgramReadsTheHash : Obligations.DigestProgramReadsTheHash := by
  intro s alg start p rest hb hp hl hstart ht
  obtain ⟨pre, hs, hprog⟩ := carriesOut_digest_message hp hl hstart
  rw [List.append_assoc, assemble_append, List.append_assoc] at ht
  obtain ⟨t, hr, ht, htodo, hgot⟩ := hprog s _ (.inl ⟨hb, hs⟩) ht
  obtain ⟨u, ws, hx, hr', h⟩ := ht.digests (establishes_finish (carried p)) htodo
  rw [hgot] at h
  exact ⟨u, ws, hx, reaches_trans hr hr', h⟩

end Sys2Proof.Machine
end

section
/-! SUPPORT. The message schedules (41_sha1_engine.md R203-R205) and the 16-word window of R211, for any schedule
builder. -/

namespace Sys2Proof.Machine

theorem blockWords_block_length {block : List Byte} (h : block.length = 64) : (blockWords block).length = 16 := by
  rw [blockWords_length, h]

/-! ### A grown schedule -/

section
variable {nextWord : List Word → Word} {n t : Nat} {w : List Word}

/-- Growing a schedule leaves the loaded words where they were. -/
theorem growSchedule_getElem?_loaded (h : t < w.length) : (growSchedule nextWord n w)[t]? = w[t]? := by
  obtain ⟨e, he, -⟩ := growSchedule_prefix nextWord n w
  rw [he, List.getElem?_append_left h]

theorem growSchedule_getD (h1 : w.length ≤ t) (h2 : t < w.length + n) :
    (growSchedule nextWord n w).getD t 0 = nextWord ((growSchedule nextWord n w).take t) := by
  rw [List.getD_eq_getElem?_getD, growSchedule_getElem? nextWord n w t h1 h2, Option.getD_some]

theorem getD_take_sub {k : Nat} (hk : 0 < k) (hkt : k ≤ t) : (w.take t).getD (t - k) 0 = w.getD (t - k) 0 := by
  rw [List.getD_eq_getElem?_getD, List.getD_eq_getElem?_getD, List.getElem?_take_of_lt (by omega)]

end

/-! ### The window -/

/-- The window at round t: the last 16 words up to `W[t]`, or all the loaded words before round 16, each in its
slot (R211). -/
def holdsWindow (w slots : List Word) (t : Nat) : Prop :=
  slots.length = 16 ∧ ∀ j, j ≤ max t 15 → t < j + 16 → slots[j % 16]? = w[j]?

section
variable {w slots : List Word} {t : Nat}

theorem holdsWindow.getD (h : holdsWindow w slots t) {j : Nat} (hj : j ≤ max t 15) (ht : t < j + 16) :
    slots.getD (j % 16) 0 = w.getD j 0 := by
  rw [List.getD_eq_getElem?_getD, h.2 j hj ht, ← List.getD_eq_getElem?_getD]

/-- Before round 16 the window is the loaded words, and they are the schedule's. -/
theorem holdsWindow_loaded (hl : slots.length = 16) (hw : ∀ j, j < 16 → w[j]? = slots[j]?) (ht : t < 16) :
    holdsWindow w slots t := by
  refine ⟨hl, fun j hj _ => ?_⟩
  rw [Nat.mod_eq_of_lt (by omega), hw j (by omega)]

/-- `W[t+1]` overwrites `W[t-15]`, the one word that leaves the window; the 15 others keep their slots. -/
theorem holdsWindow.set (h : holdsWindow w slots t) (ht : 15 ≤ t) (hw : t + 1 < w.length) :
    holdsWindow w (slots.set ((t + 1) % 16) (w.getD (t + 1) 0)) (t + 1) := by
  obtain ⟨hl, hslot⟩ := h
  refine ⟨by rw [List.length_set, hl], fun j hj hjt => ?_⟩
  obtain rfl | hne := eq_or_ne j (t + 1)
  · rw [List.getElem?_set_self (by omega), List.getD_eq_getElem _ _ hw, List.getElem?_eq_getElem hw]
  · rw [List.getElem?_set_ne (by omega), hslot j (by omega) (by omega)]

/-- If each step from round 16 on writes the schedule's next word, the window holds at every round. -/
theorem windowAt_holds {stepAt : Nat → List Word → List Word} {loaded : List Word} (hl : loaded.length = 16)
    (hw : ∀ j, j < 16 → w[j]? = loaded[j]?)
    (hstep : ∀ t slots, 15 ≤ t → t + 1 < w.length → holdsWindow w slots t →
      stepAt (t + 1) slots = slots.set ((t + 1) % 16) (w.getD (t + 1) 0))
    (ht : t < w.length) : holdsWindow w (windowAt stepAt loaded t) t := by
  induction t with
  | zero => exact holdsWindow_loaded hl hw (by omega)
  | succ t ih =>
    rw [windowAt]
    split
    case isTrue hlt => exact holdsWindow_loaded hl hw hlt
    case isFalse hge =>
      have hold := ih (by omega)
      rw [hstep t _ (by omega) ht hold]
      exact hold.set (by omega) ht

end

end Sys2Proof.Machine
end

section
/-! SUPPORT. The schedule of SHA-1 (41_sha1_engine.md R203-R205, R211). -/

namespace Sys2Proof.Machine

section
variable {block : List Byte} {t : Nat}

theorem schedule1_length (hb : block.length = 64) : (schedule1 block).length = 80 := by
  rw [schedule1, growSchedule_length, blockWords_block_length hb]

theorem schedule1_getElem?_loaded (hb : block.length = 64) (ht : t < 16) :
    (schedule1 block)[t]? = (blockWords block)[t]? :=
  growSchedule_getElem?_loaded (by rwa [blockWords_block_length hb])

/-- The recurrence of R205. -/
theorem schedule1_getD (hb : block.length = 64) (h16 : 16 ≤ t) (h80 : t < 80) :
    (schedule1 block).getD t 0
      = rotl 1 ((schedule1 block).getD (t - 3) 0 ^^^ (schedule1 block).getD (t - 8) 0
          ^^^ (schedule1 block).getD (t - 14) 0 ^^^ (schedule1 block).getD (t - 16) 0) := by
  have hlen : ((schedule1 block).take t).length = t := by rw [List.length_take, schedule1_length hb]; omega
  have hnext : (schedule1 block).getD t 0 = nextWord1 ((schedule1 block).take t) :=
    growSchedule_getD (by rwa [blockWords_block_length hb]) (by rwa [blockWords_block_length hb])
  simp (disch := omega) only [hnext, nextWord1, hlen, getD_take_sub]

/-- A step on a window that holds computes the schedule's next word: slot (t+1) mod 16 still has `W[t+1-16]`. -/
theorem windowStep1_eq {slots : List Word} (hb : block.length = 64) (h15 : 15 ≤ t) (h80 : t + 1 < 80)
    (h : holdsWindow (schedule1 block) slots t) :
    windowStep1 (t + 1) slots = slots.set ((t + 1) % 16) ((schedule1 block).getD (t + 1) 0) := by
  have hslot {k : Nat} (h0 : 0 < k) (hk : k ≤ 16) :
      slots.getD ((t + 1 - k) % 16) 0 = (schedule1 block).getD (t + 1 - k) 0 := h.getD (by omega) (by omega)
  have hold : (t + 1 - 16) % 16 = (t + 1) % 16 := by omega
  rw [windowStep1, schedule1_getD hb (by omega) h80]
  simp (disch := omega) only [← hslot, hold]

end

/-- Settles O23: the loaded words stay, and each later one is the recurrence of the words before it. -/
theorem sha1MessageSchedule : Obligations.Sha1MessageSchedule := by
  intro block hb
  refine ⟨schedule1_length hb, fun t ht => ?_, fun t => schedule1_getD hb⟩
  rw [schedule1_getElem?_loaded hb ht, blockWords_getElem? block t (by omega)]

/-- Settles O25, by induction on the round: at each one the window holds the last 16 words of the schedule. -/
theorem sha1SixteenWordWindow : Obligations.Sha1SixteenWordWindow := by
  intro block hb t ht
  have hlen := schedule1_length hb
  obtain ⟨hl, hslot⟩ : holdsWindow (schedule1 block) (windowAt windowStep1 (blockWords block) t) t :=
    windowAt_holds (blockWords_block_length hb) (fun j => schedule1_getElem?_loaded hb)
      (fun t slots h15 h80 => windowStep1_eq hb h15 (by omega)) (by omega)
  exact ⟨hl, hslot t (by omega) (by omega)⟩

end Sys2Proof.Machine
end

section
/-! SUPPORT. The check values of `Hash` (41_sha1_engine.md R212, 42_sha256_engine.md R251). -/

namespace Sys2Proof.Machine

/-- A message of at most 55 bytes is padded to one block (40_accumulator.md R148), so its hash is one compression. -/
theorem hash_of_le_55 (alg : Alg) {m : List Byte} (h : m.length ≤ 55) :
    hash alg m = extract alg (compress alg (iv alg) (padded m m.length)) := by
  have hlen : (padded m m.length).length = 64 := by rw [padded_blocks m.length (by omega), if_pos h]
  simp only [hash, blockSize, hlen, compressBlocks, List.take_of_length_le, Nat.le_refl]

/-- Settles O27: each message is one padded block, compressed from the initial value. -/
theorem hashCheckValues : Obligations.HashCheckValues := by
  refine ⟨?_, ?_, ?_, ?_, ?_⟩
  all_goals rw [hash_of_le_55 _ (by decide)]
  all_goals decide +kernel

end Sys2Proof.Machine
end

section
/-! SUPPORT. The schedule of SHA-256 and SHA-224 (42_sha256_engine.md R246, R247). -/

namespace Sys2Proof.Machine

/-- Once `W[t]` is in the window, a read `k` words back from round t+1 finds `W[t+1-k]`. -/
theorem holdsWindow.getD_back {w slots : List Word} {t k : Nat} (h : holdsWindow w slots t) (h15 : 15 ≤ t)
    (h0 : 0 < k) (hk : k ≤ 16) : slots.getD ((t + 1 - k) % 16) 0 = w.getD (t + 1 - k) 0 :=
  h.getD (by omega) (by omega)

/-- The slot that round t+1 overwrites still has `W[t+1-16]`. -/
theorem holdsWindow.getD_oldest {w slots : List Word} {t : Nat} (h : holdsWindow w slots t) (h15 : 15 ≤ t) :
    slots.getD ((t + 1) % 16) 0 = w.getD (t + 1 - 16) 0 := by
  rw [← h.getD_back h15 (by omega) le_rfl, ← Nat.mod_eq_sub_mod (by omega)]

section
variable {block : List Byte} {t : Nat}

theorem schedule256_length (hb : block.length = 64) : (schedule256 block).length = 64 := by
  rw [schedule256, growSchedule_length, blockWords_block_length hb]

theorem schedule256_getElem?_loaded (hb : block.length = 64) (ht : t < 16) :
    (schedule256 block)[t]? = (blockWords block)[t]? :=
  growSchedule_getElem?_loaded (by rwa [blockWords_block_length hb])

/-- The recurrence of R247. -/
theorem schedule256_getD (hb : block.length = 64) (h16 : 16 ≤ t) (h64 : t < 64) :
    (schedule256 block).getD t 0
      = gamma1 ((schedule256 block).getD (t - 2) 0) + (schedule256 block).getD (t - 7) 0
          + gamma0 ((schedule256 block).getD (t - 15) 0) + (schedule256 block).getD (t - 16) 0 := by
  have hlen : ((schedule256 block).take t).length = t := by
    rw [List.length_take_of_le (by rw [schedule256_length hb]; omega)]
  have hnext : (schedule256 block).getD t 0 = nextWord256 ((schedule256 block).take t) :=
    growSchedule_getD (by rwa [blockWords_block_length hb]) (by rwa [blockWords_block_length hb])
  simp (disch := omega) only [hnext, nextWord256, hlen, getD_take_sub]

/-- A step on a window that holds computes the schedule's next word (R247). -/
theorem windowStep256_eq {slots : List Word} (hb : block.length = 64) (h15 : 15 ≤ t) (h64 : t + 1 < 64)
    (h : holdsWindow (schedule256 block) slots t) :
    windowStep256 (t + 1) slots = slots.set ((t + 1) % 16) ((schedule256 block).getD (t + 1) 0) := by
  rw [windowStep256, schedule256_getD hb (by omega) h64]
  simp (disch := omega) only [h.getD_back h15, h.getD_oldest h15]

/-- The 16-word window follows the schedule at every round (R247, as 41_sha1_engine.md R211). -/
theorem windowAt256_holds (hb : block.length = 64) (ht : t < 64) :
    holdsWindow (schedule256 block) (windowAt windowStep256 (blockWords block) t) t := by
  have hlen := schedule256_length hb
  exact windowAt_holds (blockWords_block_length hb) (fun _ => schedule256_getElem?_loaded hb)
    (fun _ _ h15 h64 => windowStep256_eq hb h15 (by omega)) (by omega)

end

/-- Settles O24: the loaded words stay, and each later one is the recurrence of the words before it. -/
theorem sha256MessageSchedule : Obligations.Sha256MessageSchedule := by
  intro block hb
  refine ⟨schedule256_length hb, fun t ht => ?_, fun t => schedule256_getD hb⟩
  rw [schedule256_getElem?_loaded hb ht, blockWords_getElem? block t (by omega)]

/-- Settles O26: the window that holds at round t has 16 words, and `W[t]` is one of those in it. -/
theorem sha256SixteenWordWindow : Obligations.Sha256SixteenWordWindow := by
  intro block hb t ht
  obtain ⟨hl, hslot⟩ := windowAt256_holds hb ht
  exact ⟨hl, hslot t (by omega) (by omega)⟩

end Sys2Proof.Machine
end

section
/-! SUPPORT. The HMAC controller (43_hmac.md R280-R299): the loaded key, and one equation for each command in HMAC mode,
by the HMAC lifecycle. -/

namespace Sys2Proof.Machine

/-! ### The loaded key -/

/-- The state holds the loaded key `key`: its first bytes in KB, its length in KLEN, and past 64 bytes CTX0 has absorbed
it (R281, R285). -/
structure HoldsKey (s : State) (key : List Byte) : Prop where
  kb : s.kb = padKey key
  klen : s.klen = key.length
  hashed : 64 < key.length → s.ctx0 = absorbAll s.alg (started s.alg) key

section
variable {s : State} {key : List Byte}

/-- One more key byte goes into KB while there is room, and into the hash of the key after that (R285). -/
theorem HoldsKey.keyAbsorb (h : HoldsKey s key) (b : Byte) : HoldsKey (keyAbsorb s b) (key ++ [b]) := by
  rcases lt_trichotomy s.klen 64 with hk | hk | hk <;> have hj := h.klen ▸ hk
  · rw [keyAbsorb_of_lt hk, h.kb, h.klen, padKey_set key b hj]
    exact ⟨rfl, by simp, fun hl => absurd hl (by simp; omega)⟩
  · rw [keyAbsorb_of_eq hk, h.kb, h.klen, padKey_toList_of_full key hj]
    exact ⟨(padKey_append_of_full _ _ hj.ge).symm, by simp, fun _ => rfl⟩
  · rw [keyAbsorb_of_gt hk, h.klen, h.hashed hj, ← absorbAll_append]
    exact ⟨h.kb.trans (padKey_append_of_full _ _ hj.le).symm, by simp, fun _ => rfl⟩

theorem HoldsKey.keyAbsorbAll (h : HoldsKey s key) (bytes : List Byte) :
    HoldsKey (keyAbsorbAll s bytes) (key ++ bytes) := by
  induction bytes generalizing s key with
  | nil => simpa using h
  | cons b bs ih => simpa using ih (h.keyAbsorb b)

/-- CTX0 is left alone until the 65th key byte (R285). -/
theorem keyAbsorbAll_ctx0 {bytes : List Byte} (h : s.klen + bytes.length ≤ 64) :
    (keyAbsorbAll s bytes).ctx0 = s.ctx0 := by
  induction bytes generalizing s with
  | nil => rfl
  | cons b bs ih =>
    rw [List.length_cons] at h
    rw [keyAbsorbAll_cons, ih (by rw [keyAbsorb_klen]; omega), keyAbsorb_of_lt (by omega)]

/-- `normalise()` computes `normkey` of the loaded key (R282, R288). -/
theorem HoldsKey.normalise_k0 (h : HoldsKey s key) : (normalise s).k0 = normkey s.alg key := by
  unfold normalise normkey
  rw [h.klen]
  split
  · exact h.kb
  · rename_i hk
    simp only [h.hashed (Nat.not_le.mp hk), extract_ctxFinalize_absorbAll]

end

/-! ### The commands in HMAC mode -/

section
variable {s : State}

theorem exec_keyclr_hmac (hm : s.mode = .hmac) : exec .keyclr s = .next s.fresh := by
  simp [exec, execKeyclr, hm]

theorem exec_key_hmac (hm : s.mode = .hmac) (hi : s.hst = .idle) {n : Nat}
    (hl : s.klen + (data s.cmdData n).length ≤ lmax) :
    exec (.key n) s = .next (keyAbsorbAll s (data s.cmdData n)) := by
  simp [exec, execKey, hm, hi, Nat.not_lt.mpr hl]

theorem exec_key_hmac_elen (hm : s.mode = .hmac) (hi : s.hst = .idle) {n : Nat}
    (hl : s.klen + (data s.cmdData n).length > lmax) : exec (.key n) s = .next (s.reject .elen) := by
  simp [exec, execKey, hm, hi, hl]

/-- Once a key is normalised none can be added (R286). -/
theorem exec_key_hmac_eseq (hm : s.mode = .hmac) (hi : s.hst ≠ .idle) (n : Nat) :
    exec (.key n) s = .next (s.reject .eseq) := by
  simp [exec, execKey, hm, hi]

theorem exec_reset_hmac_idle (hm : s.mode = .hmac) (hi : s.hst = .idle) :
    exec .reset s = .next (rekey (normalise s)) := by
  simp [exec, execReset, hmacReset, hm, hi]

theorem exec_reset_hmac_keyed (hm : s.mode = .hmac) (hi : s.hst ≠ .idle) : exec .reset s = .next (rekey s) := by
  simp [exec, execReset, hmacReset, hm, hi]

theorem exec_add_hmac_idle (hm : s.mode = .hmac) (hi : s.hst = .idle) (n : Nat) :
    exec (.add n) s = .next (s.reject .eseq) := by
  simp [exec, execAdd, hm, hmacAdd_of_idle hi]

theorem exec_add_hmac_continues (hm : s.mode = .hmac) (ha : s.hst = .accumulating) {n : Nat}
    (hl : s.ctx0.tlen + (data s.cmdData n).length ≤ lmax) :
    exec (.add n) s = .next (s.withCtx0 (absorbAll s.alg s.ctx0 (data s.cmdData n))) := by
  simp [exec, execAdd, hmacAdd, hm, ha, Nat.not_lt.mpr hl]

theorem exec_add_hmac_elen (hm : s.mode = .hmac) (ha : s.hst = .accumulating) {n : Nat}
    (hl : s.ctx0.tlen + (data s.cmdData n).length > lmax) : exec (.add n) s = .next (s.reject .elen) := by
  simp [exec, execAdd, hmacAdd, hm, ha, hl]

/-- The pad is one block, so the few bytes of one ADD fit behind it (R292). -/
theorem exec_add_hmac_starts (hm : s.mode = .hmac) (hf : s.hst = .finalized) (n : Nat) :
    exec (.add n) s = .next ((rekey s).withCtx0 (absorbAll s.alg (rekey s).ctx0 (data s.cmdData n))) := by
  have hl : 64 + (data s.cmdData n).length ≤ lmax :=
    (Nat.add_le_add_left (data_length_le s.cmdData n) 64).trans (by decide)
  simp [exec, execAdd, hmacAdd, hm, hf, Nat.not_lt.mpr hl]

theorem exec_finish_hmac_idle (hm : s.mode = .hmac) (hi : s.hst = .idle) :
    exec .finish s = .next (s.reject .eseq) := by
  simp [exec, execFinish, hm, hmacFinish_of_idle hi]

theorem exec_finish_hmac_finalized (hm : s.mode = .hmac) (hf : s.hst = .finalized) : exec .finish s = .next s :=
  exec_finish_of_dv ((State.dv_iff s).mpr ((State.life_hmac s hm).trans hf))

theorem exec_finish_hmac (hm : s.mode = .hmac) (ha : s.hst = .accumulating) :
    exec .finish s = .next { s with
      ctx0 := ctxFinalize s.alg s.ctx0
      ctx1 := outerDigest s.alg s.k0 s.ctx1 (extract s.alg (ctxFinalize s.alg s.ctx0).h)
      hst := .finalized } := by
  simp [exec, execFinish, hmacFinish, hm, ha]

/-- A keyed computation starts from the inner pad alone (R283, R289). -/
theorem rekey_eq (s : State) :
    rekey s = { s with
      ctx0 := absorbAll s.alg (started s.alg) (xorPad s.k0 ipadByte), ctx1 := Ctx.idle, hst := .accumulating } := rfl

/-- The inner pad is one whole block (R289). -/
theorem rekey_ctx0_block (s : State) :
    (rekey s).ctx0.tlen = 64 ∧ (rekey s).ctx0.buf = [] ∧ (rekey s).ctx0.st = .accumulating := by
  have hbuf := absorbAll_buf_length s.alg (ctxReset s.alg s.ctx0) (xorPad s.k0 ipadByte) rfl
  exact ⟨by simp, List.eq_nil_of_length_eq_zero (by simp [hbuf]), by simp⟩

end

/-- Settles O42: the bytes are appended one by one, and only the 65th and later ones reach CTX0. -/
theorem keyAppendsItsBytes : Obligations.KeyAppendsItsBytes := by
  intro s key n hn hm hi hkb hklen hctx hl
  have hlen := data_length s.cmdData n hn
  have hexec := exec_key_hmac (n := n) hm hi (by omega)
  rw [keyAbsorbAll_frame, hlen] at hexec
  have hkey := HoldsKey.keyAbsorbAll ⟨hkb, hklen, hctx⟩ (data s.cmdData n)
  refine ⟨_, _, hexec, hkey.kb, fun h => keyAbsorbAll_ctx0 (by omega), fun h => ?_⟩
  have hc := hkey.hashed (by rw [List.length_append]; omega)
  rw [keyAbsorbAll_frame] at hc
  refine ⟨hc, ?_, ?_⟩ <;> rw [hc] <;> simp [hlen]

/-- Settles O43: RESET normalises out of Idle only, and then re-keys. -/
theorem hmacResetNormalisesAndKeys : Obligations.HmacResetNormalisesAndKeys := by
  intro s key hm hkb hklen _ hctx
  have hreset : ∃ c k, exec .reset s = .next (rekey { s with ctx0 := c, k0 := k })
      ∧ (s.hst = .idle → k = normkey s.alg key) ∧ (s.hst ≠ .idle → k = s.k0) := by
    by_cases hi : s.hst = .idle
    · rw [exec_reset_hmac_idle hm hi, normalise_frame]
      exact ⟨_, _, rfl, fun _ => HoldsKey.normalise_k0 ⟨hkb, hklen, hctx hi⟩, absurd hi⟩
    · exact ⟨_, _, exec_reset_hmac_keyed hm hi, (absurd · hi), fun _ => rfl⟩
  obtain ⟨c, k, hexec, hnormal, hkept⟩ := hreset
  obtain ⟨htlen, hbuf, hst⟩ := rekey_ctx0_block { s with ctx0 := c, k0 := k }
  exact ⟨_, hexec, hnormal, hkept, rfl, htlen, hbuf, hst, rfl⟩

/-- Settles O44: each clause is the equation of ADD in that HST. -/
theorem hmacAddResult : Obligations.HmacAddResult := by
  intro s n hn hm
  have hlen := data_length s.cmdData n hn
  refine ⟨fun hi => exec_add_hmac_idle hm hi n, fun ha hl => exec_add_hmac_continues hm ha (by omega),
    fun ha hl => exec_add_hmac_elen hm ha (by omega), fun hf => ?_⟩
  rw [exec_add_hmac_starts hm hf, absorbAll_append, rekey_eq]
  rfl

/-- Settles O45: the inner digest closes over pad and message, and the outer one over the other pad and that digest. -/
theorem hmacFinishResult : Obligations.HmacFinishResult := by
  intro s hm
  refine ⟨fun hi => exec_finish_hmac_idle hm hi, fun hf => exec_finish_hmac_finalized hm hf, fun m ha _ hc => ?_⟩
  refine ⟨_, _, exec_finish_hmac hm ha, ?_, rfl, rfl, ?_, rfl, rfl, ?_⟩
  · rw [hc, extract_ctxFinalize_absorbAll, extract_outerDigest]
    rfl
  · simp [hc]
  · simp [outerDigest]

/-! ### The lifecycle table -/

section
variable {s : State}

/-- A rejection, with HST written as the column of the table that the state is in. -/
theorem reject_of_hst {l : Lifecycle} (h : s.hst = l) (c : ErrCode) :
    s.reject c = { s with hst := l, err := if s.err = .none then c else s.err } := by
  subst h
  rfl

/-- The row of KEY in the table of R299, in Idle. -/
theorem hmac_key_row (hm : s.mode = .hmac) (hi : s.hst = .idle) {n : Nat} (hn : n ≤ 4) :
    ∃ t, exec (.key n) s = .next t ∧ t.hst = .idle
      ∧ (s.klen + n ≤ lmax → t.klen = s.klen + n ∧ t.err = s.err)
      ∧ (s.klen + n > lmax → t = { s with hst := .idle, err := if s.err = .none then .elen else s.err }) := by
  have hlen := data_length s.cmdData n hn
  by_cases hl : s.klen + n ≤ lmax
  · have hexec := exec_key_hmac (n := n) hm hi (by omega)
    rw [keyAbsorbAll_frame, hlen] at hexec
    exact ⟨_, hexec, hi, fun _ => ⟨rfl, rfl⟩, fun h => absurd hl (Nat.not_le.mpr h)⟩
  · exact ⟨_, exec_key_hmac_elen hm hi (by omega), hi, (absurd · hl), fun _ => reject_of_hst hi _⟩

/-- The row of ADD in the table of R299, in Accumulating. -/
theorem hmac_add_row (hm : s.mode = .hmac) (ha : s.hst = .accumulating) {n : Nat} (hn : n ≤ 4) :
    ∃ t, exec (.add n) s = .next t ∧ t.hst = .accumulating
      ∧ (s.ctx0.tlen + n ≤ lmax → t.ctx0 = absorbAll s.alg s.ctx0 (operandBytes s n) ∧ t.err = s.err)
      ∧ (s.ctx0.tlen + n > lmax →
          t = { s with hst := .accumulating, err := if s.err = .none then .elen else s.err }) := by
  have hlen := data_length s.cmdData n hn
  by_cases hl : s.ctx0.tlen + n ≤ lmax
  · exact ⟨_, exec_add_hmac_continues hm ha (by omega), ha, fun _ => ⟨rfl, rfl⟩,
      fun h => absurd hl (Nat.not_le.mpr h)⟩
  · exact ⟨_, exec_add_hmac_elen hm ha (by omega), ha, (absurd · hl), fun _ => reject_of_hst ha _⟩

end

/-- Settles O46: each cell of the table is the command's equation in that HST. -/
theorem hmacLifecycleTable : Obligations.HmacLifecycleTable := by
  intro s i hm hw
  cases i with
  | nop => exact ⟨_, rfl, rfl⟩
  | clrerr => exact ⟨_, rfl, rfl⟩
  | init alg mode => exact ⟨_, rfl, rfl, rfl⟩
  | keyclr => exact ⟨_, exec_keyclr_hmac hm, rfl, rfl, rfl, rfl⟩
  | key n =>
    cases hs : s.hst with
    | idle => exact hmac_key_row hm hs (by simpa [Instr.wellFormed, legalCount] using hw)
    | accumulating => exact ⟨_, exec_key_hmac_eseq hm (by simp [hs]) n, reject_of_hst hs _⟩
    | finalized => exact ⟨_, exec_key_hmac_eseq hm (by simp [hs]) n, reject_of_hst hs _⟩
  | reset =>
    cases hs : s.hst with
    | idle => exact ⟨_, exec_reset_hmac_idle hm hs, rfl, rfl⟩
    | accumulating => exact ⟨_, exec_reset_hmac_keyed hm (by simp [hs]), rfl, rfl⟩
    | finalized => exact ⟨_, exec_reset_hmac_keyed hm (by simp [hs]), rfl, rfl⟩
  | add n =>
    cases hs : s.hst with
    | idle => exact ⟨_, exec_add_hmac_idle hm hs n, reject_of_hst hs _⟩
    | accumulating => exact hmac_add_row hm hs (by simpa [Instr.wellFormed, legalCount] using hw)
    | finalized => exact ⟨_, exec_add_hmac_starts hm hs n, rfl, rfl, rfl⟩
  | finish =>
    cases hs : s.hst with
    | idle => exact ⟨_, exec_finish_hmac_idle hm hs, reject_of_hst hs _⟩
    | accumulating => exact ⟨_, exec_finish_hmac hm hs, rfl, rfl⟩
    | finalized => exact ⟨_, exec_finish_hmac_finalized hm hs, rfl⟩

/-! ### What keeps the key -/

section
variable {s t : State} {i : Instr}

/-- No command but KEYCLR and INIT takes a loaded key byte away, and out of Idle none adds one either (R284). -/
theorem exec_keeps_key (hc : i ≠ .keyclr) (hi : ∀ alg mode, i ≠ .init alg mode) (h : exec i s = .next t) :
    s.klen ≤ t.klen ∧ (∀ k : Nat, k < s.klen → t.kb[k]? = s.kb[k]?)
      ∧ (s.mode = .hmac → s.hst ≠ .idle → t.kb = s.kb ∧ t.klen = s.klen ∧ t.k0 = s.k0) := by
  by_cases hk : ∃ n, i = .key n
  · obtain ⟨n, rfl⟩ := hk
    rcases execKey_cases h with ⟨_, rfl⟩ | ⟨_, _, rfl⟩ | ⟨_, _, _, rfl⟩ | ⟨_, hidle, _, rfl⟩
    · exact ⟨le_rfl, fun _ _ => rfl, fun _ _ => ⟨rfl, rfl, rfl⟩⟩
    · exact ⟨le_rfl, fun _ _ => rfl, fun _ _ => ⟨rfl, rfl, rfl⟩⟩
    · exact ⟨le_rfl, fun _ _ => rfl, fun _ _ => ⟨rfl, rfl, rfl⟩⟩
    · refine ⟨?_, fun k => keyAbsorbAll_keeps s _, fun _ hne => absurd hidle hne⟩
      rw [keyAbsorbAll_frame]
      exact Nat.le_add_right ..
  · obtain ⟨-, -, hloaded, hnormal, -⟩ := commandFrame s t i h
    obtain ⟨hkb, hklen⟩ := hloaded hi hc (fun n hn => hk ⟨n, hn⟩)
    exact ⟨hklen.ge, fun k _ => by rw [hkb], fun _ hne => ⟨hkb, hklen, hnormal hi hc fun hr => hne hr.2.2⟩⟩

end

/-- Settles O41: KEYCLR writes the reset values of the contexts and of the key state, as INIT does. -/
theorem keyclrDiscardsTheKey : Obligations.KeyclrDiscardsTheKey := by
  refine ⟨by decide, fun s => ⟨fun hm => ⟨_, exec_keyclr_hmac hm, rfl, fresh_reads rfl rfl rfl⟩, fun hm => ?_,
    fun hd ho hx => illegalWordRaisesEill s hd (illegal_of_operand_ne_zero (by simp [ho]) hx),
    fun i t hc hi h => exec_keeps_key hc hi h⟩⟩
  simp [exec, execKeyclr, hm, State.reject]

end Sys2Proof.Machine
end

section
/-! SUPPORT. HMAC from the key to the digest, on the jobs that the state represents: a sequence of ADDs, and the host
program (43_hmac.md R295, R296, R298). -/

namespace Sys2Proof.Machine

/-- An HMAC instance. -/
def keyedJob (alg : Alg) (key : List Byte) (phase : Phase) (e : ErrCode) : Job :=
  { alg := alg, mode := .hmac, key := key, phase := phase, err := e }

section
variable {alg : Alg} {key m : List Byte} {e : ErrCode} {s t : State}

/-! ### What the commands make of the job -/

theorem keyedJob_key {d : Word} {n : Nat} (hl : (key ++ data d n).length ≤ lmax) :
    (keyedJob alg key .idle e).command (.key n) d = keyedJob alg (key ++ data d n) .idle e := by
  rw [List.length_append] at hl
  simp [Job.command, keyedJob, hl]

theorem keyedJob_reset (d : Word) :
    (keyedJob alg key .idle e).command .reset d = keyedJob alg key (.accumulating []) e := rfl

theorem keyedJob_add {d : Word} {n : Nat} (hl : 64 + (m ++ data d n).length ≤ lmax) :
    (keyedJob alg key (.accumulating m) e).command (.add n) d
      = keyedJob alg key (.accumulating (m ++ data d n)) e := by
  rw [Job.command_add (by simp [keyedJob])]
  exact if_neg (Nat.not_lt.mpr hl)

/-- An ADD on a finished HMAC begins the next message under the same key (R298). -/
theorem keyedJob_add_finalized {d : Word} {n : Nat} (hl : 64 + (data d n).length ≤ lmax) :
    (keyedJob alg key (.finalized m) e).command (.add n) d = keyedJob alg key (.accumulating (data d n)) e := by
  rw [Job.command_add (by simp [keyedJob])]
  exact if_neg (Nat.not_lt.mpr hl)

theorem keyedJob_finish (d : Word) :
    (keyedJob alg key (.accumulating m) e).command .finish d = keyedJob alg key (.finalized m) e := rfl

/-! ### Sequences of ADDs -/

/-- One command of a sequence does to the state what it does to the job. -/
theorem Represents.feed_cons {j : Job} (h : Represents s j) (mk : Nat → Instr) (d : Word) (n : Nat)
    (p : List (Word × Nat)) :
    ∃ t, feed mk ((d, n) :: p) s = feed mk p t ∧ Represents t (j.command (mk n) d) := by
  have hd : Represents { s with cmdData := d } j :=
    h.with_bus s.din s.busy s.cmdWord d s.cp s.latLeft s.draws s.todo s.got
  obtain ⟨t, he⟩ := exec_answers (mk n) { s with cmdData := d }
  exact ⟨t, by simp [feed, he], hd.after_exec he⟩

/-- ADDs on a message under way append what they carry (R292). -/
theorem Represents.after_feed_add {p : List (Word × Nat)} (h : Represents s (keyedJob alg key (.accumulating m) e))
    (hl : 64 + (m ++ carried p).length ≤ lmax) :
    ∃ t, feed .add p s = .next t ∧ Represents t (keyedJob alg key (.accumulating (m ++ carried p)) e) := by
  induction p generalizing s m with
  | nil => exact ⟨s, rfl, by simpa [carried] using h⟩
  | cons x p ih =>
    rw [carried_cons, ← List.append_assoc] at hl ⊢
    obtain ⟨u, hfeed, hu⟩ := h.feed_cons .add x.1 x.2 p
    rw [keyedJob_add (by rw [List.length_append (bs := carried p)] at hl; omega)] at hu
    rw [hfeed]
    exact ih hu hl

/-! ### The readout -/

/-- The readout of a finished HMAC (R280, R295). -/
theorem Represents.shows_hmac (h : Represents s (keyedJob alg key (.finalized m) e)) :
    (shows alg (hmac alg key m) e).holds s :=
  ⟨(State.dv_iff s).mpr h.life, h.alg, h.extract_hsel rfl, h.err⟩

end

/-- Settles O48: the first ADD begins the message `m'` of the same job, and FINISH closes it. -/
theorem hmacReuseKeepsTheKey : Obligations.HmacReuseKeepsTheKey := by
  rintro s ⟨alg, mode, key, phase, e⟩ m p h rfl rfl hne _ hl
  obtain ⟨x, p, rfl⟩ := List.exists_cons_of_ne_nil hne
  rw [carried_cons] at hl ⊢
  obtain ⟨u, hfirst, hu⟩ := h.feed_cons .add x.1 x.2 p
  have hbegun : Represents u (keyedJob alg key (.accumulating (data x.1 x.2)) e) := by
    rw [← keyedJob_add_finalized (m := m) (by rw [List.length_append] at hl; omega)]
    exact hu
  obtain ⟨v, hrest, hv⟩ := hbegun.after_feed_add hl
  obtain ⟨w, hw⟩ := exec_answers .finish v
  have hend := hv.after_exec hw
  rw [keyedJob_finish] at hend
  obtain ⟨hdv, halg, hout, herr⟩ := hend.shows_hmac
  rw [State.hsel_hmac w hend.mode] at hout
  exact ⟨v, w, hfirst.trans hrest, hw, hdv, halg ▸ hout, herr.trans h.err.symm⟩

/-! ### The host program -/

/-- The state represents the job. -/
def representing (j : Job) : Fact where
  holds s := Represents s j
  unmoved _ _ _ _ _ _ _ _ _ _ := propext ⟨fun h => h.with_bus .., fun h => h.with_bus ..⟩

/-- HMAC mode, with any key and message. -/
def hmacHolds (alg : Alg) (e : ErrCode) : Fact where
  holds s := s.mode = .hmac ∧ s.alg = alg ∧ s.err = e
  unmoved _ _ _ _ _ _ _ _ _ _ := rfl

section
variable {alg : Alg} {key m : List Byte} {e : ErrCode}

/-- A command does to the state what it does to the job (R149-R161, R280-R299). -/
theorem establishes_representing {j j' : Job} {i : Instr} {d : Word} (hj : j.command i d = j') :
    establishes (representing j) i d (representing j') := by
  rintro s t h rfl he
  exact hj ▸ Represents.after_exec h he

theorem establishes_init_hmac (d : Word) :
    establishes (errHolds e) (.init alg .hmac) d (representing (keyedJob alg [] .idle e)) := by
  rintro s t rfl _ he
  cases he
  exact represents_fresh (s.select alg .hmac)

theorem establishes_keyclr (d : Word) :
    establishes (hmacHolds alg e) .keyclr d (representing (keyedJob alg [] .idle e)) := by
  rintro s t ⟨hm, rfl, rfl⟩ _ he
  cases (exec_keyclr_hmac hm).symm.trans he
  simpa [representing, keyedJob, hm] using represents_fresh s

theorem establishes_finish_hmac (d : Word) :
    establishes (representing (keyedJob alg key (.accumulating m) e)) .finish d (shows alg (hmac alg key m) e) :=
  fun s t h hd he => (establishes_representing (keyedJob_finish d) s t h hd he).shows_hmac

/-- If each data line appends its bytes to what a fact is about, so do lines for pieces of any sizes, within a bound on
the whole (R296). -/
theorem carriesOut_pieces {line : Word → Nat → List Asm} {holding : List Byte → Fact} {bound : Nat}
    (hline : ∀ (x : Word × Nat) (bytes : List Byte), x.2 ≤ 4 → (bytes ++ data x.1 x.2).length ≤ bound →
      carriesOut (holding bytes) (line x.1 x.2) (holding (bytes ++ data x.1 x.2)))
    {p : List (Word × Nat)} {bytes : List Byte} (hp : ∀ x ∈ p, x.2 ≤ 4)
    (hl : (bytes ++ carried p).length ≤ bound) :
    carriesOut (holding bytes) (p.flatMap fun x => line x.1 x.2) (holding (bytes ++ carried p)) := by
  induction p generalizing bytes with
  | nil => simpa [carried] using carriesOut_nil (holding bytes)
  | cons x p ih =>
    obtain ⟨hx, hp⟩ := List.forall_mem_cons.mp hp
    rw [carried_cons, ← List.append_assoc] at hl ⊢
    rw [List.flatMap_cons]
    exact carriesOut_append (hline x bytes hx (by rw [List.length_append (bs := carried p)] at hl; omega)) (ih hp hl)

theorem carriesOut_keyw {x : Word × Nat} (hx : x.2 ≤ 4) (hl : (key ++ data x.1 x.2).length ≤ lmax) :
    carriesOut (representing (keyedJob alg key .idle e)) (keyw x.1 x.2)
      (representing (keyedJob alg (key ++ data x.1 x.2) .idle e)) :=
  carriesOut_data (op_key _ hx) (by simpa [Instr.wellFormed, legalCount] using hx)
    (establishes_representing (keyedJob_key hl))

theorem carriesOut_addw_hmac {x : Word × Nat} (hx : x.2 ≤ 4) (hl : 64 + (m ++ data x.1 x.2).length ≤ lmax) :
    carriesOut (representing (keyedJob alg key (.accumulating m) e)) (addw x.1 x.2)
      (representing (keyedJob alg key (.accumulating (m ++ data x.1 x.2)) e)) :=
  carriesOut_data (op_add _ hx) (by simpa [Instr.wellFormed, legalCount] using hx)
    (establishes_representing (keyedJob_add hl))

/-- From an HMAC without a key to the message under way. -/
theorem carriesOut_hmac_message {p q : List (Word × Nat)} (hpq : ∀ x ∈ p ++ q, x.2 ≤ 4)
    (hkey : (carried p).length ≤ lmax) (hmsg : 64 + (carried q).length ≤ lmax) :
    carriesOut (representing (keyedJob alg [] .idle e))
      (p.flatMap (fun x => keyw x.1 x.2) ++ [.reset] ++ q.flatMap (fun x => addw x.1 x.2))
      (representing (keyedJob alg (carried p) (.accumulating (carried q)) e)) := by
  obtain ⟨hp, hq⟩ := List.forall_mem_append.mp hpq
  have hkeys := carriesOut_pieces (holding := fun key => representing (keyedJob alg key .idle e)) (bytes := [])
    (fun _ _ hx hl => carriesOut_keyw hx hl) hp hkey
  have hreset := carriesOut_command (pre := representing (keyedJob alg (carried p) .idle e)) op_reset rfl
    fun d => establishes_representing (keyedJob_reset d)
  have hadds := carriesOut_pieces
    (holding := fun m => representing (keyedJob alg (carried p) (.accumulating m) e)) (bytes := []) (bound := lmax - 64)
    (fun _ _ hx hl => carriesOut_addw_hmac hx (by simp only [lmax] at hl ⊢; omega)) hq
    (by simp only [lmax, List.nil_append] at hmsg ⊢; omega)
  exact carriesOut_append (carriesOut_append hkeys hreset) hadds

theorem carriesOut_hmac_start {s : State} {start : List Asm}
    (hstart : start = [.init alg .hmac] ∨ (start = [.keyclr] ∧ s.mode = .hmac ∧ s.alg = alg)) :
    ∃ pre : Fact, pre.holds s ∧ carriesOut pre start (representing (keyedJob alg [] .idle s.err)) := by
  rcases hstart with rfl | ⟨rfl, hm, ha⟩
  · exact ⟨errHolds s.err, rfl, carriesOut_command (op_init alg .hmac) rfl establishes_init_hmac⟩
  · exact ⟨hmacHolds alg s.err, ⟨hm, ha, rfl⟩, carriesOut_command op_keyclr rfl establishes_keyclr⟩

end

/-- Settles O47: the lines before `digest` leave the keyed message under way, and FINISH closes it with its HMAC. -/
theorem hmacProgramReadsTheMac : Obligations.HmacProgramReadsTheMac := by
  intro s alg start p q rest hb hpq hkey hmsg hstart ht
  obtain ⟨pre, hs, hbegin⟩ := carriesOut_hmac_start hstart
  have hprog := carriesOut_append hbegin (carriesOut_hmac_message hpq hkey hmsg)
  simp only [← List.append_assoc] at hprog
  rw [List.append_assoc _ (digest alg), assemble_append, List.append_assoc] at ht
  obtain ⟨t, hr, ht, htodo, hgot⟩ := hprog s _ (.inl ⟨hb, hs⟩) ht
  obtain ⟨u, ws, hx, hr', h⟩ := ht.digests establishes_finish_hmac htodo
  rw [hgot] at h
  exact ⟨u, ws, hx, reaches_trans hr hr', h⟩

end Sys2Proof.Machine
end

section
/-! SUPPORT. The error that a command word leaves (60_exceptions.md R330-R338): the tables of ESEQ and ELEN, the order
of the checks, and what clears ERR. -/

namespace Sys2Proof.Machine

/-! ### The code of a command -/

section
variable {s t : State} {i : Instr}

theorem commandError_eq_eseq_iff : commandError i s = .eseq ↔ seqError i s = true := by
  unfold commandError
  cases seqError i s <;> cases lenError i s <;> simp

theorem commandError_eq_elen_iff (hseq : seqError i s = false) : commandError i s = .elen ↔ lenError i s = true := by
  unfold commandError
  cases lenError i s <;> simp [hseq]

theorem reject_err_of_none (hs : s.err = .none) (c : ErrCode) : (s.reject c).err = c := by simp [hs]

/-- With no error held, ERR becomes the code of the command, CLRERR's being 0 (R336). -/
theorem exec_err_of_none (hs : s.err = .none) (hw : i.wellFormed = true) (h : exec i s = .next t) :
    t.err = commandError i s := by
  by_cases hi : i = .clrerr
  · subst hi
    cases h
    rfl
  · rcases exec_error hw hi h with ⟨-, rfl⟩ | ⟨hc, hk⟩
    · exact reject_err_of_none hs _
    · rw [hk, hs, hc]

theorem seqError_key_iff {n : Nat} :
    seqError (.key n) s = true ↔ s.mode = .plain ∨ (s.mode = .hmac ∧ s.hst ≠ .idle) := by
  cases hm : s.mode <;> simp [seqError, hm]

end

/-- Settles O49: ERR is the code of the command, which is ESEQ by the table `seqError`. -/
theorem eseqExactlyInItsCases : Obligations.EseqExactlyInItsCases := by
  intro s i hs hw
  obtain ⟨t, he⟩ := exec_answers i s
  refine ⟨t, he, ?_⟩
  rw [exec_err_of_none hs hw he, commandError_eq_eseq_iff]
  cases i with
  | nop | init | reset | add | finish | keyclr | clrerr => simp [seqError]
  | key n => exact seqError_key_iff

/-- Settles O50: ERR is the code of the command, which past the ESEQ check is ELEN by the table `lenError`. -/
theorem elenExactlyPastLmax : Obligations.ElenExactlyPastLmax := by
  intro s i hs hw hseq
  obtain ⟨t, he⟩ := exec_answers i s
  refine ⟨t, he, ?_⟩
  rw [exec_err_of_none hs hw he, commandError_eq_elen_iff hseq]
  cases i with
  | nop | init | reset | finish | keyclr | clrerr => simp [lenError]
  | add n => cases hm : s.mode <;> simp [lenError, addBase, hm, lmax]
  | key n => simp [lenError, lmax]

/-! ### The completion of a word -/

section
variable {s t : State}

theorem decode_clrerr_word : decode 0x07000000 = .ok .clrerr := by decide

/-- A completion rejects the word with its code, or clears ERR, or leaves it (R334, R336, R338). -/
theorem complete_error (h : complete s = .next t) :
    (errorOf s.cmdWord s ≠ .none ∧ t = (s.reject (errorOf s.cmdWord s)).release)
    ∨ (errorOf s.cmdWord s = .none ∧ s.cmdWord = 0x07000000 ∧ t.err = .none)
    ∨ (errorOf s.cmdWord s = .none ∧ s.cmdWord ≠ 0x07000000 ∧ t.err = s.err) := by
  rcases complete_cases h with ⟨⟨e, hd⟩, rfl⟩ | ⟨i, u, hd, hu, rfl⟩
  · rw [errorOf_error hd]
    exact .inl ⟨by decide, rfl⟩
  · rw [errorOf_ok hd]
    by_cases hi : i = .clrerr
    · subst hi
      cases hu
      exact .inr (.inl ⟨rfl, decode_clrerr hd, rfl⟩)
    · have hword : s.cmdWord ≠ 0x07000000 := fun hw =>
        hi (Except.ok.inj (hd.symm.trans (hw ▸ decode_clrerr_word)))
      rcases exec_error (wellFormed_of_decode hd).1 hi hu with ⟨hc, rfl⟩ | ⟨hc, hk⟩
      · exact .inl ⟨hc, rfl⟩
      · exact .inr (.inr ⟨hc, hword, hk⟩)

theorem errorOf_clrerr (hw : s.cmdWord = 0x07000000) : errorOf s.cmdWord s = .none :=
  errorOf_ok (hw ▸ decode_clrerr_word) s

end

/-- Settles O51: each of the three ways a completion ends meets the clause that speaks of it. -/
theorem oneErrorInCheckOrder : Obligations.OneErrorInCheckOrder := by
  intro s hdue
  obtain ⟨t, ht⟩ := complete_answers s
  refine ⟨t, (step_of_due hdue).trans ht, ?_⟩
  rcases complete_error ht with ⟨hc, rfl⟩ | ⟨hc, hw, hk⟩ | ⟨hc, hw, hk⟩
  · exact ⟨fun _ => rfl, fun hn => absurd hn hc, fun hw => absurd (errorOf_clrerr hw) hc⟩
  · exact ⟨absurd hc, fun _ hn => absurd hw hn, fun _ => hk⟩
  · exact ⟨absurd hc, fun _ _ => hk, fun hn => absurd hn hw⟩

/-- Settles O52: a completion with a code is `reject`, which writes ERR alone, and BUSY = 0. -/
theorem rejectionIsPrecise : Obligations.RejectionIsPrecise := by
  intro s hdue hc
  obtain ⟨t, ht⟩ := complete_answers s
  rw [step_of_due hdue, ht]
  rcases complete_error ht with ⟨-, rfl⟩ | ⟨hn, -⟩ | ⟨hn, -⟩
  · rfl
  · exact absurd hn hc
  · exact absurd hn hc

/-! ### What clears ERR -/

section
variable {s t : State}

/-- A bus cycle changes ERR only by hardware reset, which sets it to 0 (70_reset_and_hazards.md R370). -/
theorem hostCycle_err (hc : (hostCycle s).err ≠ s.err) :
    (hostCycle s).err = .none ∧ ∃ p rest, s.todo = .cycle p :: rest ∧ p.rst = true := by
  rcases hostCycle_moves s with ⟨_, _, _, e⟩ | ⟨p, rest, _, ht, hrst, e⟩ | ⟨_, _, _, _, _, _, e⟩
    | ⟨_, _, _, _, _, _, _, e⟩ <;> rw [e] at hc ⊢
  · exact absurd rfl hc
  · exact ⟨rfl, p, rest, ht, hrst⟩
  · exact absurd rfl hc
  · exact absurd rfl hc

/-- Hardware reset precedes every request in its cycle (70_reset_and_hazards.md R370). -/
theorem step_reset {p : Port} {rest : List HostOp} (hh : hostTurn s) (ht : s.todo = .cycle p :: rest)
    (hrst : p.rst = true) :
    step s = .next { State.reset with
      draws := s.draws, todo := rest, got := if p.rd then s.got ++ [0] else s.got } := by
  have hready : ready s p = true := by simp [ready, hrst]
  rw [step_cycle hh ht, if_pos hready, portCycle, if_pos hrst]
  cases p.rd <;> rfl

/-- While an error is held a step changes ERR only to 0, at CLRERR or hardware reset (R338). -/
theorem step_err_of_held (h : step s = .next t) (hs : s.err ≠ .none) (hc : t.err ≠ s.err) :
    t.err = .none
    ∧ ((commandDue s ∧ s.cmdWord = 0x07000000)
      ∨ (hostTurn s ∧ ∃ p rest, s.todo = .cycle p :: rest ∧ p.rst = true)) := by
  rcases step_cases h with ⟨hdue, hcomp⟩ | ⟨hh, rfl⟩
  · rcases complete_err hcomp hc with ⟨hw, hk⟩ | ⟨hn, -⟩
    · exact ⟨hk, .inl ⟨hdue, hw⟩⟩
    · exact absurd hn hs
  · rw [tick_if_busy] at hc ⊢
    obtain ⟨hk, hp⟩ := hostCycle_err hc
    exact ⟨hk, .inr ⟨hh, hp⟩⟩

end

/-- Settles O53: CLRERR's completion, the reset cycle and INIT are known exactly, and no other step touches an error
that is held. -/
theorem errIsStickyUntilCleared : Obligations.ErrIsStickyUntilCleared := by
  refine ⟨fun s t => step_err_of_held, fun s hdue hw => ?_, fun s p rest hh ht hrst => ?_, fun s alg mode => ?_⟩
  · obtain ⟨t, ht, -, -, hclr⟩ := oneErrorInCheckOrder s hdue
    exact ⟨t, ht, hclr hw⟩
  · exact ⟨_, step_reset hh ht hrst, rfl⟩
  · exact ⟨_, rfl, rfl⟩

end Sys2Proof.Machine
end

section
/-! SUPPORT. Reads in and out of the BUSY window (70_reset_and_hazards.md R380), hardware reset in every state (R370),
and the end of every BUSY window (R385). -/

namespace Sys2Proof.Machine

/-! ### Reads -/

section
variable {s : State} {r : Reg}

/-- A read that BUSY does not mask is exact at any time and uses no free value (R380). -/
theorem busRead_of_unmasked (hm : r.masked = false) :
    (s.afterRead r).draws = s.draws ∧ busRead s r = regRead s r := by
  simp [State.afterRead, busRead, hm]

/-- A masked read with BUSY = 1 is made of the next free value (R380). -/
theorem busRead_of_masked (hb : s.busy = true) (hm : r.masked = true) :
    (s.afterRead r).draws = s.draws + 1 ∧ busRead s r = maskedRead (Config.busyRead s.draws) r := by
  simp [State.afterRead, busRead, hb, hm]

/-- LEN, DOUT and HEX have no bit that stays exact with BUSY = 1 (R380). -/
theorem busRead_of_free (hb : s.busy = true)
    (hr : r = .lenLo ∨ r = .lenHi ∨ (∃ i, r = .dout i) ∨ ∃ j, r = .hex j) :
    (s.afterRead r).draws = s.draws + 1 ∧ busRead s r = Config.busyRead s.draws := by
  rcases hr with rfl | rfl | ⟨i, rfl⟩ | ⟨j, rfl⟩
  · exact busRead_of_masked hb rfl
  · exact busRead_of_masked hb rfl
  · exact busRead_of_masked hb rfl
  · exact busRead_of_masked hb rfl

end

/-- Settles O9: a read moves the window's count, the draw counter and the host's side alone; what it returns is one of
the kinds of read above. -/
theorem readsInAndOutOfTheBusyWindow : Obligations.ReadsInAndOutOfTheBusyWindow := by
  intro s p rest hh ht hrst hrd
  have hstep := step_read hh ht hrst hrd
  generalize Reg.ofAddr p.addr = r at hstep ⊢
  refine ⟨busRead s r, (s.afterRead r).draws, ?_, fun hb => ?_, fun hb => ⟨?_, busRead_of_free hb, ?_, ?_, ?_⟩⟩
  · rw [hstep]
    unfold State.afterRead State.receive
    split <;> rfl
  · exact ⟨busRead_of_idle hb r, congrArg State.draws (afterRead_of_idle hb r)⟩
  · rintro rfl
    obtain ⟨hn, hv⟩ := busRead_of_masked (r := .status) hb rfl
    exact ⟨hn, hv ▸ maskedRead_status _⟩
  · rintro rfl
    exact busRead_of_unmasked rfl
  · rintro rfl
    exact busRead_of_unmasked rfl
  · rintro (rfl | ⟨i, rfl⟩)
    · exact busRead_of_unmasked rfl
    · exact busRead_of_unmasked rfl

/-! ### Completions and runs -/

/-- A completion frees SHC, and moves neither the draw counter nor the host's side (assumptions 1 and 3). -/
theorem complete_host {s t : State} (h : complete s = .next t) :
    t.busy = false ∧ t.draws = s.draws ∧ t.todo = s.todo ∧ t.got = s.got := by
  rcases complete_cases h with ⟨_, rfl⟩ | ⟨i, u, _, hu, rfl⟩
  · exact ⟨rfl, rfl, rfl, rfl⟩
  · obtain ⟨⟨_, _, _, _, _, _, hdraws, htodo, hgot⟩, _⟩ := commandFrame s u i hu
    exact ⟨rfl, hdraws, htodo, hgot⟩

theorem runsTo_one {s t : State} (h : step s = .next t) : runsTo 1 s t := runsTo_succ h rfl

/-! ### Hardware reset -/

section
variable {s : State} {p : Port} {rest : List HostOp}

/-- Where a command is due the reset cycle comes after its completion, which changes nothing that reset
keeps (assumptions 1, 3 and 8). -/
theorem runsTo_reset (ht : s.todo = .cycle p :: rest) (hrst : p.rst = true) :
    runsTo (if s.busy = true ∧ s.latLeft = 0 then 2 else 1) s { State.reset with
      draws := s.draws, todo := rest, got := if p.rd then s.got ++ [0] else s.got } := by
  by_cases hdue : s.busy = true ∧ s.latLeft = 0
  · obtain ⟨u, hu⟩ := complete_answers s
    obtain ⟨hb, hdraws, htodo, hgot⟩ := complete_host hu
    have hreset := step_reset (.inl hb) (htodo.trans ht) hrst
    rw [hdraws, hgot] at hreset
    rw [if_pos hdue]
    exact runsTo_succ ((step_of_due hdue).trans hu) (runsTo_one hreset)
  · rw [if_neg hdue]
    exact runsTo_one (step_reset ((due_or_hostTurn s).resolve_left hdue) ht hrst)

/-- A CMD write is accepted at once while BUSY = 0 (20_memory.md R74). -/
theorem step_accept {w : Word} (hb : s.busy = false) (ht : s.todo = memWrite 0x00 w :: rest) :
    ∃ u, step s = .next u ∧ u.busy = true ∧ u.cmdWord = w ∧ u.cp = s.cp + 1 ∧ u.todo = rest := by
  obtain ⟨-, haccept, -⟩ := onlyCommandWritesWait s _ rest (.inl hb) ht rfl
  obtain ⟨lat, hstep⟩ := haccept rfl rfl ofAddr_cmd hb
  exact ⟨_, hstep, rfl, rfl, rfl, rfl⟩

end

/-- Settles O10: the reset cycle is reached as `runsTo_reset` says; it leaves BUSY = 0, where a CMD write is
accepted. -/
theorem hardwareResetSetsEverything : Obligations.HardwareResetSetsEverything := by
  intro s p rest ht hrst
  exact ⟨_, runsTo_reset ht hrst, rfl, fun w rest' hw => step_accept rfl hw⟩

/-! ### The end of the BUSY window -/

/-- A cycle of the BUSY window shortens it, or resets SHC (R370, R385). -/
theorem step_window {s : State} (hb : s.busy = true) (hl : s.latLeft ≠ 0) :
    ∃ t, step s = .next t ∧ (t.busy = false ∨ (t.busy = true ∧ t.latLeft = s.latLeft - 1)) := by
  have hstep : step s = .next (hostCycle s.tick) := by rw [step_of_hostTurn (.inr hl), if_pos hb]
  refine ⟨_, hstep, ?_⟩
  rcases hostCycle_moves s.tick with ⟨_, _, _, e⟩ | ⟨_, _, _, _, _, e⟩ | ⟨_, _, _, _, _, hidle, _⟩
    | ⟨_, _, _, _, _, _, _, e⟩
  · rw [e]
    exact .inr ⟨hb, rfl⟩
  · rw [e]
    exact .inl rfl
  · exact absurd (hb.symm.trans hidle) (by decide)
  · rw [e]
    exact .inr ⟨hb, rfl⟩

/-- Settles O12, by induction on what is left of the BUSY window. -/
theorem everyAcceptedCommandCompletes : Obligations.EveryAcceptedCommandCompletes := by
  intro s hb
  induction hn : s.latLeft generalizing s with
  | zero =>
    obtain ⟨t, ht⟩ := complete_answers s
    obtain ⟨hbt, -⟩ := complete_host ht
    exact ⟨1, t, Nat.le_refl 1, runsTo_one ((step_of_due ⟨hb, hn⟩).trans ht), hbt⟩
  | succ n ih =>
    obtain ⟨u, hu, hfree | ⟨hbu, hlu⟩⟩ := step_window hb (by omega)
    · exact ⟨1, u, by omega, runsTo_one hu, hfree⟩
    · obtain ⟨k, t, hk, hrun, hbt⟩ := ih u hbu (by omega)
      exact ⟨k + 1, t, by omega, runsTo_succ hu hrun, hbt⟩

end Sys2Proof.Machine
end
